-- ==== Sys2Proof/Word.lean ====
section
/-! DEFINITION. The word types of the machine (spec/00_scope.md rules R8 and R9). -/

namespace Sys2Proof

/-- An 8-bit value: a V register, SP, DT, ST or one byte of memory (R8). -/
abbrev Byte := BitVec 8

/-- A 16-bit value: I, PC or an instruction word (R8, R130). -/
abbrev Word := BitVec 16

/-- The 12-bit address field nnn of an instruction word (R131). -/
abbrev Addr12 := BitVec 12

/-- The index of a general register, V0 to VF (R38). -/
abbrev Reg := Fin 16

/-- The index of a key, 0x0 to 0xF (R8, R48). -/
abbrev Key := Fin 16

/-- VF is general register 15 (R11, R38). -/
abbrev Reg.VF : Reg := 15

end Sys2Proof
end

