-- ==== Sys2Proof/Syntax.lean ====
section
/-! DEFINITION. The instruction set: one constructor per row of spec/opcode_table.json, in the table's order, under the
constructor names of spec/30_encoding.md R139. Operands are the fields of R131: `x`, `y` name registers, `kk` is a byte
immediate, `nnn` a 12-bit address, `n` a sprite height (a count of rows; WellFormed bounds it). -/

namespace Sys2Proof

/-- The 34 instructions (R134). -/
inductive Instr where
  /-- 00E0 CLS (R301) -/
  | cls
  /-- 00EE RET (R201) -/
  | ret
  /-- 1nnn JP nnn (R205) -/
  | jp (nnn : Addr12)
  /-- 2nnn CALL nnn (R202) -/
  | call (nnn : Addr12)
  /-- 3xkk SE Vx, kk (R207) -/
  | seI (x : Reg) (kk : Byte)
  /-- 4xkk SNE Vx, kk (R208) -/
  | sneI (x : Reg) (kk : Byte)
  /-- 5xy0 SE Vx, Vy (R209) -/
  | seR (x y : Reg)
  /-- 6xkk LD Vx, kk (R232) -/
  | ldI (x : Reg) (kk : Byte)
  /-- 7xkk ADD Vx, kk (R233) -/
  | addI (x : Reg) (kk : Byte)
  /-- 8xy0 LD Vx, Vy (R234) -/
  | ldR (x y : Reg)
  /-- 8xy1 OR Vx, Vy (R235) -/
  | or (x y : Reg)
  /-- 8xy2 AND Vx, Vy (R236) -/
  | and (x y : Reg)
  /-- 8xy3 XOR Vx, Vy (R237) -/
  | xor (x y : Reg)
  /-- 8xy4 ADD Vx, Vy (R238) -/
  | addR (x y : Reg)
  /-- 8xy5 SUB Vx, Vy (R239) -/
  | sub (x y : Reg)
  /-- 8xy6 SHR Vx (R240); the field y is decoded but no operand uses it (R133) -/
  | shr (x y : Reg)
  /-- 8xy7 SUBN Vx, Vy (R241) -/
  | subn (x y : Reg)
  /-- 8xyE SHL Vx (R242); the field y is decoded but no operand uses it (R133) -/
  | shl (x y : Reg)
  /-- 9xy0 SNE Vx, Vy (R210) -/
  | sneR (x y : Reg)
  /-- Annn LD I, nnn (R271) -/
  | ldIdx (nnn : Addr12)
  /-- Bnnn JP V0, nnn (R206) -/
  | jpV0 (nnn : Addr12)
  /-- Cxkk RND Vx, kk (R243) -/
  | rnd (x : Reg) (kk : Byte)
  /-- Dxyn DRW Vx, Vy, n (R302) -/
  | drw (x y : Reg) (n : Nat)
  /-- Ex9E SKP Vx (R341) -/
  | skp (x : Reg)
  /-- ExA1 SKNP Vx (R342) -/
  | sknp (x : Reg)
  /-- Fx07 LD Vx, DT (R345) -/
  | ldVxDt (x : Reg)
  /-- Fx0A LD Vx, K (R343) -/
  | ldVxK (x : Reg)
  /-- Fx15 LD DT, Vx (R346) -/
  | ldDtVx (x : Reg)
  /-- Fx18 LD ST, Vx (R347) -/
  | ldStVx (x : Reg)
  /-- Fx1E ADD I, Vx (R272) -/
  | addIdx (x : Reg)
  /-- Fx29 LD F, Vx (R273) -/
  | ldF (x : Reg)
  /-- Fx33 LD B, Vx (R274) -/
  | ldB (x : Reg)
  /-- Fx55 LD [I], Vx (R275) -/
  | stRegs (x : Reg)
  /-- Fx65 LD Vx, [I] (R276) -/
  | ldRegs (x : Reg)
deriving DecidableEq, Repr

end Sys2Proof
end

