-- ==== Sys2Proof/WellFormed.lean ====
section
/-! DEFINITION. Which terms of Instr an instruction word can hold. Register numbers, immediates and addresses carry their
width in their types; the sprite height is a count, so its range is checked here. -/

namespace Sys2Proof

/-- The height of a sprite is an unsigned count from 0 to 15, the 4-bit field n (R131, R133; assumption log 11). Every other operand's width
is its type's. -/
def Instr.wellFormed : Instr → Bool
  | .drw _ _ n => decide (n < 16)
  | .cls | .ret | .jp _ | .call _ | .seI _ _ | .sneI _ _ | .seR _ _ | .ldI _ _ | .addI _ _ | .ldR _ _ | .or _ _
  | .and _ _ | .xor _ _ | .addR _ _ | .sub _ _ | .shr _ _ | .subn _ _ | .shl _ _ | .sneR _ _ | .ldIdx _ | .jpV0 _
  | .rnd _ _ | .skp _ | .sknp _ | .ldVxDt _ | .ldVxK _ | .ldDtVx _ | .ldStVx _ | .addIdx _ | .ldF _ | .ldB _
  | .stRegs _ | .ldRegs _ => true

/-- A well-formed instruction: one that some instruction word encodes. -/
abbrev Instr.WellFormed (i : Instr) : Prop := i.wellFormed = true

end Sys2Proof
end

