-- ==== Sys2Proof/Decode.lean ====
section
/-! DEFINITION. Decoding, total over all 65536 words (spec/30_encoding.md R139), the encoder (R132 to R134), and the opcode
table of spec/opcode_table.json as rows of a mask and a pattern. -/

namespace Sys2Proof

/-! ### The fields of an instruction word (R131) -/

/-- op = w[15:12] -/
def fieldOp (w : Word) : BitVec 4 := w.extractLsb' 12 4
/-- nnn = w[11:0] -/
def fieldNnn (w : Word) : Addr12 := w.extractLsb' 0 12
/-- x = w[11:8] -/
def fieldX (w : Word) : Reg := (w.extractLsb' 8 4).toFin
/-- y = w[7:4] -/
def fieldY (w : Word) : Reg := (w.extractLsb' 4 4).toFin
/-- kk = w[7:0] -/
def fieldKk (w : Word) : Byte := w.extractLsb' 0 8
/-- n = w[3:0] -/
def fieldN (w : Word) : BitVec 4 := w.extractLsb' 0 4

/-! ### The decoder -/

/-- The six families that have decode gaps (R140's table). -/
inductive GapFamily where
  /-- 0nnn other than 00E0 and 00EE (R135) -/
  | system
  /-- 5xyn with n ≠ 0 (R138) -/
  | skipEqual
  /-- 8xyn with n in 8, 9, A, B, C, D, F (R136) -/
  | alu
  /-- 9xyn with n ≠ 0 (R138) -/
  | skipNotEqual
  /-- Exkk with kk not in 9E, A1 (R137) -/
  | keys
  /-- Fxkk with kk not one of the nine selectors (R137) -/
  | misc
deriving DecidableEq, Repr

/-- What a word decodes to: an instruction, or a decode gap named by its family (R139, R140; assumption log 10). -/
inductive Decoded where
  | instr (i : Instr)
  | gap (family : GapFamily)
deriving DecidableEq, Repr

/-- Family 0 matches the whole word (R135). -/
def decodeSystem (w : Word) : Decoded :=
  if w = 0x00E0 then .instr .cls
  else if w = 0x00EE then .instr .ret
  else .gap .system

/-- Family 8 selects on n (R136). -/
def decodeAlu (x y : Reg) (n : BitVec 4) : Decoded :=
  if n = 0x0 then .instr (.ldR x y)
  else if n = 0x1 then .instr (.or x y)
  else if n = 0x2 then .instr (.and x y)
  else if n = 0x3 then .instr (.xor x y)
  else if n = 0x4 then .instr (.addR x y)
  else if n = 0x5 then .instr (.sub x y)
  else if n = 0x6 then .instr (.shr x y)
  else if n = 0x7 then .instr (.subn x y)
  else if n = 0xE then .instr (.shl x y)
  else .gap .alu

/-- Family E selects on kk (R137). -/
def decodeKeys (x : Reg) (kk : Byte) : Decoded :=
  if kk = 0x9E then .instr (.skp x)
  else if kk = 0xA1 then .instr (.sknp x)
  else .gap .keys

/-- Family F selects on kk (R137). -/
def decodeMisc (x : Reg) (kk : Byte) : Decoded :=
  if kk = 0x07 then .instr (.ldVxDt x)
  else if kk = 0x0A then .instr (.ldVxK x)
  else if kk = 0x15 then .instr (.ldDtVx x)
  else if kk = 0x18 then .instr (.ldStVx x)
  else if kk = 0x1E then .instr (.addIdx x)
  else if kk = 0x29 then .instr (.ldF x)
  else if kk = 0x33 then .instr (.ldB x)
  else if kk = 0x55 then .instr (.stRegs x)
  else if kk = 0x65 then .instr (.ldRegs x)
  else .gap .misc

/-- The decoder in full (R139): dispatch on the top nibble, then on the family's selector. -/
def decode (w : Word) : Decoded :=
  match (fieldOp w).toNat with
  | 0x0 => decodeSystem w
  | 0x1 => .instr (.jp (fieldNnn w))
  | 0x2 => .instr (.call (fieldNnn w))
  | 0x3 => .instr (.seI (fieldX w) (fieldKk w))
  | 0x4 => .instr (.sneI (fieldX w) (fieldKk w))
  | 0x5 => if fieldN w = 0 then .instr (.seR (fieldX w) (fieldY w)) else .gap .skipEqual
  | 0x6 => .instr (.ldI (fieldX w) (fieldKk w))
  | 0x7 => .instr (.addI (fieldX w) (fieldKk w))
  | 0x8 => decodeAlu (fieldX w) (fieldY w) (fieldN w)
  | 0x9 => if fieldN w = 0 then .instr (.sneR (fieldX w) (fieldY w)) else .gap .skipNotEqual
  | 0xA => .instr (.ldIdx (fieldNnn w))
  | 0xB => .instr (.jpV0 (fieldNnn w))
  | 0xC => .instr (.rnd (fieldX w) (fieldKk w))
  | 0xD => .instr (.drw (fieldX w) (fieldY w) (fieldN w).toNat)
  | 0xE => decodeKeys (fieldX w) (fieldKk w)
  | _   => decodeMisc (fieldX w) (fieldKk w)

/-- The word composed from two bytes of memory, the first the more significant (R86, R130). -/
def composeWord (hi lo : Byte) : Word := hi.zeroExtend 16 <<< 8 ||| lo.zeroExtend 16

/-- The decoder on a run of bytes: one instruction takes exactly two (R130), and the rest is handed back; `none` only when
fewer than two bytes are there. -/
def decodeBytes : List Byte → Option (Decoded × List Byte)
  | hi :: lo :: rest => some (decode (composeWord hi lo), rest)
  | _ => none

/-! ### The encoder -/

/-- A register index as a 4-bit field (R131). -/
def regField (x : Reg) : BitVec 4 := BitVec.ofFin x

/-- Format NNN: `oooo nnnn nnnn nnnn` (R132). -/
def formatNNN (op : BitVec 4) (nnn : Addr12) : Word := op.zeroExtend 16 <<< 12 ||| nnn.zeroExtend 16

/-- Formats XKK and XSS: `oooo xxxx kkkk kkkk`, with kk the immediate or the fixed selector (R132). -/
def formatXKK (op : BitVec 4) (x : Reg) (kk : Byte) : Word :=
  op.zeroExtend 16 <<< 12 ||| (regField x).zeroExtend 16 <<< 8 ||| kk.zeroExtend 16

/-- Formats XYS and XYN: `oooo xxxx yyyy nnnn`, with the last nibble the fixed selector or n (R132). -/
def formatXYN (op : BitVec 4) (x y : Reg) (n : BitVec 4) : Word :=
  op.zeroExtend 16 <<< 12 ||| (regField x).zeroExtend 16 <<< 8 ||| (regField y).zeroExtend 16 <<< 4 ||| n.zeroExtend 16

/-- The word of an instruction, written from the map of R134 and the formats of R132. -/
def encode : Instr → Word
  | .cls => 0x00E0
  | .ret => 0x00EE
  | .jp nnn => formatNNN 0x1 nnn
  | .call nnn => formatNNN 0x2 nnn
  | .seI x kk => formatXKK 0x3 x kk
  | .sneI x kk => formatXKK 0x4 x kk
  | .seR x y => formatXYN 0x5 x y 0x0
  | .ldI x kk => formatXKK 0x6 x kk
  | .addI x kk => formatXKK 0x7 x kk
  | .ldR x y => formatXYN 0x8 x y 0x0
  | .or x y => formatXYN 0x8 x y 0x1
  | .and x y => formatXYN 0x8 x y 0x2
  | .xor x y => formatXYN 0x8 x y 0x3
  | .addR x y => formatXYN 0x8 x y 0x4
  | .sub x y => formatXYN 0x8 x y 0x5
  | .shr x y => formatXYN 0x8 x y 0x6
  | .subn x y => formatXYN 0x8 x y 0x7
  | .shl x y => formatXYN 0x8 x y 0xE
  | .sneR x y => formatXYN 0x9 x y 0x0
  | .ldIdx nnn => formatNNN 0xA nnn
  | .jpV0 nnn => formatNNN 0xB nnn
  | .rnd x kk => formatXKK 0xC x kk
  | .drw x y n => formatXYN 0xD x y (BitVec.ofNat 4 n)
  | .skp x => formatXKK 0xE x 0x9E
  | .sknp x => formatXKK 0xE x 0xA1
  | .ldVxDt x => formatXKK 0xF x 0x07
  | .ldVxK x => formatXKK 0xF x 0x0A
  | .ldDtVx x => formatXKK 0xF x 0x15
  | .ldStVx x => formatXKK 0xF x 0x18
  | .addIdx x => formatXKK 0xF x 0x1E
  | .ldF x => formatXKK 0xF x 0x29
  | .ldB x => formatXKK 0xF x 0x33
  | .stRegs x => formatXKK 0xF x 0x55
  | .ldRegs x => formatXKK 0xF x 0x65

/-- The bytes of a word as memory holds them, the high byte at the lower address (R86). -/
def wordBytes (w : Word) : List Byte := [w.extractLsb' 8 8, w.extractLsb' 0 8]

/-! ### The opcode table -/

/-- One row of spec/opcode_table.json: a word w holds the row's instruction exactly when w & mask = pattern. -/
structure OpcodeRow where
  mnemonic : String
  mask : Word
  pattern : Word
deriving DecidableEq, Repr

/-- The row of an instruction (spec/opcode_table.json, "mnemonic", "mask" and "match"). -/
def Instr.row : Instr → OpcodeRow
  | .cls => ⟨"CLS", 0xFFFF, 0x00E0⟩
  | .ret => ⟨"RET", 0xFFFF, 0x00EE⟩
  | .jp _ => ⟨"JP_nnn", 0xF000, 0x1000⟩
  | .call _ => ⟨"CALL_nnn", 0xF000, 0x2000⟩
  | .seI _ _ => ⟨"SE_Vx__kk", 0xF000, 0x3000⟩
  | .sneI _ _ => ⟨"SNE_Vx__kk", 0xF000, 0x4000⟩
  | .seR _ _ => ⟨"SE_Vx__Vy", 0xF00F, 0x5000⟩
  | .ldI _ _ => ⟨"LD_Vx__kk", 0xF000, 0x6000⟩
  | .addI _ _ => ⟨"ADD_Vx__kk", 0xF000, 0x7000⟩
  | .ldR _ _ => ⟨"LD_Vx__Vy", 0xF00F, 0x8000⟩
  | .or _ _ => ⟨"OR_Vx__Vy", 0xF00F, 0x8001⟩
  | .and _ _ => ⟨"AND_Vx__Vy", 0xF00F, 0x8002⟩
  | .xor _ _ => ⟨"XOR_Vx__Vy", 0xF00F, 0x8003⟩
  | .addR _ _ => ⟨"ADD_Vx__Vy", 0xF00F, 0x8004⟩
  | .sub _ _ => ⟨"SUB_Vx__Vy", 0xF00F, 0x8005⟩
  | .shr _ _ => ⟨"SHR_Vx", 0xF00F, 0x8006⟩
  | .subn _ _ => ⟨"SUBN_Vx__Vy", 0xF00F, 0x8007⟩
  | .shl _ _ => ⟨"SHL_Vx", 0xF00F, 0x800E⟩
  | .sneR _ _ => ⟨"SNE_Vx__Vy", 0xF00F, 0x9000⟩
  | .ldIdx _ => ⟨"LD_I__nnn", 0xF000, 0xA000⟩
  | .jpV0 _ => ⟨"JP_V0__nnn", 0xF000, 0xB000⟩
  | .rnd _ _ => ⟨"RND_Vx__kk", 0xF000, 0xC000⟩
  | .drw _ _ _ => ⟨"DRW_Vx__Vy__n", 0xF000, 0xD000⟩
  | .skp _ => ⟨"SKP_Vx", 0xF0FF, 0xE09E⟩
  | .sknp _ => ⟨"SKNP_Vx", 0xF0FF, 0xE0A1⟩
  | .ldVxDt _ => ⟨"LD_Vx__DT", 0xF0FF, 0xF007⟩
  | .ldVxK _ => ⟨"LD_Vx__K", 0xF0FF, 0xF00A⟩
  | .ldDtVx _ => ⟨"LD_DT__Vx", 0xF0FF, 0xF015⟩
  | .ldStVx _ => ⟨"LD_ST__Vx", 0xF0FF, 0xF018⟩
  | .addIdx _ => ⟨"ADD_I__Vx", 0xF0FF, 0xF01E⟩
  | .ldF _ => ⟨"LD_F__Vx", 0xF0FF, 0xF029⟩
  | .ldB _ => ⟨"LD_B__Vx", 0xF0FF, 0xF033⟩
  | .stRegs _ => ⟨"LD__I___Vx", 0xF0FF, 0xF055⟩
  | .ldRegs _ => ⟨"LD_Vx___I", 0xF0FF, 0xF065⟩

/-! ### The host's reading of a table word -/

/-- The bytes of an instruction whose bits the host numbers as spec/opcode_table.json does: one 16-bit word, laid out big-endian
(R86), every bit from nbits up being 0. -/
def tableWordBytes (nbits w : Nat) : List Byte := wordBytes (BitVec.ofNat 16 (w % 2 ^ nbits))

/-- The instruction the decoder reads from a table word, `none` where it is a decode gap. -/
def decodeTableWord (nbits w : Nat) : Option Instr :=
  match decodeBytes (tableWordBytes nbits w) with
  | some (.instr i, _) => some i
  | some (.gap _, _) => none
  | none => none

end Sys2Proof
end

