-- ==== Sys2Proof/Config.lean ====
section
/-! DEFINITION. The parameters of the model (spec/00_scope.md R8, spec/92_eei_decisions.md "Open parameters"): the sizes
and bases the spec fixes, the font, the reset values the spec leaves open, and the free value of the random source. -/

namespace Sys2Proof.Config

/-- MEM_SIZE: 4096 bytes, addresses 0x000 to 0xFFF (R8, R80). -/
abbrev memSize : Nat := 0x1000

/-- FONT_BASE + 80: the first address past the font region 0x000 to 0x04F (R81). -/
abbrev fontSize : Nat := 80

/-- GLYPH_STRIDE: 5 bytes a glyph (R8, R97). -/
abbrev glyphStride : Nat := 5

/-- PROGRAM_BASE, and the PC at reset (R8, R60). -/
abbrev programBase : Nat := 0x200

/-- ROM_MAX: the capacity of the program region, 0xEA0 − 0x200 (R8, R98). -/
abbrev romMax : Nat := 3232

/-- STACK_BASE (R8, R94). -/
abbrev stackBase : Nat := 0xEA0

/-- DISPLAY_BASE (R8, R96). -/
abbrev displayBase : Nat := 0xF00

/-- The display region holds 256 bytes (R81). -/
abbrev displaySize : Nat := 256

/-- Glyphs 0 to 3 of the default FONT of R97. -/
def font03 : List Byte :=
  [0xF0, 0x90, 0x90, 0x90, 0xF0, 0x20, 0x60, 0x20, 0x20, 0x70,
   0xF0, 0x10, 0xF0, 0x80, 0xF0, 0xF0, 0x10, 0xF0, 0x10, 0xF0]

/-- Glyphs 4 to 7 of the default FONT of R97. -/
def font47 : List Byte :=
  [0x90, 0x90, 0xF0, 0x10, 0x10, 0xF0, 0x80, 0xF0, 0x10, 0xF0,
   0xF0, 0x80, 0xF0, 0x90, 0xF0, 0xF0, 0x10, 0x20, 0x40, 0x40]

/-- Glyphs 8 to B of the default FONT of R97. -/
def font8B : List Byte :=
  [0xF0, 0x90, 0xF0, 0x90, 0xF0, 0xF0, 0x90, 0xF0, 0x10, 0xF0,
   0xF0, 0x90, 0xF0, 0x90, 0x90, 0xE0, 0x90, 0xE0, 0x90, 0xE0]

/-- Glyphs C to F of the default FONT of R97. -/
def fontCF : List Byte :=
  [0xF0, 0x80, 0x80, 0x80, 0xF0, 0xE0, 0x90, 0x90, 0x90, 0xE0,
   0xF0, 0x80, 0xF0, 0x80, 0xF0, 0xF0, 0x80, 0xF0, 0x80, 0x80]

/-- FONT: the 80 glyph bytes, at the default that R97 tabulates. PRESUMED (assumption log 2, unsafe): R97 makes FONT a
parameter and marks the default as general knowledge; no statement of this model rests on a glyph's bits. -/
def font : List Byte := font03 ++ font47 ++ font8B ++ fontCF

/-- INIT_V: what every V register holds at reset. DESIGN CHOICE (assumption log 1, unsafe): the spec leaves it OPEN (D5). -/
abbrev initV : Byte := 0

/-- INIT_I. DESIGN CHOICE (assumption log 1, unsafe): the spec leaves it OPEN (D5). -/
abbrev initI : Word := 0

/-- INIT_DT. DESIGN CHOICE (assumption log 1, unsafe): the spec leaves it OPEN (D6). -/
abbrev initDT : Byte := 0

/-- INIT_ST. DESIGN CHOICE (assumption log 1, unsafe): the spec leaves it OPEN (D6). -/
abbrev initST : Byte := 0

/-- FREE VALUE (assumption log 3, safe): the random byte of the n-th Step event that the model itself supplies. R429 leaves
`rnd` free, any value from 0 to 255, chosen anew at each step; nothing constrains this function. -/
opaque freeRnd : Nat → Byte

end Sys2Proof.Config
end

