-- ==== Sys2Proof/Machine/State.lean ====
section
/-! DEFINITION. The state of the machine (spec/10_state.md R37), the events it reacts to and the outputs it shows (R31), the
reasons a step can stop, and the state at reset (R60). -/

namespace Sys2Proof.Machine

/-- The memory image (R37, R80) as sparse data: a list of (address, byte), addresses strictly rising, no entry equal to what
an unlisted address reads as (`Memory.initial` in Ops). `Memory.wf` says so. -/
abbrev Memory := List Host.Cell

/-- The blocking-read state of the keyboard (R48, R426). -/
inductive KState where
  | idle
  | awaiting
deriving DecidableEq, Repr

/-- The load phase (R49, R463). -/
inductive Phase where
  /-- after reset, before a Load -/
  | constructed
  /-- after a Load that answered ok -/
  | running
  /-- after a Load that answered fail -/
  | loadFailed
deriving DecidableEq, Repr

/-- The four fault codes of R401. -/
inductive FaultCode where
  | fetchRange
  | readRange
  | writeRange
  | keyIndex
deriving DecidableEq, Repr

/-- The number R401 gives a code. -/
def FaultCode.number : FaultCode → Nat
  | .fetchRange => 1
  | .readRange => 2
  | .writeRange => 3
  | .keyIndex => 4

/-- The record `Fault(code, pc, addr)` of R401: pc is the address of the faulting instruction; addr is an unbounded natural
(R85), or the key index for KEY_INDEX. -/
structure FaultRecord where
  code : FaultCode
  pc : Word
  addr : Nat
deriving DecidableEq, Repr

/-- The input events of R31. A key index outside 0x0 to 0xF is not representable (spec/93 U18). -/
inductive Event where
  /-- Load(bytes, complete): complete is false when the storage read came back short (R462) -/
  | load (bytes : List Byte) (complete : Bool)
  /-- Step(rnd): one interpreter step (R50) -/
  | step (rnd : Byte)
  /-- Tick: both timers count down once (R420) -/
  | tick
  /-- Key(k, down): keyboard notify (R422) -/
  | key (k : Key) (down : Bool)
  /-- Terminate: ends the run (R35) -/
  | terminate
deriving DecidableEq, Repr

/-- What an event shows the host at the moment it happens (R31): the `present` strobe (R310) and the answer of a Load (R462).
The outputs `frame`, `sound` and the fault record are read from State. -/
inductive Output where
  | present
  | loadAnswer (ok : Bool)
deriving DecidableEq, Repr

/-- The state. The first thirteen fields are R37's tuple. The last five are the MODEL'S OWN (assumption log 3, 4, 5 and 6):
the host's side of the interface held as plain data (DESIGN CHOICE). -/
structure State where
  /-- the memory image, 4096 × 8 bits (R80) -/
  mem : Memory
  /-- the general registers V0 to VF, 8 bits each (R38) -/
  V : Vector Byte 16
  /-- the index register, 16 bits (R43) -/
  I : Word
  /-- the program counter, 16 bits (R44) -/
  PC : Word
  /-- the stack pointer, 8 bits (R46) -/
  SP : Byte
  /-- the delay timer, 8 bits (R47) -/
  DT : Byte
  /-- the sound timer, 8 bits (R47) -/
  ST : Byte
  /-- key k is held down (R48) -/
  keys : Vector Bool 16
  /-- the most recent key-down index, 4 bits (R48) -/
  lastKey : Key
  /-- the "keypress" edge flag (R48) -/
  edge : Bool
  /-- the blocking-read state (R48) -/
  kstate : KState
  /-- the load status (R49) -/
  phase : Phase
  /-- the fault record (R49) -/
  fault : Option FaultRecord
  /-- MODEL'S OWN: the events the host sends next, oldest first; when it is empty the host goes on sending Step events -/
  schedule : List Event
  /-- MODEL'S OWN: the input rnd of the Step event being run (R429); only Cxkk reads it -/
  rnd : Byte
  /-- MODEL'S OWN: how many free values Config.freeRnd has supplied -/
  rndCount : Nat
  /-- MODEL'S OWN: the outputs shown so far, newest first -/
  outputs : List Output
  /-- MODEL'S OWN: a Terminate event has ended the run -/
  ended : Bool
deriving DecidableEq, Repr

/-- Why a step stops the machine. No instruction raises one: the spec's own faults (R401) are recorded in the state. -/
inductive Fault where
  /-- Raised by `step` alone, on a state whose run a Terminate event has ended (R35). Safe: nothing happens after it. -/
  | terminated
deriving DecidableEq, Repr

/-- Why an instruction has no meaning. -/
inductive Refusal where
  /-- Raised by an arm of `exec` whose instruction is not modelled; no arm raises it now. Safe: the run stops. -/
  | notModelled (mnemonic : String)
deriving DecidableEq, Repr

/-- The outcome of an instruction, an event or a step. -/
abbrev Result := Host.Outcome State Fault Refusal

namespace State

/-! ### Updates, one per field -/

def setMem (s : State) (m : Memory) : State := { s with mem := m }
/-- Every register V0 to VF can be written (R38). -/
def setV (s : State) (x : Reg) (b : Byte) : State := { s with V := s.V.set x b }
def setI (s : State) (w : Word) : State := { s with I := w }
def setPC (s : State) (w : Word) : State := { s with PC := w }
def setSP (s : State) (b : Byte) : State := { s with SP := b }
def setDT (s : State) (b : Byte) : State := { s with DT := b }
def setST (s : State) (b : Byte) : State := { s with ST := b }
def setKey (s : State) (k : Key) (down : Bool) : State := { s with keys := s.keys.set k down }
def setLastKey (s : State) (k : Key) : State := { s with lastKey := k }
def setEdge (s : State) (b : Bool) : State := { s with edge := b }
def setKstate (s : State) (k : KState) : State := { s with kstate := k }
def setPhase (s : State) (p : Phase) : State := { s with phase := p }
def setFault (s : State) (f : Option FaultRecord) : State := { s with fault := f }
def setSchedule (s : State) (es : List Event) : State := { s with schedule := es }
def setRnd (s : State) (b : Byte) : State := { s with rnd := b }
def setRndCount (s : State) (n : Nat) : State := { s with rndCount := n }
def addOutput (s : State) (o : Output) : State := { s with outputs := o :: s.outputs }
def setEnded (s : State) (b : Bool) : State := { s with ended := b }

/-- Register x, V0 to VF (R11, R38): the one place a V register is read. -/
def getV (s : State) (x : Reg) : Byte := s.V[x]

/-- The keyboard's `get_key` (R425): is key k held down. -/
def getKey (s : State) (k : Key) : Bool := s.keys[k]

/-- The state after reset, before a Load (R60). Memory lists nothing: every address reads as the font and zeros of R60. The
values of V, I, DT and ST are the model's (assumption log 1); the last five fields are the model's own. -/
def reset : State where
  mem := []
  V := Vector.replicate 16 Config.initV
  I := Config.initI
  PC := BitVec.ofNat 16 Config.programBase
  SP := 0
  DT := Config.initDT
  ST := Config.initST
  keys := Vector.replicate 16 false
  lastKey := 0
  edge := false
  kstate := .idle
  phase := .constructed
  fault := none
  schedule := []
  rnd := 0
  rndCount := 0
  outputs := []
  ended := false

end State

end Sys2Proof.Machine
end

