-- ==== Sys2Proof/Machine/Ops.lean ====
section
/-! DEFINITION. The named operations over memory, registers and devices that the meanings share: memory in its canonical form
(spec/20_memory.md), the range check (R84), recording a fault (spec/60_exceptions.md R400 to R405), the next PC (R12, R45),
the keyboard's await and acknowledge (R423, R424), and the outputs (R310, R311, R430). -/

namespace Sys2Proof.Machine

/-! ### Memory -/

/-- What an unlisted address reads as: the memory image at reset, FONT at 0x000 to 0x04F and zero above (R60). -/
def Memory.initial (a : Nat) : Byte := if a < Config.fontSize then Config.font.getD a 0 else 0

/-- The byte at an address (R80, R90). A read has no side effect (R83). -/
def Memory.read : Memory → Nat → Byte
  | [], a => Memory.initial a
  | (b, v) :: m, a => if a = b then v else Memory.read m a

/-- Drops every entry of an address. -/
def Memory.erase : Memory → Nat → Memory
  | [], _ => []
  | (b, v) :: m, a => if a = b then Memory.erase m a else (b, v) :: Memory.erase m a

/-- Puts an entry where the rising order of addresses has it. -/
def Memory.insert : Memory → Nat → Byte → Memory
  | [], a, v => [(a, v)]
  | (b, w) :: m, a, v => if a < b then (a, v) :: (b, w) :: m else (b, w) :: Memory.insert m a v

/-- Stores one byte (R13, R83), keeping the canonical form: the value an unlisted address reads as is not listed. -/
def Memory.write (m : Memory) (a : Nat) (v : Byte) : Memory :=
  if v = Memory.initial a then m.erase a else (m.erase a).insert a v

/-- Stores bytes at a, a+1, ... in ascending order (R15, R89). -/
def Memory.writeBytes : Memory → Nat → List Byte → Memory
  | m, _, [] => m
  | m, a, v :: vs => Memory.writeBytes (m.write a v) (a + 1) vs

/-- MemRead(a, 2): two bytes as one value, the byte at a the more significant (R13, R86). -/
def Memory.readWord (m : Memory) (a : Nat) : Word := composeWord (m.read a) (m.read (a + 1))

/-- MemWrite(a, 2, w): the high byte at a, the low byte at a+1 (R13, R86). -/
def Memory.writeWord (m : Memory) (a : Nat) (w : Word) : Memory := m.writeBytes a (wordBytes w)

/-- The canonical form over the 4096 addresses of R80, for a list whose addresses all lie at or above `lo`. -/
def Memory.wfFrom : Nat → Memory → Bool
  | _, [] => true
  | lo, (a, v) :: m =>
    decide (lo ≤ a) && decide (a < Config.memSize) && decide (v ≠ Memory.initial a) && Memory.wfFrom (a + 1) m

/-- Memory is in canonical form: addresses strictly rising and inside 0x000 to 0xFFF, no entry equal to what an unlisted
address reads as. -/
def Memory.wf (m : Memory) : Bool := Memory.wfFrom 0 m

/-- The byte at an address in a state. -/
def State.byteAt (s : State) (a : Nat) : Byte := s.mem.read a

/-! ### The next PC (R12, R45) -/

/-- npc = trunc_16(PC + 2): every instruction that sets no other next PC, and every decode gap. -/
def advance (s : State) : State := s.setPC (s.PC + 2)

/-- npc = trunc_16(PC + 4): a skip whose condition is true. -/
def skip (s : State) : State := s.setPC (s.PC + 4)

/-- A conditional skip: PC + 4 when the condition holds, else PC + 2 (R45). -/
def skipIf (c : Bool) (s : State) : State := if c then skip s else advance s

/-- npc <- target (R12). -/
def jump (target : Word) (s : State) : State := s.setPC target

/-! ### Taking a fault (R400 to R405) -/

/-- `raise Fault(code, addr)` (R14, R402): the step writes only the fault record, with pc the address of the faulting
instruction. Nothing else changes, control goes nowhere; the machine is in a next state (assumption log 8). There is no
return from a fault (R405). -/
def raise (code : FaultCode) (addr : Nat) (s : State) : Result := .next (s.setFault (some ⟨code, s.PC, addr⟩))

/-- The first address above 0xFFF, in check order (R84, R404). -/
def firstAbove (addrs : List Nat) : Option Nat := addrs.find? (fun a => decide (Config.memSize ≤ a))

/-- CheckAddr over every address an instruction will touch, in the order it lists them, before its first write (R84, R404,
D4): the first failing one is reported; with none the instruction ends in `t`. -/
def checked (code : FaultCode) (addrs : List Nat) (s t : State) : Result :=
  match firstAbove addrs with
  | some a => raise code a s
  | none => .next t

/-! ### The keyboard's blocking read -/

/-- KbAwait (R423): from Idle, go to Awaiting and clear the edge flag; already Awaiting, nothing. -/
def kbAwait (s : State) : State :=
  match s.kstate with
  | .idle => (s.setKstate .awaiting).setEdge false
  | .awaiting => s

/-- KbAck (R424): with the edge flag set, clear it, go to Idle and answer true; else answer false. -/
def kbAck (s : State) : Bool × State :=
  if s.edge then (true, (s.setEdge false).setKstate .idle) else (false, s)

/-- KbKey(k) (R425). -/
def kbKey (k : Key) (s : State) : Bool := s.getKey k

/-! ### Outputs -/

/-- Present() (R310): the strobe that says the display region should be shown. -/
def present (s : State) : State := s.addOutput .present

/-- The `frame` output (R311): the 256 bytes of the display region. -/
def State.frame (s : State) : List Byte :=
  (List.range Config.displaySize).map fun k => s.byteAt (Config.displayBase + k)

/-- Pixel (c, r) of the display: bit 7 − (c mod 8) of the byte at 0xF00 + 8·r + floor(c / 8) (R96). -/
def State.pixel (s : State) (c r : Nat) : Bool :=
  (s.byteAt (Config.displayBase + 8 * r + c / 8)).getLsbD (7 - c % 8)

/-- `export()` (R300, R311): the 64 × 32 bit matrix, one list a row. -/
def State.displayMatrix (s : State) : List (List Bool) :=
  (List.range 32).map fun r => (List.range 64).map fun c => s.pixel c r

/-- The `sound` output (R430): the value of ST. -/
def State.sound (s : State) : Byte := s.ST

/-- The `status` output (R31, R49): the load result and the fault record. -/
def State.status (s : State) : Phase × Option FaultRecord := (s.phase, s.fault)

end Sys2Proof.Machine
end

