-- ==== Sys2Proof/Machine/Operands.lean ====
section
/-! DEFINITION. How operands are formed (spec/30_encoding.md R133) and how effective addresses are computed: as unbounded
naturals, never wrapped (spec/20_memory.md R85). -/

namespace Sys2Proof.Machine

/-- The 16 register indices in ascending order. -/
def allRegs : List Reg := [0, 1, 2, 3, 4, 5, 6, 7, 8, 9, 10, 11, 12, 13, 14, 15]

/-- V0 to Vx in ascending order, the registers of Fx55 and Fx65 (R275, R276). -/
def regsUpTo (x : Reg) : List Reg := allRegs.filter (fun r => decide (r ≤ x))

/-- An address immediate where it meets I or PC: zext_16(nnn) (R133). -/
def addrOperand (nnn : Addr12) : Word := nnn.zeroExtend 16

/-- A V register where it meets I or PC: zext_16(V[x]). -/
def byteOperand (b : Byte) : Word := b.zeroExtend 16

/-- StackAddr(s) = 0xEA0 + 2·s, the product not truncated (R95). -/
def stackAddr (sp : Byte) : Nat := Config.stackBase + 2 * sp.toNat

/-- The two bytes of the stack entry that sp selects, in access order (R94). -/
def stackAddrs (sp : Byte) : List Nat := [stackAddr sp, stackAddr sp + 1]

/-- The bytes I, I+1, ..., I+k−1 (R270, R85). -/
def indexAddrs (base : Word) (k : Nat) : List Nat := (List.range k).map (fun j => base.toNat + j)

/-- glyph address: 5 × Vx, not masked to a digit (R273). -/
def glyphAddr (b : Byte) : Word := BitVec.ofNat 16 (Config.glyphStride * b.toNat)

/-- The decimal digits of a byte: hundreds, tens, units (R274). -/
def bcdDigits (v : Byte) : List Byte :=
  [BitVec.ofNat 8 (v.toNat / 100), BitVec.ofNat 8 (v.toNat / 10 % 10), BitVec.ofNat 8 (v.toNat % 10)]

/-- The values of V0 to Vx, the bytes Fx55 stores (R275). -/
def regBytes (s : State) (x : Reg) : List Byte := (regsUpTo x).map s.getV

/-- Loads registers in the order listed, register r from base + r (R276). -/
def loadRegs (base : Nat) : List Reg → State → State
  | [], s => s
  | r :: rs, s => loadRegs base rs (s.setV r (s.byteAt (base + r.val)))

/-! ### The display operands of Dxyn (R303) -/

/-- o = X mod 8, the bit offset inside the byte. -/
def spriteOffset (X : Byte) : Nat := X.toNat % 8

/-- t = 0xF00 + (Y + r)·8 + floor(X / 8), the target byte of row r. -/
def spriteTarget (X Y : Byte) (r : Nat) : Nat := Config.displayBase + (Y.toNat + r) * 8 + X.toNat / 8

/-- The display bytes row r touches: t, and t + 1 when the offset is not 0. -/
def rowTargets (X Y : Byte) (r : Nat) : List Nat :=
  if spriteOffset X = 0 then [spriteTarget X Y r] else [spriteTarget X Y r, spriteTarget X Y r + 1]

/-- The addresses row r checks, in order: the sprite byte, then its display bytes (R303, R404). -/
def rowAddrs (base : Word) (X Y : Byte) (r : Nat) : List Nat := (base.toNat + r) :: rowTargets X Y r

/-- The addresses a draw of n rows checks, in order (R303, R404). -/
def drawAddrs (base : Word) (X Y : Byte) (n : Nat) : List Nat := (List.range n).flatMap (rowAddrs base X Y)

end Sys2Proof.Machine
end

