-- ==== Sys2Proof/Machine/Flags.lean ====
section
/-! DEFINITION. What each flag-writing instruction leaves in VF (spec/10_state.md R40): always exactly 0 or 1. VF is written
after the result, so it wins where the destination is VF (R42, R231). -/

namespace Sys2Proof.Machine

/-- A flag as the byte VF receives: 1 or 0 (R40). -/
def flagByte (c : Bool) : Byte := if c then 1 else 0

/-- 8xy4: carry, the sum is above 255 (R238). -/
def carryFlag (a b : Byte) : Byte := flagByte (decide (a.toNat + b.toNat > 255))

/-- 8xy5: no borrow, Vy <= Vx (R239). -/
def subFlag (a b : Byte) : Byte := flagByte (decide (b.toNat ≤ a.toNat))

/-- 8xy7: Vy > Vx, strict as the source writes it (R241, spec/93 G3). -/
def subnFlag (a b : Byte) : Byte := flagByte (decide (b.toNat > a.toNat))

/-- 8xy6: the bit shifted out, the old bit 0 (R240). -/
def shrFlag (a : Byte) : Byte := flagByte (a.getLsbD 0)

/-- 8xyE: the bit shifted out, the old bit 7 (R242). -/
def shlFlag (a : Byte) : Byte := flagByte (a.getLsbD 7)

/-- Fx1E: the sum of I and Vx overflows 16 bits (R272). -/
def indexFlag (i : Word) (b : Byte) : Byte := flagByte (decide (i.toNat + b.toNat > 0xFFFF))

/-- Dxyn: the blit erased a set pixel (R304). -/
def collisionFlag (c : Bool) : Byte := flagByte c

/-- Writes VF (R40). -/
def setFlag (f : Byte) (s : State) : State := s.setV Reg.VF f

end Sys2Proof.Machine
end

