-- ==== Sys2Proof/Machine/Alu.lean ====
section
/-! DEFINITION. Register loads, ALU and random (spec/41_alu.md): 6xkk, 7xkk, 8xy0 to 8xy7, 8xyE, Cxkk. None touches memory. -/

namespace Sys2Proof.Machine

/-- Write the result and go on at PC + 2. -/
def finish (x : Reg) (v : Byte) (s : State) : State := advance (s.setV x v)

/-- Write the result, then the flag (R231: with x = F the flag is what VF ends holding), and go on at PC + 2. -/
def finishFlag (x : Reg) (v f : Byte) (s : State) : State := advance (setFlag f (s.setV x v))

/-- 6xkk LD (R232). -/
def execLdI (x : Reg) (kk : Byte) (s : State) : Result := .next (finish x kk s)

/-- 7xkk ADD (R233): wraps, no flag. -/
def execAddI (x : Reg) (kk : Byte) (s : State) : Result := .next (finish x (s.getV x + kk) s)

/-- 8xy0 LD (R234). -/
def execLdR (x y : Reg) (s : State) : Result := .next (finish x (s.getV y) s)

/-- 8xy1 OR (R235). -/
def execOr (x y : Reg) (s : State) : Result := .next (finish x (s.getV x ||| s.getV y) s)

/-- 8xy2 AND (R236). -/
def execAnd (x y : Reg) (s : State) : Result := .next (finish x (s.getV x &&& s.getV y) s)

/-- 8xy3 XOR (R237). -/
def execXor (x y : Reg) (s : State) : Result := .next (finish x (s.getV x ^^^ s.getV y) s)

/-- 8xy4 ADD (R238). -/
def execAddR (x y : Reg) (s : State) : Result :=
  .next (finishFlag x (s.getV x + s.getV y) (carryFlag (s.getV x) (s.getV y)) s)

/-- 8xy5 SUB (R239). -/
def execSub (x y : Reg) (s : State) : Result :=
  .next (finishFlag x (s.getV x - s.getV y) (subFlag (s.getV x) (s.getV y)) s)

/-- 8xy6 SHR (R240): the field y is not used. -/
def execShr (x _y : Reg) (s : State) : Result :=
  .next (finishFlag x (s.getV x >>> 1) (shrFlag (s.getV x)) s)

/-- 8xy7 SUBN (R241). -/
def execSubn (x y : Reg) (s : State) : Result :=
  .next (finishFlag x (s.getV y - s.getV x) (subnFlag (s.getV x) (s.getV y)) s)

/-- 8xyE SHL (R242): the field y is not used. -/
def execShl (x _y : Reg) (s : State) : Result :=
  .next (finishFlag x (s.getV x <<< 1) (shlFlag (s.getV x)) s)

/-- Cxkk RND (R243): the random byte of this Step event, masked. -/
def execRnd (x : Reg) (kk : Byte) (s : State) : Result := .next (finish x (s.rnd &&& kk) s)

end Sys2Proof.Machine
end

