-- ==== Sys2Proof/Machine/Control.lean ====
section
/-! DEFINITION. Control transfer (spec/40_control.md): 00EE, 2nnn, 1nnn, Bnnn, 3xkk, 4xkk, 5xy0, 9xy0. -/

namespace Sys2Proof.Machine

/-- 00EE RET (R201): pop the entry at SP, decrement SP modulo 256, go to the popped address + 2 (D9). -/
def execRet (s : State) : Result :=
  checked .readRange (stackAddrs s.SP) s
    (jump (s.mem.readWord (stackAddr s.SP) + 2) (s.setSP (s.SP - 1)))

/-- 2nnn CALL (R202): increment SP modulo 256, push the address of this instruction at the new SP, go to nnn. -/
def execCall (nnn : Addr12) (s : State) : Result :=
  checked .writeRange (stackAddrs (s.SP + 1)) s
    (jump (addrOperand nnn) ((s.setMem (s.mem.writeWord (stackAddr (s.SP + 1)) s.PC)).setSP (s.SP + 1)))

/-- 1nnn JP (R205). -/
def execJp (nnn : Addr12) (s : State) : Result := .next (jump (addrOperand nnn) s)

/-- Bnnn JP V0 (R206): nnn + V0, not masked to 12 bits (D21). -/
def execJpV0 (nnn : Addr12) (s : State) : Result := .next (jump (addrOperand nnn + byteOperand (s.getV 0)) s)

/-- 3xkk SE (R207). -/
def execSeI (x : Reg) (kk : Byte) (s : State) : Result := .next (skipIf (decide (s.getV x = kk)) s)

/-- 4xkk SNE (R208). -/
def execSneI (x : Reg) (kk : Byte) (s : State) : Result := .next (skipIf (decide (s.getV x ≠ kk)) s)

/-- 5xy0 SE (R209). -/
def execSeR (x y : Reg) (s : State) : Result := .next (skipIf (decide (s.getV x = s.getV y)) s)

/-- 9xy0 SNE (R210). -/
def execSneR (x y : Reg) (s : State) : Result := .next (skipIf (decide (s.getV x ≠ s.getV y)) s)

end Sys2Proof.Machine
end

