-- ==== Sys2Proof/Machine/Display.lean ====
section
/-! DEFINITION. The display encoder (spec/43_display.md): 00E0 and Dxyn. The framebuffer is memory 0xF00 to 0xFFF. -/

namespace Sys2Proof.Machine

/-- `clear()` (R300, R301): zero to every byte of the display region. -/
def clearDisplay (m : Memory) : Memory := m.writeBytes Config.displayBase (List.replicate Config.displaySize 0)

/-- 00E0 CLS (R301). -/
def execCls (s : State) : Result := .next (advance (present (s.setMem (clearDisplay s.mem))))

/-- XOR of one mask onto the byte at t, and whether it erased a set bit (R303, R304). -/
def blitByte (m : Memory) (t : Nat) (mask : Byte) : Memory × Bool :=
  (m.write t (m.read t ^^^ mask), decide (m.read t &&& mask ≠ 0))

/-- One row: the sprite byte at `src` is read, then XORed onto t at bit offset o, and its right part onto t + 1 when o is
not 0 (R303, R305). -/
def drawRow (m : Memory) (src t o : Nat) : Memory × Bool :=
  let sprite := m.read src
  let left := blitByte m t (sprite >>> o)
  if o = 0 then left
  else
    let right := blitByte left.1 (t + 1) (sprite <<< (8 - o))
    (right.1, left.2 || right.2)

/-- Rows in the order listed; each row reads memory as the rows before it left it (R305). -/
def drawRows (base : Nat) (X Y : Byte) : List Nat → Memory → Memory × Bool
  | [], m => (m, false)
  | r :: rs, m =>
    let row := drawRow m (base + r) (spriteTarget X Y r) (spriteOffset X)
    let rest := drawRows base X Y rs row.1
    (rest.1, row.2 || rest.2)

/-- DrawSprite(X, Y, h) (R303) after its range checks: rows 0 to h−1 in ascending order. -/
def drawSprite (base : Nat) (X Y : Byte) (h : Nat) (m : Memory) : Memory × Bool :=
  drawRows base X Y (List.range h) m

/-- Dxyn DRW (R302): the coordinates are read before VF is written; with n = 0 nothing is drawn and VF is 0 (R308). -/
def execDrw (x y : Reg) (n : Nat) (s : State) : Result :=
  let drawn := drawSprite s.I.toNat (s.getV x) (s.getV y) n s.mem
  checked .readRange (drawAddrs s.I (s.getV x) (s.getV y) n) s
    (advance (present (setFlag (collisionFlag drawn.2) (s.setMem drawn.1))))

end Sys2Proof.Machine
end

