-- ==== Sys2Proof/Machine/Index.lean ====
section
/-! DEFINITION. Index register and memory transfers (spec/42_index_memory.md): Annn, Fx1E, Fx29, Fx33, Fx55, Fx65. No transfer
changes I (D20); each checks every address before it writes (R270). -/

namespace Sys2Proof.Machine

/-- Annn LD I (R271). -/
def execLdIdx (nnn : Addr12) (s : State) : Result := .next (advance (s.setI (addrOperand nnn)))

/-- Fx1E ADD I (R272): I wraps at 16 bits, VF says whether it did; with x = F the old VF is the addend. -/
def execAddIdx (x : Reg) (s : State) : Result :=
  .next (advance (setFlag (indexFlag s.I (s.getV x)) (s.setI (s.I + byteOperand (s.getV x)))))

/-- Fx29 LD F (R273). -/
def execLdF (x : Reg) (s : State) : Result := .next (advance (s.setI (glyphAddr (s.getV x))))

/-- Fx33 LD B (R274). -/
def execLdB (x : Reg) (s : State) : Result :=
  checked .writeRange (indexAddrs s.I 3) s
    (advance (s.setMem (s.mem.writeBytes s.I.toNat (bcdDigits (s.getV x)))))

/-- Fx55 LD [I] (R275). -/
def execStRegs (x : Reg) (s : State) : Result :=
  checked .writeRange (indexAddrs s.I (x.val + 1)) s
    (advance (s.setMem (s.mem.writeBytes s.I.toNat (regBytes s x))))

/-- Fx65 LD Vx, [I] (R276). -/
def execLdRegs (x : Reg) (s : State) : Result :=
  checked .readRange (indexAddrs s.I (x.val + 1)) s (advance (loadRegs s.I.toNat (regsUpTo x) s))

end Sys2Proof.Machine
end

