-- ==== Sys2Proof/Machine/KeysTimers.lean ====
section
/-! DEFINITION. Keyboard and timer instructions (spec/44_keys_timers.md): Ex9E, ExA1, Fx0A, Fx07, Fx15, Fx18. -/

namespace Sys2Proof.Machine

/-- A byte as a key index, for a byte already found to be at most 15. -/
def keyOperand (b : Byte) : Key := Fin.ofNat 16 b.toNat

/-- A key index as the byte Fx0A loads: zext_8(last_key) (R343). -/
def keyByte (k : Key) : Byte := BitVec.ofNat 8 k.val

/-- The key skips (R341, R342): a key index above 15 faults (D16); else skip when the key's level is `level`. -/
def keySkip (x : Reg) (level : Bool) (s : State) : Result :=
  if (s.getV x).toNat > 15 then raise .keyIndex (s.getV x).toNat s
  else .next (skipIf (kbKey (keyOperand (s.getV x)) s == level) s)

/-- Ex9E SKP (R341). -/
def execSkp (x : Reg) (s : State) : Result := keySkip x true s

/-- ExA1 SKNP (R342). -/
def execSknp (x : Reg) (s : State) : Result := keySkip x false s

/-- Fx0A LD Vx, K (R343): await, then acknowledge; without an edge the PC stays, so the instruction runs again. -/
def execLdVxK (x : Reg) (s : State) : Result :=
  match kbAck (kbAwait s) with
  | (true, t) => .next (advance (t.setV x (keyByte t.lastKey)))
  | (false, t) => .next t

/-- Fx07 LD Vx, DT (R345). -/
def execLdVxDt (x : Reg) (s : State) : Result := .next (advance (s.setV x s.DT))

/-- Fx15 LD DT, Vx (R346). -/
def execLdDtVx (x : Reg) (s : State) : Result := .next (advance (s.setDT (s.getV x)))

/-- Fx18 LD ST, Vx (R347). -/
def execLdStVx (x : Reg) (s : State) : Result := .next (advance (s.setST (s.getV x)))

end Sys2Proof.Machine
end

