-- ==== Sys2Proof/Machine/Events.lean ====
section
/-! DEFINITION. The reactions to the input events of spec/10_state.md R31: Step (R50), Load (R462), Tick (R420), Key (R422),
Terminate (R35). Each is atomic (R32). -/

namespace Sys2Proof.Machine

/-- Decode and execute one fetched word (R50): a decode gap writes only PC <- trunc_16(PC + 2) (R52, R140). -/
def execWord (w : Word) (s : State) : Result :=
  match decode w with
  | .instr i => exec i s
  | .gap _ => .next (advance s)

/-- The two bytes of an instruction fetch, in access order (R50). -/
def fetchAddrs (pc : Word) : List Nat := [pc.toNat, pc.toNat + 1]

/-- The big-endian fetch (R50, R86). -/
def fetchWord (s : State) : Word := s.mem.readWord s.PC.toNat

/-- The body of Step(rnd) (R50): the fetch is checked first (R404); `rnd` is the event's input, read by Cxkk alone. -/
def runStep (rnd : Byte) (s : State) : Result :=
  match firstAbove (fetchAddrs s.PC) with
  | some a => raise .fetchRange a s
  | none => execWord (fetchWord s) (s.setRnd rnd)

/-- Step(rnd) (R50): no effect unless the phase is Running and no fault is recorded (R34, R403). -/
def onStep (rnd : Byte) (s : State) : Result :=
  match s.phase, s.fault with
  | .running, none => runStep rnd s
  | .running, some _ => .next s
  | .constructed, _ => .next s
  | .loadFailed, _ => .next s

/-- Load(bytes, complete) (R462): a second Load is refused (D32); a ROM over 3232 bytes or a short read fails with no byte
written (D29); else the bytes go to 0x200 and on. The answer is an output. -/
def onLoad (bytes : List Byte) (complete : Bool) (s : State) : State :=
  match s.phase with
  | .constructed =>
    if bytes.length > Config.romMax ∨ complete = false then
      (s.setPhase .loadFailed).addOutput (.loadAnswer false)
    else
      ((s.setMem (s.mem.writeBytes Config.programBase bytes)).setPhase .running).addOutput (.loadAnswer true)
  | .running => s.addOutput (.loadAnswer false)
  | .loadFailed => s.addOutput (.loadAnswer false)

/-- One timer: decrement if nonzero (R420). -/
def countDown (b : Byte) : Byte := if b = 0 then 0 else b - 1

/-- Tick (R420): both timers, in every phase and in the faulted state. -/
def onTick (s : State) : State := (s.setDT (countDown s.DT)).setST (countDown s.ST)

/-- Key(k, down) (R422): the slot follows the event; a key-down also sets the edge flag and last_key. -/
def onKey (k : Key) (down : Bool) (s : State) : State :=
  if down then ((s.setKey k true).setEdge true).setLastKey k else s.setKey k false

/-- Terminate (R35): the run ends at this event boundary; nothing is rolled back. -/
def onTerminate (s : State) : State := s.setEnded true

/-- The reaction to one event. -/
def react (e : Event) (s : State) : Result :=
  match e with
  | .load bytes complete => .next (onLoad bytes complete s)
  | .step rnd => onStep rnd s
  | .tick => .next (onTick s)
  | .key k down => .next (onKey k down s)
  | .terminate => .next (onTerminate s)

/-- Processes the next event (R32): the oldest one of the schedule; with the schedule empty, a Step event whose `rnd` is a fresh
free value (R429). -/
def processNext (s : State) : Result :=
  match s.schedule with
  | [] => react (.step (Config.freeRnd s.rndCount)) (s.setRndCount (s.rndCount + 1))
  | e :: es => react e (s.setSchedule es)

/-- Where the next fetch can read two bytes: PC, or PROGRAM_BASE when PC lies too high for a fetch (R84). -/
def fetchableAddr (pc : Word) : Nat := if pc.toNat + 1 < Config.memSize then pc.toNat else Config.programBase

/-- Stores a table word where the next step fetches, and opens the gate a Step needs: phase Running, no fault recorded, the
run not ended, no other event scheduled first. It stands for a Load of the program (assumption log 7). -/
def placeFetchWord (s : State) (nbits w : Nat) : State :=
  let a := fetchableAddr s.PC
  (((((s.setMem (s.mem.writeBytes a (tableWordBytes nbits w))).setPC (BitVec.ofNat 16 a)).setPhase .running).setFault
    none).setSchedule []).setEnded false

end Sys2Proof.Machine
end

