-- ==== Sys2Proof/Machine/Step.lean ====
section
/-! DEFINITION. One step of the machine: one event of spec/10_state.md R31. -/

namespace Sys2Proof.Machine

/-- One event, until a Terminate event has ended the run (R32, R35; assumption log 4 and 6). -/
def step (s : State) : Host.Outcome State Fault Refusal :=
  if s.ended then .fault .terminated else processNext s

/-- `s` with a table word where `step` fetches its next instruction, ready to run. -/
def State.withFetchWord (s : State) (nbits w : Nat) : State := placeFetchWord s nbits w

end Sys2Proof.Machine
end

