-- ==== Sys2Proof/Safety.lean ====
section
/-! DEFINITION. What a safe run is, the invariant every event keeps, and the terms in which a claim says what an instruction
leaves unchanged. -/

namespace Sys2Proof.Machine

/-! ### Frames -/

/-- The parts of State a frame can speak of: the elements of R37, the outputs shown, whether the run has ended (R35), and the
rest of the model's own host side. -/
inductive Part where
  | mem | V | I | PC | SP | DT | ST | keys | lastKey | edge | kstate | phase | fault | outputs | ended | host
deriving DecidableEq, Repr

/-- A part reads the same in both states. Memory is compared through the read of one byte, registers and keys through their
accessors. -/
def Part.Same (p : Part) (s t : State) : Prop :=
  match p with
  | .mem => ∀ a, t.byteAt a = s.byteAt a
  | .V => ∀ r, t.getV r = s.getV r
  | .I => t.I = s.I
  | .PC => t.PC = s.PC
  | .SP => t.SP = s.SP
  | .DT => t.DT = s.DT
  | .ST => t.ST = s.ST
  | .keys => ∀ k, t.getKey k = s.getKey k
  | .lastKey => t.lastKey = s.lastKey
  | .edge => t.edge = s.edge
  | .kstate => t.kstate = s.kstate
  | .phase => t.phase = s.phase
  | .fault => t.fault = s.fault
  | .outputs => t.outputs = s.outputs
  | .ended => t.ended = s.ended
  | .host => t.schedule = s.schedule ∧ t.rnd = s.rnd ∧ t.rndCount = s.rndCount

/-- From `s` to `t` nothing changes but the parts listed. -/
def SameBut (changed : List Part) (s t : State) : Prop := ∀ p, p ∉ changed → p.Same s t

/-! ### Sprites -/

/-- What one row of a sprite XORs onto an address: the sprite byte shifted right by o onto the target t, its right part onto
t + 1 when o is not 0, nothing elsewhere (R303). -/
def rowMask (sprite : Byte) (t o a : Nat) : Byte :=
  if a = t then sprite >>> o
  else if a = t + 1 ∧ o ≠ 0 then sprite <<< (8 - o)
  else 0

/-! ### Safe runs -/

/-- A run that has ended in no error so far: no fault is recorded (R403: a run that ends with `fault` set has ended in error). -/
def State.Clean (s : State) : Prop := s.fault = none

/-- A fault record that R401's table allows: the pc is the address of the faulting instruction, where PC still stands (R402);
the address of a range fault lies above 0xFFF; the value of a key fault is a byte above 15. -/
def FaultRecord.Sound (f : FaultRecord) (s : State) : Prop :=
  f.pc = s.PC ∧
    match f.code with
    | .keyIndex => 15 < f.addr ∧ f.addr ≤ 255
    | .fetchRange | .readRange | .writeRange => 0xFFF < f.addr

/-- What no event before a successful Load changes (R34, R462, R464): the registers, the memory image, the blocking-read
state and the fault record are as reset left them. -/
def State.Unstarted (s : State) : Prop :=
  s.mem = State.reset.mem ∧ s.V = State.reset.V ∧ s.I = State.reset.I ∧ s.PC = State.reset.PC ∧
    s.SP = State.reset.SP ∧ s.kstate = .idle ∧ s.fault = none

/-- The invariant of the machine: memory is in canonical form; a recorded fault is one R401 allows; and before a Load has
answered ok nothing has run. -/
def State.Inv (s : State) : Prop :=
  s.mem.wf = true ∧ (∀ f, s.fault = some f → f.Sound s) ∧ (s.phase ≠ .running → s.Unstarted)

end Sys2Proof.Machine
end

