-- ==== Sys2Proof/Certificates/Slice0/Obligations.lean ====
section
/-! DEFINITION. The statements for the provers. They speak in the terms of Safety (SameBut, rowMask, Inv) and in plain
arithmetic on numbers; the functions under Claims restate tables of the spec independently of the meanings. -/

open Sys2Proof Sys2Proof.Machine

namespace Sys2Proof.Claims

/-! ### Shapes of effects -/

/-- A register result: V[x] holds `result`, every other register and everything else but PC is unchanged, PC + 2. -/
def Writes (x : Reg) (result : Byte) (s t : State) : Prop :=
  (∀ r, t.getV r = if r = x then result else s.getV r) ∧ t.PC = s.PC + 2 ∧ SameBut [.V, .PC] s t

/-- A register result and a flag: VF holds `flag` (also where x is F), V[x] holds `result`, the rest as in `Writes`. -/
def WritesWithFlag (x : Reg) (result flag : Byte) (s t : State) : Prop :=
  (∀ r, t.getV r = if r = 15 then flag else if r = x then result else s.getV r) ∧ t.PC = s.PC + 2 ∧
    SameBut [.V, .PC] s t

/-- A skip: PC + 4 when the condition holds, else PC + 2, modulo 2^16; nothing else changes. -/
def Skips (c : Prop) (s t : State) : Prop :=
  (c → t.PC.toNat = (s.PC.toNat + 4) % 65536) ∧ (¬ c → t.PC.toNat = (s.PC.toNat + 2) % 65536) ∧ SameBut [.PC] s t

/-! ### Words, written as numbers from the patterns of spec/30_encoding.md R132 and R134 -/

/-- op and nnn -/
def wordNNN (op : Nat) (nnn : Addr12) : Word := BitVec.ofNat 16 (op * 0x1000 + nnn.toNat)
/-- op, x and a low byte -/
def wordXKK (op : Nat) (x : Reg) (kk : Nat) : Word := BitVec.ofNat 16 (op * 0x1000 + x.val * 0x100 + kk)
/-- op, x, y and a low nibble -/
def wordXYN (op : Nat) (x y : Reg) (n : Nat) : Word :=
  BitVec.ofNat 16 (op * 0x1000 + x.val * 0x100 + y.val * 0x10 + n)

/-! ### Faults: the table of spec/60_exceptions.md R401 with the conditions of the instruction rules -/

/-- The first failing check of row r of a draw (R303, R307, R404): the sprite byte, the target byte, then the byte after
it. -/
def rowFault (base : Nat) (X Y : Nat) (r : Nat) : Option Nat :=
  if 0xFFF < base + r then some (base + r)
  else if 0xFFF < 0xF00 + 8 * (Y + r) + X / 8 then some (0xF00 + 8 * (Y + r) + X / 8)
  else if X % 8 ≠ 0 ∧ 0xFFF < 0xF00 + 8 * (Y + r) + X / 8 + 1 then some (0xF00 + 8 * (Y + r) + X / 8 + 1)
  else none

/-- The fault an instruction raises in a state, with the `addr` it records; `none` where it runs. -/
def faultOf (i : Instr) (s : State) : Option (FaultCode × Nat) :=
  match i with
  | .ret => if 0xB0 ≤ s.SP.toNat then some (.readRange, 0xEA0 + 2 * s.SP.toNat) else none
  | .call _ =>
    if 0xAF ≤ s.SP.toNat ∧ s.SP.toNat ≤ 0xFE then some (.writeRange, 0xEA0 + 2 * (s.SP.toNat + 1)) else none
  | .ldB _ => if 0xFFE ≤ s.I.toNat then some (.writeRange, max s.I.toNat 0x1000) else none
  | .stRegs x => if 0xFFF < s.I.toNat + x.val then some (.writeRange, max s.I.toNat 0x1000) else none
  | .ldRegs x => if 0xFFF < s.I.toNat + x.val then some (.readRange, max s.I.toNat 0x1000) else none
  | .drw x y n =>
    ((List.range n).findSome? (rowFault s.I.toNat (s.getV x).toNat (s.getV y).toNat)).map fun a => (.readRange, a)
  | .skp x => if 15 < (s.getV x).toNat then some (.keyIndex, (s.getV x).toNat) else none
  | .sknp x => if 15 < (s.getV x).toNat then some (.keyIndex, (s.getV x).toNat) else none
  | .cls | .jp _ | .seI _ _ | .sneI _ _ | .seR _ _ | .ldI _ _ | .addI _ _ | .ldR _ _ | .or _ _ | .and _ _ | .xor _ _
  | .addR _ _ | .sub _ _ | .shr _ _ | .subn _ _ | .shl _ _ | .sneR _ _ | .ldIdx _ | .jpV0 _ | .rnd _ _ | .ldVxDt _
  | .ldVxK _ | .ldDtVx _ | .ldStVx _ | .addIdx _ | .ldF _ => none

/-! ### Whole-machine tables of spec/10_state.md -/

/-- R45: the next PC of an instruction that does not fault. -/
def nextPC (i : Instr) (s : State) : Nat :=
  match i with
  | .jp nnn => nnn.toNat
  | .call nnn => nnn.toNat
  | .jpV0 nnn => nnn.toNat + (s.getV 0).toNat
  | .ret =>
    ((s.byteAt (0xEA0 + 2 * s.SP.toNat)).toNat * 256 + (s.byteAt (0xEA0 + 2 * s.SP.toNat + 1)).toNat + 2) % 65536
  | .seI x kk => (s.PC.toNat + if s.getV x = kk then 4 else 2) % 65536
  | .sneI x kk => (s.PC.toNat + if s.getV x = kk then 2 else 4) % 65536
  | .seR x y => (s.PC.toNat + if s.getV x = s.getV y then 4 else 2) % 65536
  | .sneR x y => (s.PC.toNat + if s.getV x = s.getV y then 2 else 4) % 65536
  | .skp x => (s.PC.toNat + if s.getKey (Fin.ofNat 16 (s.getV x).toNat) = true then 4 else 2) % 65536
  | .sknp x => (s.PC.toNat + if s.getKey (Fin.ofNat 16 (s.getV x).toNat) = true then 2 else 4) % 65536
  | .ldVxK _ => if s.kstate = .awaiting ∧ s.edge = true then (s.PC.toNat + 2) % 65536 else s.PC.toNat
  | .cls | .ldI _ _ | .addI _ _ | .ldR _ _ | .or _ _ | .and _ _ | .xor _ _ | .addR _ _ | .sub _ _ | .shr _ _ | .subn _ _
  | .shl _ _ | .ldIdx _ | .rnd _ _ | .drw _ _ _ | .ldVxDt _ | .ldDtVx _ | .ldStVx _ | .addIdx _ | .ldF _ | .ldB _
  | .stRegs _ | .ldRegs _ => (s.PC.toNat + 2) % 65536

/-- R40: the flag-writing instructions. -/
def writesFlag : Instr → Bool
  | .addR _ _ | .sub _ _ | .shr _ _ | .subn _ _ | .shl _ _ | .drw _ _ _ | .addIdx _ => true
  | .cls | .ret | .jp _ | .call _ | .seI _ _ | .sneI _ _ | .seR _ _ | .ldI _ _ | .addI _ _ | .ldR _ _ | .or _ _
  | .and _ _ | .xor _ _ | .sneR _ _ | .ldIdx _ | .jpV0 _ | .rnd _ _ | .skp _ | .sknp _ | .ldVxDt _ | .ldVxK _
  | .ldDtVx _ | .ldStVx _ | .ldF _ | .ldB _ | .stRegs _ | .ldRegs _ => false

/-- R39: register r is a destination of the instruction (the flag of R40 apart). -/
def isDestination (i : Instr) (r : Reg) : Prop :=
  match i with
  | .ldI x _ | .addI x _ | .ldR x _ | .or x _ | .and x _ | .xor x _ | .addR x _ | .sub x _ | .shr x _ | .subn x _
  | .shl x _ | .rnd x _ | .ldVxDt x | .ldVxK x => r = x
  | .ldRegs x => r ≤ x
  | .cls | .ret | .jp _ | .call _ | .seI _ _ | .sneI _ _ | .seR _ _ | .sneR _ _ | .ldIdx _ | .jpV0 _ | .drw _ _ _
  | .skp _ | .sknp _ | .ldDtVx _ | .ldStVx _ | .addIdx _ | .ldF _ | .ldB _ | .stRegs _ => False

/-- The parts of the state, V and PC apart, that an instruction that does not fault may change: memory (R87), I (R43), SP
(R46), the timers (R47), the keyboard (R48) and the outputs (R310). -/
def otherParts : Instr → List Part
  | .cls => [.mem, .outputs]
  | .drw _ _ _ => [.mem, .outputs]
  | .call _ => [.mem, .SP]
  | .ret => [.SP]
  | .ldB _ => [.mem]
  | .stRegs _ => [.mem]
  | .ldIdx _ => [.I]
  | .addIdx _ => [.I]
  | .ldF _ => [.I]
  | .ldDtVx _ => [.DT]
  | .ldStVx _ => [.ST]
  | .ldVxK _ => [.edge, .kstate]
  | .jp _ | .seI _ _ | .sneI _ _ | .seR _ _ | .ldI _ _ | .addI _ _ | .ldR _ _ | .or _ _ | .and _ _ | .xor _ _ | .addR _ _
  | .sub _ _ | .shr _ _ | .subn _ _ | .shl _ _ | .sneR _ _ | .jpV0 _ | .rnd _ _ | .skp _ | .sknp _ | .ldVxDt _
  | .ldRegs _ => []

/-- The instructions that raise `present` (R310). -/
def presents : Instr → Bool
  | .cls | .drw _ _ _ => true
  | .ret | .jp _ | .call _ | .seI _ _ | .sneI _ _ | .seR _ _ | .ldI _ _ | .addI _ _ | .ldR _ _ | .or _ _ | .and _ _
  | .xor _ _ | .addR _ _ | .sub _ _ | .shr _ _ | .subn _ _ | .shl _ _ | .sneR _ _ | .ldIdx _ | .jpV0 _ | .rnd _ _
  | .skp _ | .sknp _ | .ldVxDt _ | .ldVxK _ | .ldDtVx _ | .ldStVx _ | .addIdx _ | .ldF _ | .ldB _ | .stRegs _
  | .ldRegs _ => false

/-! ### Steps -/

/-- The next event of `s` is Step(rnd), the events after it are `es`, and the run has not ended. -/
def StepNext (rnd : Byte) (es : List Event) (s : State) : Prop := s.ended = false ∧ s.schedule = .step rnd :: es

/-- A Step event has its effect (R34, R403): the phase is Running and no fault is recorded. -/
def CanStep (s : State) : Prop := s.phase = .running ∧ s.fault = none

/-- The word at PC, the byte at PC the more significant (R86). -/
def wordAtPC (s : State) : Word :=
  BitVec.ofNat 16 ((s.byteAt s.PC.toNat).toNat * 256 + (s.byteAt (s.PC.toNat + 1)).toNat)

/-! ### Draws (R303, R306) -/

/-- No check of the draw fails: every row's sprite byte and display bytes lie in memory (R307). -/
def DrawInRange (x y : Reg) (n : Nat) (s : State) : Prop :=
  ∀ r, r < n → rowFault s.I.toNat (s.getV x).toNat (s.getV y).toNat r = none

/-- No sprite byte lies in a display byte the draw touches (R309). -/
def SpriteApart (x y : Reg) (n : Nat) (s : State) : Prop :=
  ∀ r q, r < n → q < n → s.I.toNat + r ∉ rowTargets (s.getV x) (s.getV y) q

/-- Linear display bit p, pixel (p mod 64, p / 64) (R306). -/
def displayBit (s : State) (p : Nat) : Bool := s.pixel (p % 64) (p / 64)

/-! ### Reset and the unobservable part of the keyboard (R61, R464) -/

/-- A Tick or Key event. -/
def isDeviceEvent : Event → Bool
  | .tick | .key _ _ => true
  | .load _ _ | .step _ | .terminate => false

/-- A Tick, Key or Step event: what the host may send before the Load. -/
def isBeforeLoad : Event → Bool
  | .tick | .key _ _ | .step _ => true
  | .load _ _ | .terminate => false

/-- How many Tick events a list holds. -/
def tickCount (es : List Event) : Nat := es.countP (fun e => decide (e = .tick))

/-- The keyboard after the Key events of a list. -/
def afterKeys (es : List Event) (s : State) : State :=
  es.foldl (fun u e => match e with
    | .key k down => onKey k down u
    | .load _ _ | .step _ | .tick | .terminate => u) s

/-- Two states that differ at most in `edge` and `last_key`, and in Awaiting agree on the edge and, where it is set, on the
key it stands for (R61). -/
def SameUpToStaleKey (s u : State) : Prop :=
  u = (s.setEdge u.edge).setLastKey u.lastKey ∧
    (s.kstate = .awaiting → u.edge = s.edge ∧ (s.edge = true → u.lastKey = s.lastKey))

/-- How many of the 4096 words with top nibble `op` are decode gaps. -/
def gapsIn (op : Nat) : Nat :=
  (List.range 0x1000).countP fun k => match decode (BitVec.ofNat 16 (op * 0x1000 + k)) with
    | .gap _ => true
    | .instr _ => false

end Sys2Proof.Claims

open Sys2Proof.Claims

/-! ## Encoding -/

/-- R134, R139: decoding the word of a well-formed instruction gives the instruction back, every operand at every value. -/
def Obligations.DecodeAfterEncode : Prop := ∀ i : Instr, i.WellFormed → decode (encode i) = .instr i

/-- R141: a word that decodes to an instruction is the word that instruction encodes to; no bit is dropped. -/
def Obligations.EncodeAfterDecode : Prop := ∀ w i, decode w = .instr i → encode i = w ∧ i.WellFormed

/-- The opcode table: a word decodes to an instruction of a row exactly when it matches the row's mask and pattern. The
second part leaves no room for two rows that match one word. -/
def Obligations.OpcodeTableGovernsDecode : Prop :=
  (∀ w i, decode w = .instr i → w &&& i.row.mask = i.row.pattern) ∧
    (∀ w (i : Instr), w &&& i.row.mask = i.row.pattern → ∃ j, decode w = .instr j ∧ j.row = i.row)

/-- R135 to R138: which words of the six families with gaps are instructions; every word of the other families is one. -/
def Obligations.GapWordsByFamily : Prop :=
  ∀ w : Word,
    (w.toNat / 0x1000 = 0x0 → decode w =
      if w.toNat = 0x00E0 then .instr .cls else if w.toNat = 0x00EE then .instr .ret else .gap .system) ∧
    (w.toNat / 0x1000 = 0x8 →
      ((∃ i, decode w = .instr i) ↔ w.toNat % 16 ∈ [0x0, 0x1, 0x2, 0x3, 0x4, 0x5, 0x6, 0x7, 0xE]) ∧
      (decode w = .gap .alu ↔ w.toNat % 16 ∈ [0x8, 0x9, 0xA, 0xB, 0xC, 0xD, 0xF])) ∧
    (w.toNat / 0x1000 = 0xE →
      ((∃ i, decode w = .instr i) ↔ w.toNat % 256 ∈ [0x9E, 0xA1]) ∧
      (decode w = .gap .keys ↔ w.toNat % 256 ∉ [0x9E, 0xA1])) ∧
    (w.toNat / 0x1000 = 0xF →
      ((∃ i, decode w = .instr i) ↔ w.toNat % 256 ∈ [0x07, 0x0A, 0x15, 0x18, 0x1E, 0x29, 0x33, 0x55, 0x65]) ∧
      (decode w = .gap .misc ↔ w.toNat % 256 ∉ [0x07, 0x0A, 0x15, 0x18, 0x1E, 0x29, 0x33, 0x55, 0x65])) ∧
    (w.toNat / 0x1000 = 0x5 →
      ((∃ i, decode w = .instr i) ↔ w.toNat % 16 = 0) ∧ (decode w = .gap .skipEqual ↔ w.toNat % 16 ≠ 0)) ∧
    (w.toNat / 0x1000 = 0x9 →
      ((∃ i, decode w = .instr i) ↔ w.toNat % 16 = 0) ∧ (decode w = .gap .skipNotEqual ↔ w.toNat % 16 ≠ 0)) ∧
    (w.toNat / 0x1000 ∉ [0x0, 0x5, 0x8, 0x9, 0xE, 0xF] → ∃ i, decode w = .instr i)

/-- R140: the gaps, counted exactly, by family and in total. -/
def Obligations.GapWordCounts : Prop :=
  gapsIn 0x0 = 4094 ∧ gapsIn 0x5 = 3840 ∧ gapsIn 0x8 = 1792 ∧ gapsIn 0x9 = 3840 ∧ gapsIn 0xE = 4064 ∧
    gapsIn 0xF = 3952 ∧ (∀ op ∈ [0x1, 0x2, 0x3, 0x4, 0x6, 0x7, 0xA, 0xB, 0xC, 0xD], gapsIn op = 0) ∧
    ((List.range 16).map gapsIn).sum = 21582

/-- One word of each section of the instruction rules, its bits written out from R132's patterns. -/
def Obligations.SampleWordsDecode : Prop :=
  decode 0b0010001000001010#16 = .instr (.call 0x20A) ∧      -- 220A, R202
  decode 0b0011001100101010#16 = .instr (.seI 3 0x2A) ∧      -- 332A, R207
  decode 0b1000000000010100#16 = .instr (.addR 0 1) ∧        -- 8014, R238
  decode 0b1111001001010101#16 = .instr (.stRegs 2) ∧        -- F255, R275
  decode 0b1101000000010001#16 = .instr (.drw 0 1 1) ∧       -- D011, R302
  decode 0b1110010110011110#16 = .instr (.skp 5) ∧           -- E59E, R341
  decode 0b1111001100001010#16 = .instr (.ldVxK 3) ∧         -- F30A, R343
  decode 0b0101000100100001#16 = .gap .skipEqual             -- 5121, R138

/-! ## Steps and events -/

/-- R50: a Step event fetches, decodes and executes. With the gate of R34 and R403 closed it changes nothing; a fetch past
0xFFF faults; else the big-endian word at PC runs, an instruction by its meaning, a gap as a no-op. The step hands the
event's rnd to the meaning and takes the event off the schedule (the model's own fields). -/
def Obligations.StepFetchesDecodesExecutes : Prop :=
  ∀ s rnd es, StepNext rnd es s →
    (¬ CanStep s → step s = .next (s.setSchedule es)) ∧
    (CanStep s → 0xFFF < s.PC.toNat + 1 →
      step s = .next ((s.setSchedule es).setFault
        (some ⟨.fetchRange, s.PC, if 0xFFF < s.PC.toNat then s.PC.toNat else 0x1000⟩))) ∧
    (CanStep s → s.PC.toNat + 1 ≤ 0xFFF →
      (∀ i, decode (wordAtPC s) = .instr i → step s = exec i ((s.setSchedule es).setRnd rnd)) ∧
      (∀ g, decode (wordAtPC s) = .gap g → step s = .next (((s.setSchedule es).setRnd rnd).setPC (s.PC + 2))))

/-- Assumption log 4 (the model's choice) with R429: with nothing scheduled the step is the Step event whose rnd is the next
free value; nothing is said of that value. -/
def Obligations.UnscheduledStepTakesFreeRandomByte : Prop :=
  ∀ s, s.ended = false → s.schedule = [] →
    step s = step ((s.setRndCount (s.rndCount + 1)).setSchedule [.step (Config.freeRnd s.rndCount)])

/-- R32: the oldest scheduled event is the one processed, and every event answers a next state. -/
def Obligations.EventsRunOldestFirst : Prop :=
  ∀ s e es, s.ended = false → s.schedule = e :: es →
    step s = react e (s.setSchedule es) ∧
    (∃ t, step s = .next t ∧ t.schedule = es)

/-- R35 with assumption log 6 (the model's choice: the flag `ended` and the fault `terminated`): Terminate ends the run at
an event boundary, nothing is rolled back, and no event is processed after it; no other event ends the run, and neither
does the Step of an empty schedule. -/
def Obligations.TerminateEndsTheRun : Prop :=
  (∀ s es, s.ended = false → s.schedule = .terminate :: es →
    ∃ t, step s = .next t ∧ t.ended = true ∧ SameBut [.ended, .host] s t) ∧
  (∀ s, s.ended = true → step s = .fault .terminated) ∧
  (∀ s e es, s.ended = false → s.schedule = e :: es → e ≠ .terminate → ∃ t, step s = .next t ∧ t.ended = false) ∧
  (∀ s, s.ended = false → s.schedule = [] → ∃ t, step s = .next t ∧ t.ended = false)

/-- R52: a decode gap is a no-op that writes only PC <- trunc_16(PC + 2). -/
def Obligations.GapWordIsNoOp : Prop :=
  ∀ s rnd es g, StepNext rnd es s → CanStep s → s.PC.toNat + 1 ≤ 0xFFF → decode (wordAtPC s) = .gap g →
    ∃ t, step s = .next t ∧ t.PC.toNat = (s.PC.toNat + 2) % 65536 ∧ SameBut [.PC, .host] s t

/-- R34: a Step event in phase Constructed or LoadFailed changes nothing. -/
def Obligations.NoStepBeforeSuccessfulLoad : Prop :=
  ∀ s rnd es, StepNext rnd es s → s.phase = .constructed ∨ s.phase = .loadFailed →
    step s = .next (s.setSchedule es)

/-- R462: Load(bytes, complete), all three ways it can go. -/
def Obligations.LoadAcceptsOrRejects : Prop :=
  ∀ s bytes complete es, s.ended = false → s.schedule = .load bytes complete :: es →
    ∃ t, step s = .next t ∧
      (s.phase ≠ .constructed →
        t.outputs = .loadAnswer false :: s.outputs ∧ SameBut [.outputs, .host] s t) ∧
      (s.phase = .constructed → 3232 < bytes.length ∨ complete = false →
        t.phase = .loadFailed ∧ t.outputs = .loadAnswer false :: s.outputs ∧ SameBut [.phase, .outputs, .host] s t) ∧
      (s.phase = .constructed → bytes.length ≤ 3232 → complete = true →
        t.phase = .running ∧ t.outputs = .loadAnswer true :: s.outputs ∧
        (∀ j, j < bytes.length → t.byteAt (0x200 + j) = bytes.getD j 0) ∧
        (∀ a, a < 0x200 ∨ 0x200 + bytes.length ≤ a → t.byteAt a = s.byteAt a) ∧
        SameBut [.mem, .phase, .outputs, .host] s t)

/-- R463: phase goes from Constructed to Running or to LoadFailed by a Load alone and never changes again; a later Load is
refused and changes nothing; Step changes nothing outside Running; Tick and Key are accepted in every phase. -/
def Obligations.LoadHappensOnce : Prop :=
  ∀ s e es, s.ended = false → s.schedule = e :: es →
    (∀ t, step s = .next t → t.phase ≠ s.phase →
      s.phase = .constructed ∧ (t.phase = .running ∨ t.phase = .loadFailed) ∧ ∃ bytes complete, e = .load bytes complete) ∧
    (s.phase ≠ .constructed → ∀ bytes complete, e = .load bytes complete →
      step s = .next ((s.setSchedule es).addOutput (.loadAnswer false))) ∧
    (s.phase ≠ .running → ∀ rnd, e = .step rnd → step s = .next (s.setSchedule es)) ∧
    (e = .tick → ∃ t, step s = .next t ∧ t.DT.toNat = s.DT.toNat - 1 ∧ t.ST.toNat = s.ST.toNat - 1) ∧
    (∀ k down, e = .key k down → ∃ t, step s = .next t ∧ t.getKey k = down)

/-- R420: from value v, N Tick events give max(0, v − N) in both timers, in every phase and in the faulted state, and change
nothing else. -/
def Obligations.TicksCountDownToZero : Prop :=
  ∀ s n es, s.ended = false → s.schedule = List.replicate n .tick ++ es →
    ∃ t, Sys2Proof.core.run n s = .next t ∧ t.schedule = es ∧
      t.DT.toNat = s.DT.toNat - n ∧ t.ST.toNat = s.ST.toNat - n ∧ SameBut [.DT, .ST, .host] s t

/-- R422: what a Key event writes: the slot always; the edge flag and last_key on a key-down only; never kstate. -/
def Obligations.KeyEventUpdatesKeyboard : Prop :=
  ∀ s k down es, s.ended = false → s.schedule = .key k down :: es →
    ∃ t, step s = .next t ∧ (∀ j, t.getKey j = if j = k then down else s.getKey j) ∧
      (down = true → t.edge = true ∧ t.lastKey = k ∧ SameBut [.keys, .edge, .lastKey, .host] s t) ∧
      (down = false → SameBut [.keys, .host] s t)

/-- R403: once `fault` is set no event clears it; a Step changes nothing; Tick and Key still act; Terminate ends the run. -/
def Obligations.FaultIsTerminal : Prop :=
  ∀ s f e es, s.ended = false → s.fault = some f → s.schedule = e :: es →
    ∃ t, step s = .next t ∧ t.fault = some f ∧
      (∀ rnd, e = .step rnd → t = s.setSchedule es) ∧
      (e = .tick → t.DT.toNat = s.DT.toNat - 1 ∧ t.ST.toNat = s.ST.toNat - 1 ∧ SameBut [.DT, .ST, .host] s t) ∧
      (∀ k down, e = .key k down → t.getKey k = down ∧ SameBut [.keys, .edge, .lastKey, .host] s t) ∧
      (e = .terminate → t.ended = true ∧ SameBut [.ended, .host] s t)

/-- R402: a step that raises writes only the fault record, with pc the address of the faulting instruction; whatever the
instruction, and in the fetch too. -/
def Obligations.FaultEntryIsPrecise : Prop :=
  (∀ i s t, s.fault = none → exec i s = .next t → t.fault ≠ none →
    ∃ code addr, t = s.setFault (some ⟨code, s.PC, addr⟩)) ∧
  (∀ s rnd es t, StepNext rnd es s → s.fault = none → step s = .next t → t.fault ≠ none →
    (∃ code addr, t.fault = some ⟨code, s.PC, addr⟩) ∧ SameBut [.fault, .host] s t)

/-- R401: the numbers of the codes; which instruction raises which code, exactly when, and the address it records; in every
other case the instruction runs and no fault is recorded, and no decode gap records one; and the fetch's own fault. -/
def Obligations.FaultCausesAndRecords : Prop :=
  ([FaultCode.fetchRange, .readRange, .writeRange, .keyIndex].map FaultCode.number = [1, 2, 3, 4]) ∧
  (∀ i s,
    (∀ code addr, faultOf i s = some (code, addr) → exec i s = .next (s.setFault (some ⟨code, s.PC, addr⟩))) ∧
    (faultOf i s = none → ∃ t, exec i s = .next t ∧ t.fault = s.fault)) ∧
  (∀ w g s, decode w = .gap g → ∃ t, execWord w s = .next t ∧ t.fault = s.fault) ∧
  (∀ s rnd es, StepNext rnd es s → CanStep s → 0xFFF < s.PC.toNat + 1 →
    ∃ t, step s = .next t ∧
      t.fault = some ⟨.fetchRange, s.PC, if 0xFFF < s.PC.toNat then s.PC.toNat else 0x1000⟩)

/-! ## Control transfer -/

/-- R205, R206: the jumps. Nothing but PC changes; the Bnnn target is not masked to 12 bits. -/
def Obligations.JumpsGoToTheirTargets : Prop :=
  ∀ nnn s,
    decode (wordNNN 0x1 nnn) = .instr (.jp nnn) ∧ decode (wordNNN 0xB nnn) = .instr (.jpV0 nnn) ∧
    (∃ t, exec (.jp nnn) s = .next t ∧ t.PC.toNat = nnn.toNat ∧ SameBut [.PC] s t) ∧
    (∃ t, exec (.jpV0 nnn) s = .next t ∧ t.PC.toNat = nnn.toNat + (s.getV 0).toNat ∧ SameBut [.PC] s t)

/-- R207 to R210: the conditional skips. -/
def Obligations.SkipsPassOneInstruction : Prop :=
  ∀ (x y : Reg) (kk : Byte) s,
    decode (wordXKK 0x3 x kk.toNat) = .instr (.seI x kk) ∧ decode (wordXKK 0x4 x kk.toNat) = .instr (.sneI x kk) ∧
    decode (wordXYN 0x5 x y 0) = .instr (.seR x y) ∧ decode (wordXYN 0x9 x y 0) = .instr (.sneR x y) ∧
    (∃ t, exec (.seI x kk) s = .next t ∧ Skips (s.getV x = kk) s t) ∧
    (∃ t, exec (.sneI x kk) s = .next t ∧ Skips (s.getV x ≠ kk) s t) ∧
    (∃ t, exec (.seR x y) s = .next t ∧ Skips (s.getV x = s.getV y) s t) ∧
    (∃ t, exec (.sneR x y) s = .next t ∧ Skips (s.getV x ≠ s.getV y) s t)

/-- R202: CALL pushes its own address, high byte first, at 0xEA0 + 2·s for the incremented s, and goes to nnn; it faults
exactly when that entry lies past memory. -/
def Obligations.CallPushesItsAddress : Prop :=
  ∀ nnn s,
    decode (wordNNN 0x2 nnn) = .instr (.call nnn) ∧
    (stackAddr (s.SP + 1) = 0xEA0 + 2 * ((s.SP.toNat + 1) % 256)) ∧
    ((s.SP.toNat + 1) % 256 < 0xB0 →
      ∃ t, exec (.call nnn) s = .next t ∧
        (t.byteAt (stackAddr (s.SP + 1))).toNat = s.PC.toNat / 256 ∧
        (t.byteAt (stackAddr (s.SP + 1) + 1)).toNat = s.PC.toNat % 256 ∧
        (∀ a, a ≠ stackAddr (s.SP + 1) → a ≠ stackAddr (s.SP + 1) + 1 → t.byteAt a = s.byteAt a) ∧
        t.SP.toNat = (s.SP.toNat + 1) % 256 ∧ t.PC.toNat = nnn.toNat ∧ SameBut [.mem, .SP, .PC] s t) ∧
    (0xAF ≤ s.SP.toNat → s.SP.toNat ≤ 0xFE →
      exec (.call nnn) s = .next (s.setFault (some ⟨.writeRange, s.PC, stackAddr (s.SP + 1)⟩)))

/-- R201: RET pops the entry at SP, decrements SP modulo 256 and goes to the popped address + 2 modulo 2^16; the entry's
bytes stay; it faults exactly when SP ≥ 0xB0. -/
def Obligations.ReturnPopsAndGoesOnAfterTheCall : Prop :=
  ∀ s,
    decode 0x00EE = .instr .ret ∧
    (s.SP.toNat < 0xB0 →
      ∃ t, exec .ret s = .next t ∧
        t.PC.toNat = ((s.byteAt (0xEA0 + 2 * s.SP.toNat)).toNat * 256 +
          (s.byteAt (0xEA0 + 2 * s.SP.toNat + 1)).toNat + 2) % 65536 ∧
        t.SP.toNat = (s.SP.toNat + 255) % 256 ∧ SameBut [.SP, .PC] s t) ∧
    (0xB0 ≤ s.SP.toNat →
      exec .ret s = .next (s.setFault (some ⟨.readRange, s.PC, 0xEA0 + 2 * s.SP.toNat⟩)))

/-- R203, an inference the spec marks as derived: after a CALL at address a with SP = s, a RET with SP = trunc_8(s + 1)
and the entry unchanged leaves PC = a + 2 and SP = s, whatever ran in between. -/
def Obligations.CallThenReturnRoundTrip : Prop :=
  ∀ nnn s t u, (s.SP.toNat + 1) % 256 < 0xB0 → exec (.call nnn) s = .next t → u.SP = s.SP + 1 →
    u.byteAt (stackAddr u.SP) = t.byteAt (stackAddr u.SP) →
    u.byteAt (stackAddr u.SP + 1) = t.byteAt (stackAddr u.SP + 1) →
    ∃ v, exec .ret u = .next v ∧ v.PC = s.PC + 2 ∧ v.SP = s.SP

/-- R95, which the spec marks as derived: where the entry SP selects lies: in the stack region up to 47, in the display
region up to 0xAF, past memory from 0xB0. -/
def Obligations.StackEntryPlaces : Prop :=
  ∀ sp : Byte, stackAddr sp = 0xEA0 + 2 * sp.toNat ∧
    (1 ≤ sp.toNat → sp.toNat ≤ 47 → 0xEA2 ≤ stackAddr sp ∧ stackAddr sp + 1 ≤ 0xEFF) ∧
    (48 ≤ sp.toNat → sp.toNat ≤ 0xAF → 0xF00 ≤ stackAddr sp ∧ stackAddr sp + 1 ≤ 0xFFF) ∧
    (0xB0 ≤ sp.toNat → 0x1000 ≤ stackAddr sp ∧ stackAddr sp ≤ 0x109E ∧ firstAbove (stackAddrs sp) = some (stackAddr sp))

/-! ## Register loads, ALU, random -/

/-- R232, R233: the immediate forms. 7xkk sets no flag. -/
def Obligations.ImmediateLoadAndAdd : Prop :=
  ∀ (x : Reg) (kk : Byte) s,
    decode (wordXKK 0x6 x kk.toNat) = .instr (.ldI x kk) ∧ decode (wordXKK 0x7 x kk.toNat) = .instr (.addI x kk) ∧
    (∃ t, exec (.ldI x kk) s = .next t ∧ Writes x kk s t) ∧
    (∃ t, exec (.addI x kk) s = .next t ∧ Writes x (BitVec.ofNat 8 ((s.getV x).toNat + kk.toNat)) s t)

/-- R234 to R237: the moves and logic of family 8 write no flag. -/
def Obligations.RegisterMoveAndLogic : Prop :=
  ∀ x y s,
    decode (wordXYN 0x8 x y 0) = .instr (.ldR x y) ∧ decode (wordXYN 0x8 x y 1) = .instr (.or x y) ∧
    decode (wordXYN 0x8 x y 2) = .instr (.and x y) ∧ decode (wordXYN 0x8 x y 3) = .instr (.xor x y) ∧
    (∃ t, exec (.ldR x y) s = .next t ∧ Writes x (s.getV y) s t) ∧
    (∃ t, exec (.or x y) s = .next t ∧ Writes x (BitVec.ofNat 8 ((s.getV x).toNat ||| (s.getV y).toNat)) s t) ∧
    (∃ t, exec (.and x y) s = .next t ∧ Writes x (BitVec.ofNat 8 ((s.getV x).toNat &&& (s.getV y).toNat)) s t) ∧
    (∃ t, exec (.xor x y) s = .next t ∧ Writes x (BitVec.ofNat 8 ((s.getV x).toNat ^^^ (s.getV y).toNat)) s t)

/-- R238, R239, R241: sum and differences modulo 256, VF the carry, the absence of a borrow, and the strict comparison. With
x = F VF ends holding the flag (R231). -/
def Obligations.AddAndSubtractWithFlag : Prop :=
  ∀ x y s,
    decode (wordXYN 0x8 x y 4) = .instr (.addR x y) ∧ decode (wordXYN 0x8 x y 5) = .instr (.sub x y) ∧
    decode (wordXYN 0x8 x y 7) = .instr (.subn x y) ∧
    (∃ t, exec (.addR x y) s = .next t ∧
      WritesWithFlag x (BitVec.ofNat 8 ((s.getV x).toNat + (s.getV y).toNat))
        (if (s.getV x).toNat + (s.getV y).toNat > 255 then 1 else 0) s t) ∧
    (∃ t, exec (.sub x y) s = .next t ∧
      WritesWithFlag x (BitVec.ofNat 8 ((s.getV x).toNat + 256 - (s.getV y).toNat))
        (if (s.getV y).toNat ≤ (s.getV x).toNat then 1 else 0) s t) ∧
    (∃ t, exec (.subn x y) s = .next t ∧
      WritesWithFlag x (BitVec.ofNat 8 ((s.getV y).toNat + 256 - (s.getV x).toNat))
        (if (s.getV y).toNat > (s.getV x).toNat then 1 else 0) s t)

/-- R240, R242: the shifts act on V[x] alone, whatever y is, and VF is the bit shifted out. -/
def Obligations.ShiftsIgnoreY : Prop :=
  ∀ x y s,
    decode (wordXYN 0x8 x y 6) = .instr (.shr x y) ∧ decode (wordXYN 0x8 x y 0xE) = .instr (.shl x y) ∧
    (∃ t, exec (.shr x y) s = .next t ∧
      WritesWithFlag x (BitVec.ofNat 8 ((s.getV x).toNat / 2)) (BitVec.ofNat 8 ((s.getV x).toNat % 2)) s t) ∧
    (∃ t, exec (.shl x y) s = .next t ∧
      WritesWithFlag x (BitVec.ofNat 8 ((s.getV x).toNat * 2)) (BitVec.ofNat 8 ((s.getV x).toNat / 128)) s t)

/-- R243: V[x] <- rnd & kk, for every rnd of the Step event. -/
def Obligations.RandomByteIsMasked : Prop :=
  ∀ (x : Reg) (kk : Byte) s,
    decode (wordXKK 0xC x kk.toNat) = .instr (.rnd x kk) ∧
    (∃ t, exec (.rnd x kk) s = .next t ∧ Writes x (BitVec.ofNat 8 (s.rnd.toNat &&& kk.toNat)) s t)

/-- R244, a summary the spec marks as derived: the same-register cases, for x = y ≠ F and for x = y = F. -/
def Obligations.SameRegisterCases : Prop :=
  (∀ x s, x ≠ 15 →
    (∃ t, exec (.ldR x x) s = .next t ∧ SameBut [.PC] s t) ∧
    (∃ t, exec (.or x x) s = .next t ∧ SameBut [.PC] s t) ∧
    (∃ t, exec (.and x x) s = .next t ∧ SameBut [.PC] s t) ∧
    (∃ t, exec (.xor x x) s = .next t ∧ t.getV x = 0) ∧
    (∃ t, exec (.addR x x) s = .next t ∧ (t.getV x).toNat = 2 * (s.getV x).toNat % 256) ∧
    (∃ t, exec (.sub x x) s = .next t ∧ t.getV x = 0 ∧ t.getV 15 = 1) ∧
    (∃ t, exec (.subn x x) s = .next t ∧ t.getV x = 0 ∧ t.getV 15 = 0)) ∧
  (∀ s,
    (∃ t, exec (.sub 15 15) s = .next t ∧ t.getV 15 = 1) ∧
    (∃ t, exec (.subn 15 15) s = .next t ∧ t.getV 15 = 0) ∧
    (∃ t, exec (.addR 15 15) s = .next t ∧ t.getV 15 = if 2 * (s.getV 15).toNat > 255 then 1 else 0)) ∧
  (∀ y s,
    (∃ t, exec (.addR 15 y) s = .next t ∧
      t.getV 15 = if (s.getV 15).toNat + (s.getV y).toNat > 255 then 1 else 0) ∧
    (∃ t, exec (.sub 15 y) s = .next t ∧ t.getV 15 = if (s.getV y).toNat ≤ (s.getV 15).toNat then 1 else 0) ∧
    (∃ t, exec (.shr 15 y) s = .next t ∧ (t.getV 15).toNat = (s.getV 15).toNat % 2) ∧
    (∃ t, exec (.subn 15 y) s = .next t ∧ t.getV 15 = if (s.getV y).toNat > (s.getV 15).toNat then 1 else 0) ∧
    (∃ t, exec (.shl 15 y) s = .next t ∧ (t.getV 15).toNat = (s.getV 15).toNat / 128))

/-! ## Index register and memory transfers -/

/-- R271, R272, R273: the three instructions that write I. -/
def Obligations.IndexRegisterWrites : Prop :=
  ∀ nnn x s,
    decode (wordNNN 0xA nnn) = .instr (.ldIdx nnn) ∧ decode (wordXKK 0xF x 0x1E) = .instr (.addIdx x) ∧
    decode (wordXKK 0xF x 0x29) = .instr (.ldF x) ∧
    (∃ t, exec (.ldIdx nnn) s = .next t ∧ t.I.toNat = nnn.toNat ∧ t.PC = s.PC + 2 ∧ SameBut [.I, .PC] s t) ∧
    (∃ t, exec (.addIdx x) s = .next t ∧ t.I.toNat = (s.I.toNat + (s.getV x).toNat) % 65536 ∧
      (∀ r, t.getV r = if r = 15 then (if s.I.toNat + (s.getV x).toNat > 0xFFFF then 1 else 0) else s.getV r) ∧
      t.PC = s.PC + 2 ∧ SameBut [.I, .V, .PC] s t) ∧
    (∃ t, exec (.ldF x) s = .next t ∧ t.I.toNat = 5 * (s.getV x).toNat ∧ t.PC = s.PC + 2 ∧ SameBut [.I, .PC] s t)

/-- R274: the three decimal digits at I, I+1, I+2; I is unchanged; the fault and its address. -/
def Obligations.DecimalDigitsStored : Prop :=
  ∀ x s,
    decode (wordXKK 0xF x 0x33) = .instr (.ldB x) ∧
    (s.I.toNat + 2 ≤ 0xFFF →
      ∃ t, exec (.ldB x) s = .next t ∧
        (t.byteAt s.I.toNat).toNat = (s.getV x).toNat / 100 ∧
        (t.byteAt (s.I.toNat + 1)).toNat = (s.getV x).toNat / 10 % 10 ∧
        (t.byteAt (s.I.toNat + 2)).toNat = (s.getV x).toNat % 10 ∧
        (∀ a, a < s.I.toNat ∨ s.I.toNat + 2 < a → t.byteAt a = s.byteAt a) ∧
        t.PC = s.PC + 2 ∧ SameBut [.mem, .PC] s t) ∧
    (0xFFE ≤ s.I.toNat →
      exec (.ldB x) s = .next (s.setFault (some ⟨.writeRange, s.PC, max s.I.toNat 0x1000⟩)))

/-- R275: V0 to Vx to memory I to I+x; I is unchanged; the fault and its address. -/
def Obligations.RegistersStored : Prop :=
  ∀ x s,
    decode (wordXKK 0xF x 0x55) = .instr (.stRegs x) ∧
    (s.I.toNat + x.val ≤ 0xFFF →
      ∃ t, exec (.stRegs x) s = .next t ∧
        (∀ r : Reg, r ≤ x → t.byteAt (s.I.toNat + r.val) = s.getV r) ∧
        (∀ a, a < s.I.toNat ∨ s.I.toNat + x.val < a → t.byteAt a = s.byteAt a) ∧
        t.PC = s.PC + 2 ∧ SameBut [.mem, .PC] s t) ∧
    (0xFFF < s.I.toNat + x.val →
      exec (.stRegs x) s = .next (s.setFault (some ⟨.writeRange, s.PC, max s.I.toNat 0x1000⟩)))

/-- R276: memory I to I+x to V0 to Vx, and no other register; I is unchanged; the fault and its address. -/
def Obligations.RegistersLoaded : Prop :=
  ∀ x s,
    decode (wordXKK 0xF x 0x65) = .instr (.ldRegs x) ∧
    (s.I.toNat + x.val ≤ 0xFFF →
      ∃ t, exec (.ldRegs x) s = .next t ∧
        (∀ r : Reg, t.getV r = if r ≤ x then s.byteAt (s.I.toNat + r.val) else s.getV r) ∧
        t.PC = s.PC + 2 ∧ SameBut [.V, .PC] s t) ∧
    (0xFFF < s.I.toNat + x.val →
      exec (.ldRegs x) s = .next (s.setFault (some ⟨.readRange, s.PC, max s.I.toNat 0x1000⟩)))

/-! ## Display -/

/-- R301: every byte of 0xF00 to 0xFFF becomes 0, no other byte changes, VF is unchanged, `present` is raised. -/
def Obligations.ClearZeroesTheDisplay : Prop :=
  ∀ s, decode 0x00E0 = .instr .cls ∧
    ∃ t, exec .cls s = .next t ∧
      (∀ a, t.byteAt a = if 0xF00 ≤ a ∧ a ≤ 0xFFF then 0 else s.byteAt a) ∧
      t.outputs = .present :: s.outputs ∧ t.PC = s.PC + 2 ∧ SameBut [.mem, .outputs, .PC] s t

/-- R302 to R305 and R307: the draw in full, sprites that overlap the display included. `f r a` is the byte at a after r
rows: row r reads its sprite byte from memory as the rows before it left it and XORs it, shifted, onto its display bytes;
VF is 1 exactly when some row met a set bit; `present` is raised. Where a check fails, the first one that does, in row
order, is the fault recorded and nothing else is written. -/
def Obligations.DrawXorsRowsInOrder : Prop :=
  ∀ x y n s, n < 16 →
    decode (wordXYN 0xD x y n) = .instr (.drw x y n) ∧
    (DrawInRange x y n s →
      ∃ (t : State) (f : Nat → Nat → Byte), exec (.drw x y n) s = .next t ∧
        (∀ a, f 0 a = s.byteAt a) ∧
        (∀ r, r < n → ∀ a, f (r + 1) a = f r a ^^^
          rowMask (f r (s.I.toNat + r)) (0xF00 + ((s.getV y).toNat + r) * 8 + (s.getV x).toNat / 8)
            ((s.getV x).toNat % 8) a) ∧
        (∀ a, t.byteAt a = f n a) ∧
        (∀ r, r ≠ 15 → t.getV r = s.getV r) ∧
        ((t.getV 15 = 1 ∧ ∃ r a, r < n ∧ f r a &&&
            rowMask (f r (s.I.toNat + r)) (0xF00 + ((s.getV y).toNat + r) * 8 + (s.getV x).toNat / 8)
              ((s.getV x).toNat % 8) a ≠ 0) ∨
          (t.getV 15 = 0 ∧ ∀ r a, r < n → f r a &&&
            rowMask (f r (s.I.toNat + r)) (0xF00 + ((s.getV y).toNat + r) * 8 + (s.getV x).toNat / 8)
              ((s.getV x).toNat % 8) a = 0)) ∧
        t.outputs = .present :: s.outputs ∧ t.PC = s.PC + 2 ∧ SameBut [.mem, .V, .outputs, .PC] s t) ∧
    (∀ r a, r < n → (∀ q, q < r → rowFault s.I.toNat (s.getV x).toNat (s.getV y).toNat q = none) →
      rowFault s.I.toNat (s.getV x).toNat (s.getV y).toNat r = some a →
      exec (.drw x y n) s = .next (s.setFault (some ⟨.readRange, s.PC, a⟩)))

/-- The frame of a draw: the bytes stored to are those `rowTargets` names, and they all lie in the display region (R483). -/
def Obligations.DrawTouchesOnlyItsDisplayBytes : Prop :=
  ∀ x y n s t, DrawInRange x y n s → exec (.drw x y n) s = .next t →
    (∀ a, (∀ r, r < n → a ∉ rowTargets (s.getV x) (s.getV y) r) → t.byteAt a = s.byteAt a) ∧
    (∀ r a, r < n → a ∈ rowTargets (s.getV x) (s.getV y) r → 0xF00 ≤ a ∧ a ≤ 0xFFF)

/-- R306, which the spec marks as derived: sprite bit j of row r lands on linear display bit 64·(Y + r) + X + j, by XOR;
every other display bit is unchanged; no coordinate wraps. For a sprite that lies apart from the display bytes the draw
touches. -/
def Obligations.SpriteBitsLandOnLinearDisplayBits : Prop :=
  ∀ x y n s, DrawInRange x y n s → SpriteApart x y n s →
    ∃ t, exec (.drw x y n) s = .next t ∧
      (∀ r j, r < n → j < 8 →
        displayBit t (64 * ((s.getV y).toNat + r) + (s.getV x).toNat + j) =
          (displayBit s (64 * ((s.getV y).toNat + r) + (s.getV x).toNat + j) ^^
            (s.byteAt (s.I.toNat + r)).getLsbD (7 - j))) ∧
      (∀ p, p < 2048 →
        (∀ r j, r < n → j < 8 → p ≠ 64 * ((s.getV y).toNat + r) + (s.getV x).toNat + j) →
        displayBit t p = displayBit s p)

/-- R309, which the spec marks as derived: drawing the same sprite twice restores every byte, and the second collision
flag is 1 if and only if the first draw turned at least one pixel from 0 to 1. -/
def Obligations.DrawingTwiceRestores : Prop :=
  ∀ x y n s t u, DrawInRange x y n s → SpriteApart x y n s → exec (.drw x y n) s = .next t →
    u.mem = t.mem → u.I = s.I → u.getV x = s.getV x → u.getV y = s.getV y →
    ∃ v, exec (.drw x y n) u = .next v ∧ (∀ a, v.byteAt a = s.byteAt a) ∧
      (v.getV 15 = 1 ↔ ∃ p, p < 2048 ∧ displayBit s p = false ∧ displayBit t p = true) ∧
      (v.getV 15 = 0 ∨ v.getV 15 = 1)

/-- R308: with n = 0 nothing is drawn: no memory access, VF = 0, `present` raised, PC + 2; it cannot fault. -/
def Obligations.HeightZeroDrawsNothing : Prop :=
  ∀ x y s, ∃ t, exec (.drw x y 0) s = .next t ∧ (∀ r, t.getV r = if r = 15 then 0 else s.getV r) ∧
    t.outputs = .present :: s.outputs ∧ t.PC = s.PC + 2 ∧ SameBut [.V, .outputs, .PC] s t

/-- R311 and R96: `frame` is the 256 bytes of the display region, and pixel (c, r) is its bit, most significant first,
row-major. -/
def Obligations.FrameShowsTheDisplayRegion : Prop :=
  ∀ s : State, s.frame.length = 256 ∧
    (∀ k, k < 256 → s.frame[k]? = some (s.byteAt (0xF00 + k))) ∧
    (∀ c r, c < 64 → r < 32 →
      (∃ row, s.displayMatrix[r]? = some row ∧ row[c]? = some (s.pixel c r)) ∧
      s.pixel c r = ((s.byteAt (0xF00 + (64 * r + c) / 8)).toNat.testBit (7 - (64 * r + c) % 8)))

/-! ## Keys and timers -/

/-- R341, R342: the key skips read the key's level, change only PC, and fault on an index above 15. -/
def Obligations.KeySkipsReadLevels : Prop :=
  ∀ x s,
    decode (wordXKK 0xE x 0x9E) = .instr (.skp x) ∧ decode (wordXKK 0xE x 0xA1) = .instr (.sknp x) ∧
    (∀ k : Key, (s.getV x).toNat = k.val →
      (∃ t, exec (.skp x) s = .next t ∧ Skips (s.getKey k = true) s t) ∧
      (∃ t, exec (.sknp x) s = .next t ∧ Skips (s.getKey k = false) s t)) ∧
    (15 < (s.getV x).toNat →
      exec (.skp x) s = .next (s.setFault (some ⟨.keyIndex, s.PC, (s.getV x).toNat⟩)) ∧
      exec (.sknp x) s = .next (s.setFault (some ⟨.keyIndex, s.PC, (s.getV x).toNat⟩)))

/-- R343 with R423 and R424: the three rows of Fx0A in the blocking-read state machine. -/
def Obligations.BlockingKeyReadStates : Prop :=
  ∀ x s,
    decode (wordXKK 0xF x 0x0A) = .instr (.ldVxK x) ∧
    (s.kstate = .idle →
      ∃ t, exec (.ldVxK x) s = .next t ∧ t.kstate = .awaiting ∧ t.edge = false ∧ SameBut [.kstate, .edge] s t) ∧
    (s.kstate = .awaiting → s.edge = false → exec (.ldVxK x) s = .next s) ∧
    (s.kstate = .awaiting → s.edge = true →
      ∃ t, exec (.ldVxK x) s = .next t ∧ t.kstate = .idle ∧ t.edge = false ∧
        (∀ r, (t.getV r).toNat = if r = x then s.lastKey.val else (s.getV r).toNat) ∧ t.PC = s.PC + 2 ∧
        SameBut [.kstate, .edge, .V, .PC] s t)

/-- R344, consequences 1 and 2, which the spec marks as derived: at an Fx0A, any number of Step events with no Key event
leave PC and everything but kstate and edge unchanged; after a key-down the next Step advances PC and sets V[x] to that
key's index. -/
def Obligations.KeyWaitRetriesUntilKeyDown : Prop :=
  ∀ x s (rnds : List Byte) k r es, s.ended = false → CanStep s → s.PC.toNat + 1 ≤ 0xFFF →
    decode (wordAtPC s) = .instr (.ldVxK x) → s.kstate = .idle → rnds ≠ [] →
    s.schedule = rnds.map .step ++ .key k true :: .step r :: es →
    (∃ t, Sys2Proof.core.run rnds.length s = .next t ∧ t.kstate = .awaiting ∧ t.edge = false ∧
      SameBut [.kstate, .edge, .host] s t) ∧
    (∃ t, Sys2Proof.core.run (rnds.length + 2) s = .next t ∧ t.PC = s.PC + 2 ∧ (t.getV x).toNat = k.val ∧
      t.kstate = .idle ∧ t.edge = false ∧ t.schedule = es ∧
      (∀ q, q ≠ x → t.getV q = s.getV q) ∧
      SameBut [.V, .PC, .keys, .lastKey, .kstate, .edge, .host] s t)

/-- R345, R346, R347: the timer moves. -/
def Obligations.TimerMoves : Prop :=
  ∀ x s,
    decode (wordXKK 0xF x 0x07) = .instr (.ldVxDt x) ∧ decode (wordXKK 0xF x 0x15) = .instr (.ldDtVx x) ∧
    decode (wordXKK 0xF x 0x18) = .instr (.ldStVx x) ∧
    (∃ t, exec (.ldVxDt x) s = .next t ∧ Writes x s.DT s t) ∧
    (∃ t, exec (.ldDtVx x) s = .next t ∧ t.DT = s.getV x ∧ t.PC = s.PC + 2 ∧ SameBut [.DT, .PC] s t) ∧
    (∃ t, exec (.ldStVx x) s = .next t ∧ t.ST = s.getV x ∧ t.sound = s.getV x ∧ t.PC = s.PC + 2 ∧
      SameBut [.ST, .PC] s t)

/-- R47 and R347: no instruction reads ST. From two states that differ only in ST every instruction answers next states that
differ at most in ST, and there as before unless the instruction is Fx18, which leaves the two equal. So does every step:
what an event does besides counting ST down does not depend on it. -/
def Obligations.SoundTimerIsReadByNoInstruction : Prop :=
  (∀ i s v, ∃ t w, exec i s = .next t ∧ exec i (s.setST v) = .next (t.setST w) ∧
    ((∀ x, i ≠ .ldStVx x) → t.ST = s.ST ∧ w = v) ∧ (∀ x, i = .ldStVx x → w = t.ST)) ∧
  (∀ s v, s.ended = false → ∃ t w, step s = .next t ∧ step (s.setST v) = .next (t.setST w))

/-! ## The whole machine -/

/-- R39 and R40: a V register changes only as a destination, VF also by the flag-writing instructions. -/
def Obligations.OnlyDestinationsAndFlagsWriteV : Prop :=
  ∀ i s t r, exec i s = .next t → t.getV r ≠ s.getV r → isDestination i r ∨ (r = 15 ∧ writesFlag i = true)

/-- R43, R46, R47, R48, R87, R310: the only instructions that write memory, I, SP, the timers, the keyboard state and the
outputs; no instruction writes the key levels, last_key, the phase or the host's side; a fault is the only other write. -/
def Obligations.OnlyListedInstructionsWriteEachPart : Prop :=
  ∀ i s t, exec i s = .next t → SameBut (.V :: .PC :: .fault :: otherParts i) s t

/-- R40: each flag-writing instruction leaves exactly 0 or 1 in VF every time it executes without a fault. -/
def Obligations.FlagWritersLeaveZeroOrOne : Prop :=
  ∀ i s t, writesFlag i = true → faultOf i s = none → exec i s = .next t → t.getV 15 = 0 ∨ t.getV 15 = 1

/-- R45: the next PC of every instruction and of a decode gap; a faulting instruction leaves PC. -/
def Obligations.NextPcTable : Prop :=
  (∀ i s, ∃ t, exec i s = .next t ∧
    (faultOf i s = none → t.PC.toNat = nextPC i s) ∧ (faultOf i s ≠ none → t.PC = s.PC)) ∧
  (∀ w g s, decode w = .gap g → ∃ t, execWord w s = .next t ∧ t.PC.toNat = (s.PC.toNat + 2) % 65536)

/-- R310: `present` is raised once by exactly the steps that execute 00E0 or Dxyn without a fault; a step with its gate
closed, a faulting fetch or a decode gap raises nothing. How the strobe is held is assumption log 5. -/
def Obligations.PresentRaisedByClearAndDrawOnly : Prop :=
  (∀ i s t, exec i s = .next t →
    t.outputs = if presents i = true ∧ faultOf i s = none then .present :: s.outputs else s.outputs) ∧
  (∀ s rnd es t, StepNext rnd es s → step s = .next t →
    ¬ CanStep s ∨ 0xFFF < s.PC.toNat + 1 ∨ (∃ g, decode (wordAtPC s) = .gap g) → t.outputs = s.outputs)

/-- The invariant (R60, R402, R464, R80): it holds at reset. -/
def Obligations.ResetMeetsTheInvariant : Prop := State.reset.Inv

/-- The invariant holds after every event that starts in a state where it holds: canonical memory, a fault record R401
allows, and nothing run before a Load answered ok. -/
def Obligations.EveryStepKeepsTheInvariant : Prop := ∀ s t, s.Inv → step s = .next t → t.Inv

/-- R60, the values the spec gives: zero memory above the font (whose bytes are the parameter FONT), PC, SP, the keyboard,
the phase and the fault record. V, I, DT and ST are left out: their values are the model's (assumption log 1). -/
def Obligations.ResetValues : Prop :=
  (∀ a, a ≤ 0x04F → State.reset.byteAt a = Config.font.getD a 0) ∧
  (∀ a, 0x050 ≤ a → a ≤ 0xFFF → State.reset.byteAt a = 0) ∧
  State.reset.PC = 0x200 ∧ State.reset.SP = 0 ∧ (∀ k, State.reset.getKey k = false) ∧ State.reset.lastKey = 0 ∧
  State.reset.edge = false ∧ State.reset.kstate = .idle ∧ State.reset.phase = .constructed ∧ State.reset.fault = none

/-- R83 and R90 over the canonical form: a write changes only the byte written; every write inside memory keeps the form;
and equal contents are equal data. -/
def Obligations.MemoryIsCanonicalPlainRam : Prop :=
  (∀ m a v c, Memory.read (Memory.write m a v) c = if c = a then v else Memory.read m c) ∧
  (∀ m a v, a ≤ 0xFFF → Memory.wf m = true → Memory.wf (Memory.write m a v) = true) ∧
  (∀ m m', Memory.wf m = true → Memory.wf m' = true → (∀ a, a ≤ 0xFFF → Memory.read m a = Memory.read m' a) → m = m')

/-- R61, which the spec marks as derived: `edge` and `last_key` at reset cannot be observed. Runs from reset and from
reset with any other edge and last_key stay in step, differing at most in a stale edge and key, under every event. -/
def Obligations.StaleEdgeAndKeyAreUnobservable : Prop :=
  (∀ e k, SameUpToStaleKey State.reset ((State.reset.setEdge e).setLastKey k)) ∧
  (∀ s u t, SameUpToStaleKey s u → step s = .next t → ∃ v, step u = .next v ∧ SameUpToStaleKey t v)

/-- R464, which the spec marks as derived; V, I, DT and ST start from State.reset, whatever their values there (assumption
log 1): the state when the first step starts, after any Tick, Key and Step events, a complete Load of at most 3232 bytes,
and any further Tick and Key events. A Step before the Load changes nothing (R34). -/
def Obligations.StateWhenFirstStepStarts : Prop :=
  ∀ (pre post : List Event) (bytes : List Byte) (es : List Event),
    (∀ e ∈ pre, isBeforeLoad e = true) → (∀ e ∈ post, isDeviceEvent e = true) → bytes.length ≤ 3232 →
    ∃ t, Sys2Proof.core.run (pre.length + 1 + post.length)
        (State.reset.setSchedule (pre ++ .load bytes true :: (post ++ es))) = .next t ∧
      (∀ a, a ≤ 0x04F → t.byteAt a = Config.font.getD a 0) ∧
      (∀ a, 0x050 ≤ a → a ≤ 0x1FF → t.byteAt a = 0) ∧
      (∀ j, j < bytes.length → t.byteAt (0x200 + j) = bytes.getD j 0) ∧
      (∀ a, 0x200 + bytes.length ≤ a → a ≤ 0xFFF → t.byteAt a = 0) ∧
      t.PC = 0x200 ∧ t.SP = 0 ∧ t.V = State.reset.V ∧ t.I = State.reset.I ∧
      t.DT.toNat = State.reset.DT.toNat - tickCount (pre ++ post) ∧
      t.ST.toNat = State.reset.ST.toNat - tickCount (pre ++ post) ∧
      (∀ k, t.getKey k = (afterKeys (pre ++ post) State.reset).getKey k) ∧
      t.lastKey = (afterKeys (pre ++ post) State.reset).lastKey ∧
      t.edge = (afterKeys (pre ++ post) State.reset).edge ∧
      t.kstate = .idle ∧ t.phase = .running ∧ t.fault = none ∧ t.ended = false ∧ t.schedule = es

/-- One instance of R93: a word stored by one step is fetched by the next. An Fx55 that stores V0 and V1 over the two
bytes after itself is followed by the instruction those bytes encode. -/
def Obligations.StoredWordIsFetchedByTheNextStep : Prop :=
  ∀ x s rnd rnd' es i, StepNext rnd (.step rnd' :: es) s → CanStep s → 1 ≤ x.val →
    decode (wordAtPC s) = .instr (.stRegs x) → s.I = s.PC + 2 → s.I.toNat + x.val ≤ 0xFFF → s.PC.toNat + 3 ≤ 0xFFF →
    decode (BitVec.ofNat 16 ((s.getV 0).toNat * 256 + (s.getV 1).toNat)) = .instr i →
    ∃ t, step s = .next t ∧ step t = exec i ((t.setSchedule es).setRnd rnd')
end

