-- ==== Sys2Proof/Laws/Decode.lean ====
section
/-! SUPPORT. The fields of a word in each format of R132: what the decoder's field functions read from the words the encoder
builds, and that a word is put together again from its fields. -/

namespace Sys2Proof

@[simp] theorem toFin_regField (x : Reg) : (regField x).toFin = x := rfl
@[simp] theorem regField_fieldX (w : Word) : regField (fieldX w) = w.extractLsb' 8 4 := rfl
@[simp] theorem regField_fieldY (w : Word) : regField (fieldY w) = w.extractLsb' 4 4 := rfl

@[simp] theorem fieldOp_formatNNN (op : BitVec 4) (nnn : Addr12) : fieldOp (formatNNN op nnn) = op := by
  apply BitVec.eq_of_getLsbD_eq
  intro i hi
  interval_cases i <;> simp [fieldOp, formatNNN]

@[simp] theorem fieldNnn_formatNNN (op : BitVec 4) (nnn : Addr12) : fieldNnn (formatNNN op nnn) = nnn := by
  apply BitVec.eq_of_getLsbD_eq
  intro i hi
  interval_cases i <;> simp [fieldNnn, formatNNN]

@[simp] theorem fieldOp_formatXKK (op : BitVec 4) (x : Reg) (kk : Byte) : fieldOp (formatXKK op x kk) = op := by
  apply BitVec.eq_of_getLsbD_eq
  intro i hi
  interval_cases i <;> simp [fieldOp, formatXKK]

@[simp] theorem fieldX_formatXKK (op : BitVec 4) (x : Reg) (kk : Byte) : fieldX (formatXKK op x kk) = x := by
  have h : (formatXKK op x kk).extractLsb' 8 4 = regField x := by
    apply BitVec.eq_of_getLsbD_eq
    intro i hi
    interval_cases i <;> simp [formatXKK]
  rw [fieldX, h, toFin_regField]

@[simp] theorem fieldKk_formatXKK (op : BitVec 4) (x : Reg) (kk : Byte) : fieldKk (formatXKK op x kk) = kk := by
  apply BitVec.eq_of_getLsbD_eq
  intro i hi
  interval_cases i <;> simp [fieldKk, formatXKK]

@[simp] theorem fieldOp_formatXYN (op : BitVec 4) (x y : Reg) (n : BitVec 4) : fieldOp (formatXYN op x y n) = op := by
  apply BitVec.eq_of_getLsbD_eq
  intro i hi
  interval_cases i <;> simp [fieldOp, formatXYN]

@[simp] theorem fieldX_formatXYN (op : BitVec 4) (x y : Reg) (n : BitVec 4) : fieldX (formatXYN op x y n) = x := by
  have h : (formatXYN op x y n).extractLsb' 8 4 = regField x := by
    apply BitVec.eq_of_getLsbD_eq
    intro i hi
    interval_cases i <;> simp [formatXYN]
  rw [fieldX, h, toFin_regField]

@[simp] theorem fieldY_formatXYN (op : BitVec 4) (x y : Reg) (n : BitVec 4) : fieldY (formatXYN op x y n) = y := by
  have h : (formatXYN op x y n).extractLsb' 4 4 = regField y := by
    apply BitVec.eq_of_getLsbD_eq
    intro i hi
    interval_cases i <;> simp [formatXYN]
  rw [fieldY, h, toFin_regField]

@[simp] theorem fieldN_formatXYN (op : BitVec 4) (x y : Reg) (n : BitVec 4) : fieldN (formatXYN op x y n) = n := by
  apply BitVec.eq_of_getLsbD_eq
  intro i hi
  interval_cases i <;> simp [fieldN, formatXYN]

theorem formatNNN_fields (w : Word) : formatNNN (fieldOp w) (fieldNnn w) = w := by
  apply BitVec.eq_of_getLsbD_eq
  intro i hi
  interval_cases i <;> simp [formatNNN, fieldOp, fieldNnn]

theorem formatXKK_fields (w : Word) : formatXKK (fieldOp w) (fieldX w) (fieldKk w) = w := by
  apply BitVec.eq_of_getLsbD_eq
  intro i hi
  interval_cases i <;> simp [formatXKK, fieldOp, fieldKk]

theorem formatXYN_fields (w : Word) : formatXYN (fieldOp w) (fieldX w) (fieldY w) (fieldN w) = w := by
  apply BitVec.eq_of_getLsbD_eq
  intro i hi
  interval_cases i <;> simp [formatXYN, fieldOp, fieldN]

/-! ### The fields of a word as numbers -/

theorem toNat_fieldOp (w : Word) : (fieldOp w).toNat = w.toNat / 0x1000 := by
  simp only [fieldOp, BitVec.extractLsb'_toNat, Nat.shiftRight_eq_div_pow]; omega

theorem toNat_fieldNnn (w : Word) : (fieldNnn w).toNat = w.toNat % 0x1000 := by
  simp [fieldNnn, BitVec.extractLsb'_toNat]

theorem val_fieldX (w : Word) : (fieldX w).val = w.toNat / 0x100 % 16 := by
  simp [fieldX, Nat.shiftRight_eq_div_pow]

theorem val_fieldY (w : Word) : (fieldY w).val = w.toNat / 0x10 % 16 := by
  simp [fieldY, Nat.shiftRight_eq_div_pow]

theorem toNat_fieldKk (w : Word) : (fieldKk w).toNat = w.toNat % 256 := by
  simp [fieldKk, BitVec.extractLsb'_toNat]

theorem toNat_fieldN (w : Word) : (fieldN w).toNat = w.toNat % 16 := by
  simp [fieldN, BitVec.extractLsb'_toNat]

/-! ### The words of each format as numbers (R132) -/

theorem ofNat_eq_formatNNN (op : BitVec 4) (nnn : Addr12) :
    BitVec.ofNat 16 (op.toNat * 0x1000 + nnn.toNat) = formatNNN op nnn := by
  have h := formatNNN_fields (BitVec.ofNat 16 (op.toNat * 0x1000 + nnn.toNat))
  rw [← h]
  congr 1 <;> apply BitVec.eq_of_toNat_eq <;> simp only [toNat_fieldOp, toNat_fieldNnn, BitVec.toNat_ofNat] <;> omega

theorem ofNat_eq_formatXKK (op : BitVec 4) (x : Reg) (kk : Byte) :
    BitVec.ofNat 16 (op.toNat * 0x1000 + x.val * 0x100 + kk.toNat) = formatXKK op x kk := by
  have h := formatXKK_fields (BitVec.ofNat 16 (op.toNat * 0x1000 + x.val * 0x100 + kk.toNat))
  rw [← h]
  congr 1
  · apply BitVec.eq_of_toNat_eq; simp only [toNat_fieldOp, BitVec.toNat_ofNat]; omega
  · apply Fin.ext; simp only [val_fieldX, BitVec.toNat_ofNat]; omega
  · apply BitVec.eq_of_toNat_eq; simp only [toNat_fieldKk, BitVec.toNat_ofNat]; omega

theorem ofNat_eq_formatXYN (op : BitVec 4) (x y : Reg) (n : BitVec 4) :
    BitVec.ofNat 16 (op.toNat * 0x1000 + x.val * 0x100 + y.val * 0x10 + n.toNat) = formatXYN op x y n := by
  have h := formatXYN_fields (BitVec.ofNat 16 (op.toNat * 0x1000 + x.val * 0x100 + y.val * 0x10 + n.toNat))
  rw [← h]
  congr 1
  · apply BitVec.eq_of_toNat_eq; simp only [toNat_fieldOp, BitVec.toNat_ofNat]; omega
  · apply Fin.ext; simp only [val_fieldX, BitVec.toNat_ofNat]; omega
  · apply Fin.ext; simp only [val_fieldY, BitVec.toNat_ofNat]; omega
  · apply BitVec.eq_of_toNat_eq; simp only [toNat_fieldN, BitVec.toNat_ofNat]; omega

/-! ### The decoder, one family at a time (R134) -/

/-- Which clause of R139 a word falls under, by its top nibble. -/
theorem decode_cases (w : Word) :
    (fieldOp w = 0x0 ∧ decode w = decodeSystem w) ∨
    (fieldOp w = 0x1 ∧ decode w = .instr (.jp (fieldNnn w))) ∨
    (fieldOp w = 0x2 ∧ decode w = .instr (.call (fieldNnn w))) ∨
    (fieldOp w = 0x3 ∧ decode w = .instr (.seI (fieldX w) (fieldKk w))) ∨
    (fieldOp w = 0x4 ∧ decode w = .instr (.sneI (fieldX w) (fieldKk w))) ∨
    (fieldOp w = 0x5 ∧
      decode w = if fieldN w = 0 then .instr (.seR (fieldX w) (fieldY w)) else .gap .skipEqual) ∨
    (fieldOp w = 0x6 ∧ decode w = .instr (.ldI (fieldX w) (fieldKk w))) ∨
    (fieldOp w = 0x7 ∧ decode w = .instr (.addI (fieldX w) (fieldKk w))) ∨
    (fieldOp w = 0x8 ∧ decode w = decodeAlu (fieldX w) (fieldY w) (fieldN w)) ∨
    (fieldOp w = 0x9 ∧
      decode w = if fieldN w = 0 then .instr (.sneR (fieldX w) (fieldY w)) else .gap .skipNotEqual) ∨
    (fieldOp w = 0xA ∧ decode w = .instr (.ldIdx (fieldNnn w))) ∨
    (fieldOp w = 0xB ∧ decode w = .instr (.jpV0 (fieldNnn w))) ∨
    (fieldOp w = 0xC ∧ decode w = .instr (.rnd (fieldX w) (fieldKk w))) ∨
    (fieldOp w = 0xD ∧ decode w = .instr (.drw (fieldX w) (fieldY w) (fieldN w).toNat)) ∨
    (fieldOp w = 0xE ∧ decode w = decodeKeys (fieldX w) (fieldKk w)) ∨
    (fieldOp w = 0xF ∧ decode w = decodeMisc (fieldX w) (fieldKk w)) := by
  have hlt := (fieldOp w).isLt
  have hop : fieldOp w = BitVec.ofNat 4 (fieldOp w).toNat := by simp
  unfold decode
  generalize (fieldOp w).toNat = k at *
  interval_cases k <;> simp [hop]

end Sys2Proof
end

