-- ==== Sys2Proof/Laws/State.lean ====
section
/-! SUPPORT. What each update of State does to each field, true by rfl, so that no later proof unfolds an update; and reading a
register, a key or a byte of memory after an update. -/

namespace Sys2Proof.Machine.State

/-! ### setMem -/

@[simp] theorem setMem_mem (s : State) (m : Memory) : (s.setMem m).mem = m := rfl
@[simp] theorem setMem_V (s : State) (m : Memory) : (s.setMem m).V = s.V := rfl
@[simp] theorem setMem_I (s : State) (m : Memory) : (s.setMem m).I = s.I := rfl
@[simp] theorem setMem_PC (s : State) (m : Memory) : (s.setMem m).PC = s.PC := rfl
@[simp] theorem setMem_SP (s : State) (m : Memory) : (s.setMem m).SP = s.SP := rfl
@[simp] theorem setMem_DT (s : State) (m : Memory) : (s.setMem m).DT = s.DT := rfl
@[simp] theorem setMem_ST (s : State) (m : Memory) : (s.setMem m).ST = s.ST := rfl
@[simp] theorem setMem_keys (s : State) (m : Memory) : (s.setMem m).keys = s.keys := rfl
@[simp] theorem setMem_lastKey (s : State) (m : Memory) : (s.setMem m).lastKey = s.lastKey := rfl
@[simp] theorem setMem_edge (s : State) (m : Memory) : (s.setMem m).edge = s.edge := rfl
@[simp] theorem setMem_kstate (s : State) (m : Memory) : (s.setMem m).kstate = s.kstate := rfl
@[simp] theorem setMem_phase (s : State) (m : Memory) : (s.setMem m).phase = s.phase := rfl
@[simp] theorem setMem_fault (s : State) (m : Memory) : (s.setMem m).fault = s.fault := rfl
@[simp] theorem setMem_schedule (s : State) (m : Memory) : (s.setMem m).schedule = s.schedule := rfl
@[simp] theorem setMem_rnd (s : State) (m : Memory) : (s.setMem m).rnd = s.rnd := rfl
@[simp] theorem setMem_rndCount (s : State) (m : Memory) : (s.setMem m).rndCount = s.rndCount := rfl
@[simp] theorem setMem_outputs (s : State) (m : Memory) : (s.setMem m).outputs = s.outputs := rfl
@[simp] theorem setMem_ended (s : State) (m : Memory) : (s.setMem m).ended = s.ended := rfl
@[simp] theorem getV_setMem (s : State) (m : Memory) (r : Reg) : (s.setMem m).getV r = s.getV r := rfl
@[simp] theorem getKey_setMem (s : State) (m : Memory) (j : Key) : (s.setMem m).getKey j = s.getKey j := rfl

/-! ### setV -/

@[simp] theorem setV_mem (s : State) (x : Reg) (b : Byte) : (s.setV x b).mem = s.mem := rfl
@[simp] theorem setV_V (s : State) (x : Reg) (b : Byte) : (s.setV x b).V = s.V.set x b := rfl
@[simp] theorem setV_I (s : State) (x : Reg) (b : Byte) : (s.setV x b).I = s.I := rfl
@[simp] theorem setV_PC (s : State) (x : Reg) (b : Byte) : (s.setV x b).PC = s.PC := rfl
@[simp] theorem setV_SP (s : State) (x : Reg) (b : Byte) : (s.setV x b).SP = s.SP := rfl
@[simp] theorem setV_DT (s : State) (x : Reg) (b : Byte) : (s.setV x b).DT = s.DT := rfl
@[simp] theorem setV_ST (s : State) (x : Reg) (b : Byte) : (s.setV x b).ST = s.ST := rfl
@[simp] theorem setV_keys (s : State) (x : Reg) (b : Byte) : (s.setV x b).keys = s.keys := rfl
@[simp] theorem setV_lastKey (s : State) (x : Reg) (b : Byte) : (s.setV x b).lastKey = s.lastKey := rfl
@[simp] theorem setV_edge (s : State) (x : Reg) (b : Byte) : (s.setV x b).edge = s.edge := rfl
@[simp] theorem setV_kstate (s : State) (x : Reg) (b : Byte) : (s.setV x b).kstate = s.kstate := rfl
@[simp] theorem setV_phase (s : State) (x : Reg) (b : Byte) : (s.setV x b).phase = s.phase := rfl
@[simp] theorem setV_fault (s : State) (x : Reg) (b : Byte) : (s.setV x b).fault = s.fault := rfl
@[simp] theorem setV_schedule (s : State) (x : Reg) (b : Byte) : (s.setV x b).schedule = s.schedule := rfl
@[simp] theorem setV_rnd (s : State) (x : Reg) (b : Byte) : (s.setV x b).rnd = s.rnd := rfl
@[simp] theorem setV_rndCount (s : State) (x : Reg) (b : Byte) : (s.setV x b).rndCount = s.rndCount := rfl
@[simp] theorem setV_outputs (s : State) (x : Reg) (b : Byte) : (s.setV x b).outputs = s.outputs := rfl
@[simp] theorem setV_ended (s : State) (x : Reg) (b : Byte) : (s.setV x b).ended = s.ended := rfl
@[simp] theorem getKey_setV (s : State) (x : Reg) (b : Byte) (j : Key) : (s.setV x b).getKey j = s.getKey j := rfl
@[simp] theorem byteAt_setV (s : State) (x : Reg) (b : Byte) (a : Nat) : (s.setV x b).byteAt a = s.byteAt a := rfl

/-! ### setI -/

@[simp] theorem setI_mem (s : State) (w : Word) : (s.setI w).mem = s.mem := rfl
@[simp] theorem setI_V (s : State) (w : Word) : (s.setI w).V = s.V := rfl
@[simp] theorem setI_I (s : State) (w : Word) : (s.setI w).I = w := rfl
@[simp] theorem setI_PC (s : State) (w : Word) : (s.setI w).PC = s.PC := rfl
@[simp] theorem setI_SP (s : State) (w : Word) : (s.setI w).SP = s.SP := rfl
@[simp] theorem setI_DT (s : State) (w : Word) : (s.setI w).DT = s.DT := rfl
@[simp] theorem setI_ST (s : State) (w : Word) : (s.setI w).ST = s.ST := rfl
@[simp] theorem setI_keys (s : State) (w : Word) : (s.setI w).keys = s.keys := rfl
@[simp] theorem setI_lastKey (s : State) (w : Word) : (s.setI w).lastKey = s.lastKey := rfl
@[simp] theorem setI_edge (s : State) (w : Word) : (s.setI w).edge = s.edge := rfl
@[simp] theorem setI_kstate (s : State) (w : Word) : (s.setI w).kstate = s.kstate := rfl
@[simp] theorem setI_phase (s : State) (w : Word) : (s.setI w).phase = s.phase := rfl
@[simp] theorem setI_fault (s : State) (w : Word) : (s.setI w).fault = s.fault := rfl
@[simp] theorem setI_schedule (s : State) (w : Word) : (s.setI w).schedule = s.schedule := rfl
@[simp] theorem setI_rnd (s : State) (w : Word) : (s.setI w).rnd = s.rnd := rfl
@[simp] theorem setI_rndCount (s : State) (w : Word) : (s.setI w).rndCount = s.rndCount := rfl
@[simp] theorem setI_outputs (s : State) (w : Word) : (s.setI w).outputs = s.outputs := rfl
@[simp] theorem setI_ended (s : State) (w : Word) : (s.setI w).ended = s.ended := rfl
@[simp] theorem getV_setI (s : State) (w : Word) (r : Reg) : (s.setI w).getV r = s.getV r := rfl
@[simp] theorem getKey_setI (s : State) (w : Word) (j : Key) : (s.setI w).getKey j = s.getKey j := rfl
@[simp] theorem byteAt_setI (s : State) (w : Word) (a : Nat) : (s.setI w).byteAt a = s.byteAt a := rfl

/-! ### setPC -/

@[simp] theorem setPC_mem (s : State) (w : Word) : (s.setPC w).mem = s.mem := rfl
@[simp] theorem setPC_V (s : State) (w : Word) : (s.setPC w).V = s.V := rfl
@[simp] theorem setPC_I (s : State) (w : Word) : (s.setPC w).I = s.I := rfl
@[simp] theorem setPC_PC (s : State) (w : Word) : (s.setPC w).PC = w := rfl
@[simp] theorem setPC_SP (s : State) (w : Word) : (s.setPC w).SP = s.SP := rfl
@[simp] theorem setPC_DT (s : State) (w : Word) : (s.setPC w).DT = s.DT := rfl
@[simp] theorem setPC_ST (s : State) (w : Word) : (s.setPC w).ST = s.ST := rfl
@[simp] theorem setPC_keys (s : State) (w : Word) : (s.setPC w).keys = s.keys := rfl
@[simp] theorem setPC_lastKey (s : State) (w : Word) : (s.setPC w).lastKey = s.lastKey := rfl
@[simp] theorem setPC_edge (s : State) (w : Word) : (s.setPC w).edge = s.edge := rfl
@[simp] theorem setPC_kstate (s : State) (w : Word) : (s.setPC w).kstate = s.kstate := rfl
@[simp] theorem setPC_phase (s : State) (w : Word) : (s.setPC w).phase = s.phase := rfl
@[simp] theorem setPC_fault (s : State) (w : Word) : (s.setPC w).fault = s.fault := rfl
@[simp] theorem setPC_schedule (s : State) (w : Word) : (s.setPC w).schedule = s.schedule := rfl
@[simp] theorem setPC_rnd (s : State) (w : Word) : (s.setPC w).rnd = s.rnd := rfl
@[simp] theorem setPC_rndCount (s : State) (w : Word) : (s.setPC w).rndCount = s.rndCount := rfl
@[simp] theorem setPC_outputs (s : State) (w : Word) : (s.setPC w).outputs = s.outputs := rfl
@[simp] theorem setPC_ended (s : State) (w : Word) : (s.setPC w).ended = s.ended := rfl
@[simp] theorem getV_setPC (s : State) (w : Word) (r : Reg) : (s.setPC w).getV r = s.getV r := rfl
@[simp] theorem getKey_setPC (s : State) (w : Word) (j : Key) : (s.setPC w).getKey j = s.getKey j := rfl
@[simp] theorem byteAt_setPC (s : State) (w : Word) (a : Nat) : (s.setPC w).byteAt a = s.byteAt a := rfl

/-! ### setSP -/

@[simp] theorem setSP_mem (s : State) (b : Byte) : (s.setSP b).mem = s.mem := rfl
@[simp] theorem setSP_V (s : State) (b : Byte) : (s.setSP b).V = s.V := rfl
@[simp] theorem setSP_I (s : State) (b : Byte) : (s.setSP b).I = s.I := rfl
@[simp] theorem setSP_PC (s : State) (b : Byte) : (s.setSP b).PC = s.PC := rfl
@[simp] theorem setSP_SP (s : State) (b : Byte) : (s.setSP b).SP = b := rfl
@[simp] theorem setSP_DT (s : State) (b : Byte) : (s.setSP b).DT = s.DT := rfl
@[simp] theorem setSP_ST (s : State) (b : Byte) : (s.setSP b).ST = s.ST := rfl
@[simp] theorem setSP_keys (s : State) (b : Byte) : (s.setSP b).keys = s.keys := rfl
@[simp] theorem setSP_lastKey (s : State) (b : Byte) : (s.setSP b).lastKey = s.lastKey := rfl
@[simp] theorem setSP_edge (s : State) (b : Byte) : (s.setSP b).edge = s.edge := rfl
@[simp] theorem setSP_kstate (s : State) (b : Byte) : (s.setSP b).kstate = s.kstate := rfl
@[simp] theorem setSP_phase (s : State) (b : Byte) : (s.setSP b).phase = s.phase := rfl
@[simp] theorem setSP_fault (s : State) (b : Byte) : (s.setSP b).fault = s.fault := rfl
@[simp] theorem setSP_schedule (s : State) (b : Byte) : (s.setSP b).schedule = s.schedule := rfl
@[simp] theorem setSP_rnd (s : State) (b : Byte) : (s.setSP b).rnd = s.rnd := rfl
@[simp] theorem setSP_rndCount (s : State) (b : Byte) : (s.setSP b).rndCount = s.rndCount := rfl
@[simp] theorem setSP_outputs (s : State) (b : Byte) : (s.setSP b).outputs = s.outputs := rfl
@[simp] theorem setSP_ended (s : State) (b : Byte) : (s.setSP b).ended = s.ended := rfl
@[simp] theorem getV_setSP (s : State) (b : Byte) (r : Reg) : (s.setSP b).getV r = s.getV r := rfl
@[simp] theorem getKey_setSP (s : State) (b : Byte) (j : Key) : (s.setSP b).getKey j = s.getKey j := rfl
@[simp] theorem byteAt_setSP (s : State) (b : Byte) (a : Nat) : (s.setSP b).byteAt a = s.byteAt a := rfl

/-! ### setDT -/

@[simp] theorem setDT_mem (s : State) (b : Byte) : (s.setDT b).mem = s.mem := rfl
@[simp] theorem setDT_V (s : State) (b : Byte) : (s.setDT b).V = s.V := rfl
@[simp] theorem setDT_I (s : State) (b : Byte) : (s.setDT b).I = s.I := rfl
@[simp] theorem setDT_PC (s : State) (b : Byte) : (s.setDT b).PC = s.PC := rfl
@[simp] theorem setDT_SP (s : State) (b : Byte) : (s.setDT b).SP = s.SP := rfl
@[simp] theorem setDT_DT (s : State) (b : Byte) : (s.setDT b).DT = b := rfl
@[simp] theorem setDT_ST (s : State) (b : Byte) : (s.setDT b).ST = s.ST := rfl
@[simp] theorem setDT_keys (s : State) (b : Byte) : (s.setDT b).keys = s.keys := rfl
@[simp] theorem setDT_lastKey (s : State) (b : Byte) : (s.setDT b).lastKey = s.lastKey := rfl
@[simp] theorem setDT_edge (s : State) (b : Byte) : (s.setDT b).edge = s.edge := rfl
@[simp] theorem setDT_kstate (s : State) (b : Byte) : (s.setDT b).kstate = s.kstate := rfl
@[simp] theorem setDT_phase (s : State) (b : Byte) : (s.setDT b).phase = s.phase := rfl
@[simp] theorem setDT_fault (s : State) (b : Byte) : (s.setDT b).fault = s.fault := rfl
@[simp] theorem setDT_schedule (s : State) (b : Byte) : (s.setDT b).schedule = s.schedule := rfl
@[simp] theorem setDT_rnd (s : State) (b : Byte) : (s.setDT b).rnd = s.rnd := rfl
@[simp] theorem setDT_rndCount (s : State) (b : Byte) : (s.setDT b).rndCount = s.rndCount := rfl
@[simp] theorem setDT_outputs (s : State) (b : Byte) : (s.setDT b).outputs = s.outputs := rfl
@[simp] theorem setDT_ended (s : State) (b : Byte) : (s.setDT b).ended = s.ended := rfl
@[simp] theorem getV_setDT (s : State) (b : Byte) (r : Reg) : (s.setDT b).getV r = s.getV r := rfl
@[simp] theorem getKey_setDT (s : State) (b : Byte) (j : Key) : (s.setDT b).getKey j = s.getKey j := rfl
@[simp] theorem byteAt_setDT (s : State) (b : Byte) (a : Nat) : (s.setDT b).byteAt a = s.byteAt a := rfl

/-! ### setST -/

@[simp] theorem setST_mem (s : State) (b : Byte) : (s.setST b).mem = s.mem := rfl
@[simp] theorem setST_V (s : State) (b : Byte) : (s.setST b).V = s.V := rfl
@[simp] theorem setST_I (s : State) (b : Byte) : (s.setST b).I = s.I := rfl
@[simp] theorem setST_PC (s : State) (b : Byte) : (s.setST b).PC = s.PC := rfl
@[simp] theorem setST_SP (s : State) (b : Byte) : (s.setST b).SP = s.SP := rfl
@[simp] theorem setST_DT (s : State) (b : Byte) : (s.setST b).DT = s.DT := rfl
@[simp] theorem setST_ST (s : State) (b : Byte) : (s.setST b).ST = b := rfl
@[simp] theorem setST_keys (s : State) (b : Byte) : (s.setST b).keys = s.keys := rfl
@[simp] theorem setST_lastKey (s : State) (b : Byte) : (s.setST b).lastKey = s.lastKey := rfl
@[simp] theorem setST_edge (s : State) (b : Byte) : (s.setST b).edge = s.edge := rfl
@[simp] theorem setST_kstate (s : State) (b : Byte) : (s.setST b).kstate = s.kstate := rfl
@[simp] theorem setST_phase (s : State) (b : Byte) : (s.setST b).phase = s.phase := rfl
@[simp] theorem setST_fault (s : State) (b : Byte) : (s.setST b).fault = s.fault := rfl
@[simp] theorem setST_schedule (s : State) (b : Byte) : (s.setST b).schedule = s.schedule := rfl
@[simp] theorem setST_rnd (s : State) (b : Byte) : (s.setST b).rnd = s.rnd := rfl
@[simp] theorem setST_rndCount (s : State) (b : Byte) : (s.setST b).rndCount = s.rndCount := rfl
@[simp] theorem setST_outputs (s : State) (b : Byte) : (s.setST b).outputs = s.outputs := rfl
@[simp] theorem setST_ended (s : State) (b : Byte) : (s.setST b).ended = s.ended := rfl
@[simp] theorem getV_setST (s : State) (b : Byte) (r : Reg) : (s.setST b).getV r = s.getV r := rfl
@[simp] theorem getKey_setST (s : State) (b : Byte) (j : Key) : (s.setST b).getKey j = s.getKey j := rfl
@[simp] theorem byteAt_setST (s : State) (b : Byte) (a : Nat) : (s.setST b).byteAt a = s.byteAt a := rfl

/-! ### setKey -/

@[simp] theorem setKey_mem (s : State) (k : Key) (d : Bool) : (s.setKey k d).mem = s.mem := rfl
@[simp] theorem setKey_V (s : State) (k : Key) (d : Bool) : (s.setKey k d).V = s.V := rfl
@[simp] theorem setKey_I (s : State) (k : Key) (d : Bool) : (s.setKey k d).I = s.I := rfl
@[simp] theorem setKey_PC (s : State) (k : Key) (d : Bool) : (s.setKey k d).PC = s.PC := rfl
@[simp] theorem setKey_SP (s : State) (k : Key) (d : Bool) : (s.setKey k d).SP = s.SP := rfl
@[simp] theorem setKey_DT (s : State) (k : Key) (d : Bool) : (s.setKey k d).DT = s.DT := rfl
@[simp] theorem setKey_ST (s : State) (k : Key) (d : Bool) : (s.setKey k d).ST = s.ST := rfl
@[simp] theorem setKey_keys (s : State) (k : Key) (d : Bool) : (s.setKey k d).keys = s.keys.set k d := rfl
@[simp] theorem setKey_lastKey (s : State) (k : Key) (d : Bool) : (s.setKey k d).lastKey = s.lastKey := rfl
@[simp] theorem setKey_edge (s : State) (k : Key) (d : Bool) : (s.setKey k d).edge = s.edge := rfl
@[simp] theorem setKey_kstate (s : State) (k : Key) (d : Bool) : (s.setKey k d).kstate = s.kstate := rfl
@[simp] theorem setKey_phase (s : State) (k : Key) (d : Bool) : (s.setKey k d).phase = s.phase := rfl
@[simp] theorem setKey_fault (s : State) (k : Key) (d : Bool) : (s.setKey k d).fault = s.fault := rfl
@[simp] theorem setKey_schedule (s : State) (k : Key) (d : Bool) : (s.setKey k d).schedule = s.schedule := rfl
@[simp] theorem setKey_rnd (s : State) (k : Key) (d : Bool) : (s.setKey k d).rnd = s.rnd := rfl
@[simp] theorem setKey_rndCount (s : State) (k : Key) (d : Bool) : (s.setKey k d).rndCount = s.rndCount := rfl
@[simp] theorem setKey_outputs (s : State) (k : Key) (d : Bool) : (s.setKey k d).outputs = s.outputs := rfl
@[simp] theorem setKey_ended (s : State) (k : Key) (d : Bool) : (s.setKey k d).ended = s.ended := rfl
@[simp] theorem getV_setKey (s : State) (k : Key) (d : Bool) (r : Reg) : (s.setKey k d).getV r = s.getV r := rfl
@[simp] theorem byteAt_setKey (s : State) (k : Key) (d : Bool) (a : Nat) : (s.setKey k d).byteAt a = s.byteAt a := rfl

/-! ### setLastKey -/

@[simp] theorem setLastKey_mem (s : State) (k : Key) : (s.setLastKey k).mem = s.mem := rfl
@[simp] theorem setLastKey_V (s : State) (k : Key) : (s.setLastKey k).V = s.V := rfl
@[simp] theorem setLastKey_I (s : State) (k : Key) : (s.setLastKey k).I = s.I := rfl
@[simp] theorem setLastKey_PC (s : State) (k : Key) : (s.setLastKey k).PC = s.PC := rfl
@[simp] theorem setLastKey_SP (s : State) (k : Key) : (s.setLastKey k).SP = s.SP := rfl
@[simp] theorem setLastKey_DT (s : State) (k : Key) : (s.setLastKey k).DT = s.DT := rfl
@[simp] theorem setLastKey_ST (s : State) (k : Key) : (s.setLastKey k).ST = s.ST := rfl
@[simp] theorem setLastKey_keys (s : State) (k : Key) : (s.setLastKey k).keys = s.keys := rfl
@[simp] theorem setLastKey_lastKey (s : State) (k : Key) : (s.setLastKey k).lastKey = k := rfl
@[simp] theorem setLastKey_edge (s : State) (k : Key) : (s.setLastKey k).edge = s.edge := rfl
@[simp] theorem setLastKey_kstate (s : State) (k : Key) : (s.setLastKey k).kstate = s.kstate := rfl
@[simp] theorem setLastKey_phase (s : State) (k : Key) : (s.setLastKey k).phase = s.phase := rfl
@[simp] theorem setLastKey_fault (s : State) (k : Key) : (s.setLastKey k).fault = s.fault := rfl
@[simp] theorem setLastKey_schedule (s : State) (k : Key) : (s.setLastKey k).schedule = s.schedule := rfl
@[simp] theorem setLastKey_rnd (s : State) (k : Key) : (s.setLastKey k).rnd = s.rnd := rfl
@[simp] theorem setLastKey_rndCount (s : State) (k : Key) : (s.setLastKey k).rndCount = s.rndCount := rfl
@[simp] theorem setLastKey_outputs (s : State) (k : Key) : (s.setLastKey k).outputs = s.outputs := rfl
@[simp] theorem setLastKey_ended (s : State) (k : Key) : (s.setLastKey k).ended = s.ended := rfl
@[simp] theorem getV_setLastKey (s : State) (k : Key) (r : Reg) : (s.setLastKey k).getV r = s.getV r := rfl
@[simp] theorem getKey_setLastKey (s : State) (k : Key) (j : Key) : (s.setLastKey k).getKey j = s.getKey j := rfl
@[simp] theorem byteAt_setLastKey (s : State) (k : Key) (a : Nat) : (s.setLastKey k).byteAt a = s.byteAt a := rfl

/-! ### setEdge -/

@[simp] theorem setEdge_mem (s : State) (b : Bool) : (s.setEdge b).mem = s.mem := rfl
@[simp] theorem setEdge_V (s : State) (b : Bool) : (s.setEdge b).V = s.V := rfl
@[simp] theorem setEdge_I (s : State) (b : Bool) : (s.setEdge b).I = s.I := rfl
@[simp] theorem setEdge_PC (s : State) (b : Bool) : (s.setEdge b).PC = s.PC := rfl
@[simp] theorem setEdge_SP (s : State) (b : Bool) : (s.setEdge b).SP = s.SP := rfl
@[simp] theorem setEdge_DT (s : State) (b : Bool) : (s.setEdge b).DT = s.DT := rfl
@[simp] theorem setEdge_ST (s : State) (b : Bool) : (s.setEdge b).ST = s.ST := rfl
@[simp] theorem setEdge_keys (s : State) (b : Bool) : (s.setEdge b).keys = s.keys := rfl
@[simp] theorem setEdge_lastKey (s : State) (b : Bool) : (s.setEdge b).lastKey = s.lastKey := rfl
@[simp] theorem setEdge_edge (s : State) (b : Bool) : (s.setEdge b).edge = b := rfl
@[simp] theorem setEdge_kstate (s : State) (b : Bool) : (s.setEdge b).kstate = s.kstate := rfl
@[simp] theorem setEdge_phase (s : State) (b : Bool) : (s.setEdge b).phase = s.phase := rfl
@[simp] theorem setEdge_fault (s : State) (b : Bool) : (s.setEdge b).fault = s.fault := rfl
@[simp] theorem setEdge_schedule (s : State) (b : Bool) : (s.setEdge b).schedule = s.schedule := rfl
@[simp] theorem setEdge_rnd (s : State) (b : Bool) : (s.setEdge b).rnd = s.rnd := rfl
@[simp] theorem setEdge_rndCount (s : State) (b : Bool) : (s.setEdge b).rndCount = s.rndCount := rfl
@[simp] theorem setEdge_outputs (s : State) (b : Bool) : (s.setEdge b).outputs = s.outputs := rfl
@[simp] theorem setEdge_ended (s : State) (b : Bool) : (s.setEdge b).ended = s.ended := rfl
@[simp] theorem getV_setEdge (s : State) (b : Bool) (r : Reg) : (s.setEdge b).getV r = s.getV r := rfl
@[simp] theorem getKey_setEdge (s : State) (b : Bool) (j : Key) : (s.setEdge b).getKey j = s.getKey j := rfl
@[simp] theorem byteAt_setEdge (s : State) (b : Bool) (a : Nat) : (s.setEdge b).byteAt a = s.byteAt a := rfl

/-! ### setKstate -/

@[simp] theorem setKstate_mem (s : State) (k : KState) : (s.setKstate k).mem = s.mem := rfl
@[simp] theorem setKstate_V (s : State) (k : KState) : (s.setKstate k).V = s.V := rfl
@[simp] theorem setKstate_I (s : State) (k : KState) : (s.setKstate k).I = s.I := rfl
@[simp] theorem setKstate_PC (s : State) (k : KState) : (s.setKstate k).PC = s.PC := rfl
@[simp] theorem setKstate_SP (s : State) (k : KState) : (s.setKstate k).SP = s.SP := rfl
@[simp] theorem setKstate_DT (s : State) (k : KState) : (s.setKstate k).DT = s.DT := rfl
@[simp] theorem setKstate_ST (s : State) (k : KState) : (s.setKstate k).ST = s.ST := rfl
@[simp] theorem setKstate_keys (s : State) (k : KState) : (s.setKstate k).keys = s.keys := rfl
@[simp] theorem setKstate_lastKey (s : State) (k : KState) : (s.setKstate k).lastKey = s.lastKey := rfl
@[simp] theorem setKstate_edge (s : State) (k : KState) : (s.setKstate k).edge = s.edge := rfl
@[simp] theorem setKstate_kstate (s : State) (k : KState) : (s.setKstate k).kstate = k := rfl
@[simp] theorem setKstate_phase (s : State) (k : KState) : (s.setKstate k).phase = s.phase := rfl
@[simp] theorem setKstate_fault (s : State) (k : KState) : (s.setKstate k).fault = s.fault := rfl
@[simp] theorem setKstate_schedule (s : State) (k : KState) : (s.setKstate k).schedule = s.schedule := rfl
@[simp] theorem setKstate_rnd (s : State) (k : KState) : (s.setKstate k).rnd = s.rnd := rfl
@[simp] theorem setKstate_rndCount (s : State) (k : KState) : (s.setKstate k).rndCount = s.rndCount := rfl
@[simp] theorem setKstate_outputs (s : State) (k : KState) : (s.setKstate k).outputs = s.outputs := rfl
@[simp] theorem setKstate_ended (s : State) (k : KState) : (s.setKstate k).ended = s.ended := rfl
@[simp] theorem getV_setKstate (s : State) (k : KState) (r : Reg) : (s.setKstate k).getV r = s.getV r := rfl
@[simp] theorem getKey_setKstate (s : State) (k : KState) (j : Key) : (s.setKstate k).getKey j = s.getKey j := rfl
@[simp] theorem byteAt_setKstate (s : State) (k : KState) (a : Nat) : (s.setKstate k).byteAt a = s.byteAt a := rfl

/-! ### setPhase -/

@[simp] theorem setPhase_mem (s : State) (p : Phase) : (s.setPhase p).mem = s.mem := rfl
@[simp] theorem setPhase_V (s : State) (p : Phase) : (s.setPhase p).V = s.V := rfl
@[simp] theorem setPhase_I (s : State) (p : Phase) : (s.setPhase p).I = s.I := rfl
@[simp] theorem setPhase_PC (s : State) (p : Phase) : (s.setPhase p).PC = s.PC := rfl
@[simp] theorem setPhase_SP (s : State) (p : Phase) : (s.setPhase p).SP = s.SP := rfl
@[simp] theorem setPhase_DT (s : State) (p : Phase) : (s.setPhase p).DT = s.DT := rfl
@[simp] theorem setPhase_ST (s : State) (p : Phase) : (s.setPhase p).ST = s.ST := rfl
@[simp] theorem setPhase_keys (s : State) (p : Phase) : (s.setPhase p).keys = s.keys := rfl
@[simp] theorem setPhase_lastKey (s : State) (p : Phase) : (s.setPhase p).lastKey = s.lastKey := rfl
@[simp] theorem setPhase_edge (s : State) (p : Phase) : (s.setPhase p).edge = s.edge := rfl
@[simp] theorem setPhase_kstate (s : State) (p : Phase) : (s.setPhase p).kstate = s.kstate := rfl
@[simp] theorem setPhase_phase (s : State) (p : Phase) : (s.setPhase p).phase = p := rfl
@[simp] theorem setPhase_fault (s : State) (p : Phase) : (s.setPhase p).fault = s.fault := rfl
@[simp] theorem setPhase_schedule (s : State) (p : Phase) : (s.setPhase p).schedule = s.schedule := rfl
@[simp] theorem setPhase_rnd (s : State) (p : Phase) : (s.setPhase p).rnd = s.rnd := rfl
@[simp] theorem setPhase_rndCount (s : State) (p : Phase) : (s.setPhase p).rndCount = s.rndCount := rfl
@[simp] theorem setPhase_outputs (s : State) (p : Phase) : (s.setPhase p).outputs = s.outputs := rfl
@[simp] theorem setPhase_ended (s : State) (p : Phase) : (s.setPhase p).ended = s.ended := rfl
@[simp] theorem getV_setPhase (s : State) (p : Phase) (r : Reg) : (s.setPhase p).getV r = s.getV r := rfl
@[simp] theorem getKey_setPhase (s : State) (p : Phase) (j : Key) : (s.setPhase p).getKey j = s.getKey j := rfl
@[simp] theorem byteAt_setPhase (s : State) (p : Phase) (a : Nat) : (s.setPhase p).byteAt a = s.byteAt a := rfl

/-! ### setFault -/

@[simp] theorem setFault_mem (s : State) (f : Option FaultRecord) : (s.setFault f).mem = s.mem := rfl
@[simp] theorem setFault_V (s : State) (f : Option FaultRecord) : (s.setFault f).V = s.V := rfl
@[simp] theorem setFault_I (s : State) (f : Option FaultRecord) : (s.setFault f).I = s.I := rfl
@[simp] theorem setFault_PC (s : State) (f : Option FaultRecord) : (s.setFault f).PC = s.PC := rfl
@[simp] theorem setFault_SP (s : State) (f : Option FaultRecord) : (s.setFault f).SP = s.SP := rfl
@[simp] theorem setFault_DT (s : State) (f : Option FaultRecord) : (s.setFault f).DT = s.DT := rfl
@[simp] theorem setFault_ST (s : State) (f : Option FaultRecord) : (s.setFault f).ST = s.ST := rfl
@[simp] theorem setFault_keys (s : State) (f : Option FaultRecord) : (s.setFault f).keys = s.keys := rfl
@[simp] theorem setFault_lastKey (s : State) (f : Option FaultRecord) : (s.setFault f).lastKey = s.lastKey := rfl
@[simp] theorem setFault_edge (s : State) (f : Option FaultRecord) : (s.setFault f).edge = s.edge := rfl
@[simp] theorem setFault_kstate (s : State) (f : Option FaultRecord) : (s.setFault f).kstate = s.kstate := rfl
@[simp] theorem setFault_phase (s : State) (f : Option FaultRecord) : (s.setFault f).phase = s.phase := rfl
@[simp] theorem setFault_fault (s : State) (f : Option FaultRecord) : (s.setFault f).fault = f := rfl
@[simp] theorem setFault_schedule (s : State) (f : Option FaultRecord) : (s.setFault f).schedule = s.schedule := rfl
@[simp] theorem setFault_rnd (s : State) (f : Option FaultRecord) : (s.setFault f).rnd = s.rnd := rfl
@[simp] theorem setFault_rndCount (s : State) (f : Option FaultRecord) : (s.setFault f).rndCount = s.rndCount := rfl
@[simp] theorem setFault_outputs (s : State) (f : Option FaultRecord) : (s.setFault f).outputs = s.outputs := rfl
@[simp] theorem setFault_ended (s : State) (f : Option FaultRecord) : (s.setFault f).ended = s.ended := rfl
@[simp] theorem getV_setFault (s : State) (f : Option FaultRecord) (r : Reg) : (s.setFault f).getV r = s.getV r := rfl
@[simp] theorem getKey_setFault (s : State) (f : Option FaultRecord) (j : Key) : (s.setFault f).getKey j = s.getKey j := rfl
@[simp] theorem byteAt_setFault (s : State) (f : Option FaultRecord) (a : Nat) : (s.setFault f).byteAt a = s.byteAt a := rfl

/-! ### setSchedule -/

@[simp] theorem setSchedule_mem (s : State) (es : List Event) : (s.setSchedule es).mem = s.mem := rfl
@[simp] theorem setSchedule_V (s : State) (es : List Event) : (s.setSchedule es).V = s.V := rfl
@[simp] theorem setSchedule_I (s : State) (es : List Event) : (s.setSchedule es).I = s.I := rfl
@[simp] theorem setSchedule_PC (s : State) (es : List Event) : (s.setSchedule es).PC = s.PC := rfl
@[simp] theorem setSchedule_SP (s : State) (es : List Event) : (s.setSchedule es).SP = s.SP := rfl
@[simp] theorem setSchedule_DT (s : State) (es : List Event) : (s.setSchedule es).DT = s.DT := rfl
@[simp] theorem setSchedule_ST (s : State) (es : List Event) : (s.setSchedule es).ST = s.ST := rfl
@[simp] theorem setSchedule_keys (s : State) (es : List Event) : (s.setSchedule es).keys = s.keys := rfl
@[simp] theorem setSchedule_lastKey (s : State) (es : List Event) : (s.setSchedule es).lastKey = s.lastKey := rfl
@[simp] theorem setSchedule_edge (s : State) (es : List Event) : (s.setSchedule es).edge = s.edge := rfl
@[simp] theorem setSchedule_kstate (s : State) (es : List Event) : (s.setSchedule es).kstate = s.kstate := rfl
@[simp] theorem setSchedule_phase (s : State) (es : List Event) : (s.setSchedule es).phase = s.phase := rfl
@[simp] theorem setSchedule_fault (s : State) (es : List Event) : (s.setSchedule es).fault = s.fault := rfl
@[simp] theorem setSchedule_schedule (s : State) (es : List Event) : (s.setSchedule es).schedule = es := rfl
@[simp] theorem setSchedule_rnd (s : State) (es : List Event) : (s.setSchedule es).rnd = s.rnd := rfl
@[simp] theorem setSchedule_rndCount (s : State) (es : List Event) : (s.setSchedule es).rndCount = s.rndCount := rfl
@[simp] theorem setSchedule_outputs (s : State) (es : List Event) : (s.setSchedule es).outputs = s.outputs := rfl
@[simp] theorem setSchedule_ended (s : State) (es : List Event) : (s.setSchedule es).ended = s.ended := rfl
@[simp] theorem getV_setSchedule (s : State) (es : List Event) (r : Reg) : (s.setSchedule es).getV r = s.getV r := rfl
@[simp] theorem getKey_setSchedule (s : State) (es : List Event) (j : Key) : (s.setSchedule es).getKey j = s.getKey j := rfl
@[simp] theorem byteAt_setSchedule (s : State) (es : List Event) (a : Nat) : (s.setSchedule es).byteAt a = s.byteAt a := rfl

/-! ### setRnd -/

@[simp] theorem setRnd_mem (s : State) (b : Byte) : (s.setRnd b).mem = s.mem := rfl
@[simp] theorem setRnd_V (s : State) (b : Byte) : (s.setRnd b).V = s.V := rfl
@[simp] theorem setRnd_I (s : State) (b : Byte) : (s.setRnd b).I = s.I := rfl
@[simp] theorem setRnd_PC (s : State) (b : Byte) : (s.setRnd b).PC = s.PC := rfl
@[simp] theorem setRnd_SP (s : State) (b : Byte) : (s.setRnd b).SP = s.SP := rfl
@[simp] theorem setRnd_DT (s : State) (b : Byte) : (s.setRnd b).DT = s.DT := rfl
@[simp] theorem setRnd_ST (s : State) (b : Byte) : (s.setRnd b).ST = s.ST := rfl
@[simp] theorem setRnd_keys (s : State) (b : Byte) : (s.setRnd b).keys = s.keys := rfl
@[simp] theorem setRnd_lastKey (s : State) (b : Byte) : (s.setRnd b).lastKey = s.lastKey := rfl
@[simp] theorem setRnd_edge (s : State) (b : Byte) : (s.setRnd b).edge = s.edge := rfl
@[simp] theorem setRnd_kstate (s : State) (b : Byte) : (s.setRnd b).kstate = s.kstate := rfl
@[simp] theorem setRnd_phase (s : State) (b : Byte) : (s.setRnd b).phase = s.phase := rfl
@[simp] theorem setRnd_fault (s : State) (b : Byte) : (s.setRnd b).fault = s.fault := rfl
@[simp] theorem setRnd_schedule (s : State) (b : Byte) : (s.setRnd b).schedule = s.schedule := rfl
@[simp] theorem setRnd_rnd (s : State) (b : Byte) : (s.setRnd b).rnd = b := rfl
@[simp] theorem setRnd_rndCount (s : State) (b : Byte) : (s.setRnd b).rndCount = s.rndCount := rfl
@[simp] theorem setRnd_outputs (s : State) (b : Byte) : (s.setRnd b).outputs = s.outputs := rfl
@[simp] theorem setRnd_ended (s : State) (b : Byte) : (s.setRnd b).ended = s.ended := rfl
@[simp] theorem getV_setRnd (s : State) (b : Byte) (r : Reg) : (s.setRnd b).getV r = s.getV r := rfl
@[simp] theorem getKey_setRnd (s : State) (b : Byte) (j : Key) : (s.setRnd b).getKey j = s.getKey j := rfl
@[simp] theorem byteAt_setRnd (s : State) (b : Byte) (a : Nat) : (s.setRnd b).byteAt a = s.byteAt a := rfl

/-! ### setRndCount -/

@[simp] theorem setRndCount_mem (s : State) (n : Nat) : (s.setRndCount n).mem = s.mem := rfl
@[simp] theorem setRndCount_V (s : State) (n : Nat) : (s.setRndCount n).V = s.V := rfl
@[simp] theorem setRndCount_I (s : State) (n : Nat) : (s.setRndCount n).I = s.I := rfl
@[simp] theorem setRndCount_PC (s : State) (n : Nat) : (s.setRndCount n).PC = s.PC := rfl
@[simp] theorem setRndCount_SP (s : State) (n : Nat) : (s.setRndCount n).SP = s.SP := rfl
@[simp] theorem setRndCount_DT (s : State) (n : Nat) : (s.setRndCount n).DT = s.DT := rfl
@[simp] theorem setRndCount_ST (s : State) (n : Nat) : (s.setRndCount n).ST = s.ST := rfl
@[simp] theorem setRndCount_keys (s : State) (n : Nat) : (s.setRndCount n).keys = s.keys := rfl
@[simp] theorem setRndCount_lastKey (s : State) (n : Nat) : (s.setRndCount n).lastKey = s.lastKey := rfl
@[simp] theorem setRndCount_edge (s : State) (n : Nat) : (s.setRndCount n).edge = s.edge := rfl
@[simp] theorem setRndCount_kstate (s : State) (n : Nat) : (s.setRndCount n).kstate = s.kstate := rfl
@[simp] theorem setRndCount_phase (s : State) (n : Nat) : (s.setRndCount n).phase = s.phase := rfl
@[simp] theorem setRndCount_fault (s : State) (n : Nat) : (s.setRndCount n).fault = s.fault := rfl
@[simp] theorem setRndCount_schedule (s : State) (n : Nat) : (s.setRndCount n).schedule = s.schedule := rfl
@[simp] theorem setRndCount_rnd (s : State) (n : Nat) : (s.setRndCount n).rnd = s.rnd := rfl
@[simp] theorem setRndCount_rndCount (s : State) (n : Nat) : (s.setRndCount n).rndCount = n := rfl
@[simp] theorem setRndCount_outputs (s : State) (n : Nat) : (s.setRndCount n).outputs = s.outputs := rfl
@[simp] theorem setRndCount_ended (s : State) (n : Nat) : (s.setRndCount n).ended = s.ended := rfl
@[simp] theorem getV_setRndCount (s : State) (n : Nat) (r : Reg) : (s.setRndCount n).getV r = s.getV r := rfl
@[simp] theorem getKey_setRndCount (s : State) (n : Nat) (j : Key) : (s.setRndCount n).getKey j = s.getKey j := rfl
@[simp] theorem byteAt_setRndCount (s : State) (n : Nat) (a : Nat) : (s.setRndCount n).byteAt a = s.byteAt a := rfl

/-! ### addOutput -/

@[simp] theorem addOutput_mem (s : State) (o : Output) : (s.addOutput o).mem = s.mem := rfl
@[simp] theorem addOutput_V (s : State) (o : Output) : (s.addOutput o).V = s.V := rfl
@[simp] theorem addOutput_I (s : State) (o : Output) : (s.addOutput o).I = s.I := rfl
@[simp] theorem addOutput_PC (s : State) (o : Output) : (s.addOutput o).PC = s.PC := rfl
@[simp] theorem addOutput_SP (s : State) (o : Output) : (s.addOutput o).SP = s.SP := rfl
@[simp] theorem addOutput_DT (s : State) (o : Output) : (s.addOutput o).DT = s.DT := rfl
@[simp] theorem addOutput_ST (s : State) (o : Output) : (s.addOutput o).ST = s.ST := rfl
@[simp] theorem addOutput_keys (s : State) (o : Output) : (s.addOutput o).keys = s.keys := rfl
@[simp] theorem addOutput_lastKey (s : State) (o : Output) : (s.addOutput o).lastKey = s.lastKey := rfl
@[simp] theorem addOutput_edge (s : State) (o : Output) : (s.addOutput o).edge = s.edge := rfl
@[simp] theorem addOutput_kstate (s : State) (o : Output) : (s.addOutput o).kstate = s.kstate := rfl
@[simp] theorem addOutput_phase (s : State) (o : Output) : (s.addOutput o).phase = s.phase := rfl
@[simp] theorem addOutput_fault (s : State) (o : Output) : (s.addOutput o).fault = s.fault := rfl
@[simp] theorem addOutput_schedule (s : State) (o : Output) : (s.addOutput o).schedule = s.schedule := rfl
@[simp] theorem addOutput_rnd (s : State) (o : Output) : (s.addOutput o).rnd = s.rnd := rfl
@[simp] theorem addOutput_rndCount (s : State) (o : Output) : (s.addOutput o).rndCount = s.rndCount := rfl
@[simp] theorem addOutput_outputs (s : State) (o : Output) : (s.addOutput o).outputs = o :: s.outputs := rfl
@[simp] theorem addOutput_ended (s : State) (o : Output) : (s.addOutput o).ended = s.ended := rfl
@[simp] theorem getV_addOutput (s : State) (o : Output) (r : Reg) : (s.addOutput o).getV r = s.getV r := rfl
@[simp] theorem getKey_addOutput (s : State) (o : Output) (j : Key) : (s.addOutput o).getKey j = s.getKey j := rfl
@[simp] theorem byteAt_addOutput (s : State) (o : Output) (a : Nat) : (s.addOutput o).byteAt a = s.byteAt a := rfl

/-! ### setEnded -/

@[simp] theorem setEnded_mem (s : State) (b : Bool) : (s.setEnded b).mem = s.mem := rfl
@[simp] theorem setEnded_V (s : State) (b : Bool) : (s.setEnded b).V = s.V := rfl
@[simp] theorem setEnded_I (s : State) (b : Bool) : (s.setEnded b).I = s.I := rfl
@[simp] theorem setEnded_PC (s : State) (b : Bool) : (s.setEnded b).PC = s.PC := rfl
@[simp] theorem setEnded_SP (s : State) (b : Bool) : (s.setEnded b).SP = s.SP := rfl
@[simp] theorem setEnded_DT (s : State) (b : Bool) : (s.setEnded b).DT = s.DT := rfl
@[simp] theorem setEnded_ST (s : State) (b : Bool) : (s.setEnded b).ST = s.ST := rfl
@[simp] theorem setEnded_keys (s : State) (b : Bool) : (s.setEnded b).keys = s.keys := rfl
@[simp] theorem setEnded_lastKey (s : State) (b : Bool) : (s.setEnded b).lastKey = s.lastKey := rfl
@[simp] theorem setEnded_edge (s : State) (b : Bool) : (s.setEnded b).edge = s.edge := rfl
@[simp] theorem setEnded_kstate (s : State) (b : Bool) : (s.setEnded b).kstate = s.kstate := rfl
@[simp] theorem setEnded_phase (s : State) (b : Bool) : (s.setEnded b).phase = s.phase := rfl
@[simp] theorem setEnded_fault (s : State) (b : Bool) : (s.setEnded b).fault = s.fault := rfl
@[simp] theorem setEnded_schedule (s : State) (b : Bool) : (s.setEnded b).schedule = s.schedule := rfl
@[simp] theorem setEnded_rnd (s : State) (b : Bool) : (s.setEnded b).rnd = s.rnd := rfl
@[simp] theorem setEnded_rndCount (s : State) (b : Bool) : (s.setEnded b).rndCount = s.rndCount := rfl
@[simp] theorem setEnded_outputs (s : State) (b : Bool) : (s.setEnded b).outputs = s.outputs := rfl
@[simp] theorem setEnded_ended (s : State) (b : Bool) : (s.setEnded b).ended = b := rfl
@[simp] theorem getV_setEnded (s : State) (b : Bool) (r : Reg) : (s.setEnded b).getV r = s.getV r := rfl
@[simp] theorem getKey_setEnded (s : State) (b : Bool) (j : Key) : (s.setEnded b).getKey j = s.getKey j := rfl
@[simp] theorem byteAt_setEnded (s : State) (b : Bool) (a : Nat) : (s.setEnded b).byteAt a = s.byteAt a := rfl

/-! ### Reading after a write -/

@[simp] theorem getV_setV (s : State) (x : Reg) (b : Byte) (r : Reg) :
    (s.setV x b).getV r = if r = x then b else s.getV r := by
  simp only [getV, setV, Fin.getElem_fin, Vector.getElem_set, Fin.val_inj, eq_comm]

@[simp] theorem getKey_setKey (s : State) (k : Key) (d : Bool) (j : Key) :
    (s.setKey k d).getKey j = if j = k then d else s.getKey j := by
  simp only [getKey, setKey, Fin.getElem_fin, Vector.getElem_set, Fin.val_inj, eq_comm]

@[simp] theorem byteAt_setMem (s : State) (m : Memory) (a : Nat) : (s.setMem m).byteAt a = m.read a := rfl

/-- Register files with equal contents are equal data. -/
theorem V_ext {s t : State} (h : ∀ r, t.getV r = s.getV r) : t.V = s.V :=
  Vector.ext fun i hi => h ⟨i, hi⟩

/-- Key slots with equal contents are equal data. -/
theorem keys_ext {s t : State} (h : ∀ k, t.getKey k = s.getKey k) : t.keys = s.keys :=
  Vector.ext fun i hi => h ⟨i, hi⟩

end Sys2Proof.Machine.State
end

