-- ==== Sys2Proof/Laws/Memory.lean ====
section
/-! SUPPORT. The laws of memory: read after write, and that every operation keeps the canonical form. -/

namespace Sys2Proof.Machine.Memory

theorem read_erase (m : Memory) (a c : Nat) :
    (m.erase a).read c = if c = a then initial c else m.read c := by
  induction m with
  | nil => simp [erase, read]
  | cons e m ih =>
    obtain ⟨b, v⟩ := e
    by_cases hab : a = b
    · subst hab
      rw [erase, if_pos rfl, ih]
      by_cases hc : c = a <;> simp [read, hc]
    · rw [erase, if_neg hab, read, read, ih]
      by_cases hc : c = a
      · subst hc; simp [hab]
      · simp [hc]

theorem read_insert (m : Memory) (a : Nat) (v : Byte) (h : ∀ e ∈ m, e.1 ≠ a) (c : Nat) :
    (m.insert a v).read c = if c = a then v else m.read c := by
  induction m with
  | nil => simp [insert, read]
  | cons e m ih =>
    obtain ⟨b, w⟩ := e
    have hb : b ≠ a := h (b, w) (by simp)
    have ih := ih fun e he => h e (by simp [he])
    by_cases hab : a < b
    · rw [insert, if_pos hab, read]
    · rw [insert, if_neg hab, read, ih, read]
      by_cases hc : c = a
      · subst hc; simp [hb.symm]
      · simp [hc]

theorem mem_erase {m : Memory} {a : Nat} {e : Host.Cell} (h : e ∈ m.erase a) : e ∈ m ∧ e.1 ≠ a := by
  induction m with
  | nil => simp [erase] at h
  | cons e' m ih =>
    obtain ⟨b, w⟩ := e'
    rw [erase] at h
    by_cases hab : a = b
    · rw [if_pos hab] at h
      exact ⟨by simp [(ih h).1], (ih h).2⟩
    · rw [if_neg hab] at h
      rcases List.mem_cons.1 h with rfl | h
      · exact ⟨by simp, fun hh => hab hh.symm⟩
      · exact ⟨by simp [(ih h).1], (ih h).2⟩

/-- Read after write (R83, R90): the written byte at the written address, every other address as before. -/
@[simp] theorem read_write (m : Memory) (a : Nat) (v : Byte) (c : Nat) :
    (m.write a v).read c = if c = a then v else m.read c := by
  rw [write]
  by_cases hv : v = initial a
  · rw [if_pos hv, read_erase]
    by_cases hc : c = a
    · subst hc; simp [hv]
    · simp [hc]
  · rw [if_neg hv, read_insert _ _ _ (fun e he => (mem_erase he).2), read_erase]
    by_cases hc : c = a <;> simp [hc]

/-- Read after a run of writes: the k-th byte at a + k, every other address as before. -/
theorem read_writeBytes (m : Memory) (a : Nat) (vs : List Byte) (c : Nat) :
    (m.writeBytes a vs).read c = if a ≤ c ∧ c < a + vs.length then vs.getD (c - a) 0 else m.read c := by
  induction vs generalizing m a with
  | nil => simp [writeBytes]
  | cons v vs ih =>
    rw [writeBytes, ih, read_write]
    rcases Nat.lt_trichotomy c a with hc | rfl | hc
    · rw [if_neg (by omega), if_neg (by omega), if_neg (by omega)]
    · rw [if_neg (by omega), if_pos rfl, if_pos (by simp)]
      simp
    · by_cases hlt : c < a + 1 + vs.length
      · rw [if_pos (by omega), if_pos (by simp; omega)]
        obtain ⟨k, rfl⟩ : ∃ k, c = a + 1 + k := ⟨c - (a + 1), by omega⟩
        have h1 : a + 1 + k - (a + 1) = k := by omega
        have h2 : a + 1 + k - a = k + 1 := by omega
        rw [h1, h2]; simp
      · rw [if_neg (by omega), if_neg (by omega), if_neg (by simp; omega)]

theorem read_writeBytes_outside {m : Memory} {a : Nat} {vs : List Byte} {c : Nat} (h : c < a ∨ a + vs.length ≤ c) :
    (m.writeBytes a vs).read c = m.read c := by
  rw [read_writeBytes, if_neg (by omega)]

theorem read_writeBytes_inside {m : Memory} {a : Nat} {vs : List Byte} {k : Nat} (h : k < vs.length) :
    (m.writeBytes a vs).read (a + k) = vs.getD k 0 := by
  rw [read_writeBytes, if_pos (by omega), Nat.add_sub_cancel_left]

/-- A pushed word reads back (R86). -/
theorem compose_wordBytes (w : Word) : composeWord (w.extractLsb' 8 8) (w.extractLsb' 0 8) = w := by
  apply BitVec.eq_of_getLsbD_eq
  intro i hi
  interval_cases i <;> simp [composeWord]

@[simp] theorem high_composeWord (a b : Byte) : (composeWord a b).extractLsb' 8 8 = a := by
  apply BitVec.eq_of_getLsbD_eq
  intro i hi
  interval_cases i <;> simp [composeWord]

@[simp] theorem low_composeWord (a b : Byte) : (composeWord a b).extractLsb' 0 8 = b := by
  apply BitVec.eq_of_getLsbD_eq
  intro i hi
  interval_cases i <;> simp [composeWord]

theorem toNat_high (w : Word) : (w.extractLsb' 8 8).toNat = w.toNat / 256 := by
  rw [BitVec.extractLsb'_toNat, Nat.shiftRight_eq_div_pow]; omega

theorem toNat_low (w : Word) : (w.extractLsb' 0 8).toNat = w.toNat % 256 := by
  rw [BitVec.extractLsb'_toNat]; simp

theorem toNat_composeWord (a b : Byte) : (composeWord a b).toNat = a.toNat * 256 + b.toNat := by
  have h1 := toNat_high (composeWord a b)
  have h2 := toNat_low (composeWord a b)
  rw [high_composeWord] at h1
  rw [low_composeWord] at h2
  omega

theorem readWord_writeWord (m : Memory) (a : Nat) (w : Word) : (m.writeWord a w).readWord a = w := by
  have h1 : (m.writeWord a w).read (a + 1) = w.extractLsb' 0 8 := by
    rw [writeWord, wordBytes, read_writeBytes, if_pos (by simp)]; simp
  have h0 : (m.writeWord a w).read a = w.extractLsb' 8 8 := by
    rw [writeWord, wordBytes, read_writeBytes, if_pos (by simp)]; simp
  rw [readWord, h0, h1, compose_wordBytes]

/-! ### The canonical form -/

theorem wfFrom_mono {lo lo' : Nat} {m : Memory} (hle : lo' ≤ lo) (h : wfFrom lo m = true) : wfFrom lo' m = true := by
  cases m with
  | nil => rfl
  | cons e m =>
    simp only [wfFrom, Bool.and_eq_true, decide_eq_true_eq] at h ⊢
    exact ⟨⟨⟨by omega, h.1.1.2⟩, h.1.2⟩, h.2⟩

theorem wfFrom_erase {lo : Nat} {m : Memory} (a : Nat) (h : wfFrom lo m = true) : wfFrom lo (m.erase a) = true := by
  induction m generalizing lo with
  | nil => rfl
  | cons e m ih =>
    obtain ⟨b, w⟩ := e
    simp only [wfFrom, Bool.and_eq_true, decide_eq_true_eq] at h
    rw [erase]
    by_cases hab : a = b
    · rw [if_pos hab]
      exact wfFrom_mono (by omega) (ih h.2)
    · rw [if_neg hab]
      simp only [wfFrom, Bool.and_eq_true, decide_eq_true_eq]
      exact ⟨h.1, ih h.2⟩

theorem wfFrom_insert {lo : Nat} {m : Memory} {a : Nat} {v : Byte} (hlo : lo ≤ a) (ha : a < Config.memSize)
    (hv : v ≠ initial a) (hm : ∀ e ∈ m, e.1 ≠ a) (h : wfFrom lo m = true) : wfFrom lo (m.insert a v) = true := by
  induction m generalizing lo with
  | nil => simp [insert, wfFrom, hlo, ha, hv]
  | cons e m ih =>
    obtain ⟨b, w⟩ := e
    have hb : b ≠ a := hm (b, w) (by simp)
    simp only [wfFrom, Bool.and_eq_true, decide_eq_true_eq] at h
    rw [insert]
    by_cases hab : a < b
    · rw [if_pos hab]
      simp only [wfFrom, Bool.and_eq_true, decide_eq_true_eq]
      exact ⟨⟨⟨hlo, ha⟩, hv⟩, ⟨⟨⟨by omega, h.1.1.2⟩, h.1.2⟩, h.2⟩⟩
    · rw [if_neg hab]
      simp only [wfFrom, Bool.and_eq_true, decide_eq_true_eq]
      exact ⟨h.1, ih (by omega) (fun e he => hm e (by simp [he])) h.2⟩

/-- A write inside the address space keeps the canonical form. -/
theorem wf_write {m : Memory} {a : Nat} (v : Byte) (ha : a < Config.memSize) (h : m.wf = true) :
    (m.write a v).wf = true := by
  rw [write]
  split
  · exact wfFrom_erase a h
  · rename_i hv
    exact wfFrom_insert (by omega) ha hv (fun e he => (mem_erase he).2) (wfFrom_erase a h)

/-- A run of writes inside the address space keeps the canonical form. -/
theorem wf_writeBytes {m : Memory} {a : Nat} {vs : List Byte} (ha : a + vs.length ≤ Config.memSize)
    (h : m.wf = true) : (m.writeBytes a vs).wf = true := by
  induction vs generalizing m a with
  | nil => exact h
  | cons v vs ih =>
    simp only [List.length_cons] at ha
    rw [writeBytes]
    exact ih (by omega) (wf_write v (by omega) h)

theorem wf_reset : State.reset.mem.wf = true := rfl

theorem read_eq_initial_of_wfFrom {lo : Nat} {m : Memory} (h : wfFrom lo m = true) {a : Nat} (ha : a < lo) :
    m.read a = initial a := by
  induction m generalizing lo with
  | nil => rfl
  | cons e m ih =>
    obtain ⟨b, w⟩ := e
    simp only [wfFrom, Bool.and_eq_true, decide_eq_true_eq] at h
    rw [read, if_neg (by omega)]
    exact ih h.2 (by omega)

end Sys2Proof.Machine.Memory
end

