-- ==== Sys2Proof/Laws/Ops.lean ====
section
/-! SUPPORT. One lemma for each shared operation of Machine/Ops, Operands and Flags that says all it can do. -/

namespace Sys2Proof.Machine

/-! ### The next PC and the small updates, unfolded once -/

@[simp] theorem advance_eq (s : State) : advance s = s.setPC (s.PC + 2) := rfl
@[simp] theorem skip_eq (s : State) : skip s = s.setPC (s.PC + 4) := rfl
@[simp] theorem jump_eq (w : Word) (s : State) : jump w s = s.setPC w := rfl
@[simp] theorem present_eq (s : State) : present s = s.addOutput .present := rfl
@[simp] theorem setFlag_eq (f : Byte) (s : State) : setFlag f s = s.setV 15 f := rfl
@[simp] theorem kbKey_eq (k : Key) (s : State) : kbKey k s = s.getKey k := rfl
@[simp] theorem finish_eq (x : Reg) (v : Byte) (s : State) : finish x v s = (s.setV x v).setPC (s.PC + 2) := rfl
@[simp] theorem finishFlag_eq (x : Reg) (v f : Byte) (s : State) :
    finishFlag x v f s = ((s.setV x v).setV 15 f).setPC (s.PC + 2) := rfl

theorem skipIf_eq (c : Bool) (s : State) : skipIf c s = s.setPC (s.PC + if c then 4 else 2) := by
  cases c <;> rfl

/-! ### The range check (R84, R404) -/

theorem firstAbove_eq_none {as : List Nat} : firstAbove as = none ↔ ∀ a ∈ as, a < Config.memSize := by
  simp [firstAbove]

theorem firstAbove_eq_some {as : List Nat} {a : Nat} (h : firstAbove as = some a) :
    a ∈ as ∧ Config.memSize ≤ a := by
  have h1 := List.find?_some h
  exact ⟨List.mem_of_find?_eq_some h, by simpa using h1⟩

@[simp] theorem firstAbove_nil : firstAbove [] = none := rfl

theorem firstAbove_cons (a : Nat) (as : List Nat) :
    firstAbove (a :: as) = if Config.memSize ≤ a then some a else firstAbove as := by
  by_cases h : Config.memSize ≤ a <;> simp [firstAbove, h]

theorem firstAbove_append (as bs : List Nat) :
    firstAbove (as ++ bs) = (firstAbove as).or (firstAbove bs) := by
  simp [firstAbove, List.find?_append]

/-- What a checked instruction can do: record the first failing address, or end in `t`. -/
theorem checked_cases (code : FaultCode) (as : List Nat) (s t : State) :
    (∃ a, firstAbove as = some a ∧ checked code as s t = .next (s.setFault (some ⟨code, s.PC, a⟩))) ∨
      (firstAbove as = none ∧ checked code as s t = .next t) := by
  unfold checked
  cases h : firstAbove as with
  | none => exact .inr ⟨rfl, rfl⟩
  | some a => exact .inl ⟨a, rfl, rfl⟩

theorem checked_of_none {as : List Nat} (h : firstAbove as = none) (code : FaultCode) (s t : State) :
    checked code as s t = .next t := by
  rw [checked, h]

theorem checked_of_some {as : List Nat} {a : Nat} (h : firstAbove as = some a) (code : FaultCode) (s t : State) :
    checked code as s t = .next (s.setFault (some ⟨code, s.PC, a⟩)) := by
  rw [checked, h]; rfl

/-- A pair of byte addresses, as a fetch or a stack access checks them. -/
theorem firstAbove_pair (a : Nat) :
    firstAbove [a, a + 1] = if 0xFFF < a + 1 then some (max a 0x1000) else none := by
  simp only [firstAbove_cons, firstAbove_nil, Config.memSize]
  split
  · rw [if_pos (by omega)]; congr 1; omega
  · split
    · rw [if_pos (by omega)]; congr 1; omega
    · rw [if_neg (by omega)]

/-- The stack entry of SP lies inside memory exactly when SP < 0xB0 (R95). -/
theorem firstAbove_stackAddrs (sp : Byte) :
    firstAbove (stackAddrs sp) = if 0xB0 ≤ sp.toNat then some (0xEA0 + 2 * sp.toNat) else none := by
  rw [stackAddrs, stackAddr, firstAbove_pair, Config.stackBase]
  split
  · rw [if_pos (by omega)]; congr 1; omega
  · rw [if_neg (by omega)]

theorem firstAbove_fetchAddrs (pc : Word) :
    firstAbove (fetchAddrs pc) =
      if 0xFFF < pc.toNat + 1 then some (if 0xFFF < pc.toNat then pc.toNat else 0x1000) else none := by
  rw [fetchAddrs, firstAbove_pair]
  split
  · congr 1; split <;> omega
  · rfl

theorem firstAbove_range_map (b k : Nat) :
    firstAbove ((List.range k).map (fun j => b + j)) = if 0xFFF + 1 < b + k ∧ 0 < k then some (max b 0x1000) else none := by
  induction k with
  | zero => simp [firstAbove]
  | succ k ih =>
    rw [List.range_succ, List.map_append, firstAbove_append, ih]
    simp only [List.map_cons, List.map_nil, firstAbove_cons, firstAbove_nil, Config.memSize]
    by_cases h : 0xFFF + 1 < b + k ∧ 0 < k
    · rw [if_pos h, if_pos (show 0xFFF + 1 < b + (k + 1) ∧ 0 < k + 1 by omega)]; rfl
    · rw [if_neg h, Option.none_or]
      by_cases h2 : 0x1000 ≤ b + k
      · rw [if_pos h2, if_pos (by omega)]; congr 1; omega
      · rw [if_neg h2, if_neg (by omega)]

/-- A transfer of k + 1 bytes from I reports the lowest address above 0xFFF (R270). -/
theorem firstAbove_indexAddrs (base : Word) (k : Nat) :
    firstAbove (indexAddrs base (k + 1)) = if 0xFFF < base.toNat + k then some (max base.toNat 0x1000) else none := by
  rw [indexAddrs, firstAbove_range_map]
  split
  · rw [if_pos (by omega)]
  · rw [if_neg (by omega)]

/-! ### Registers V0 to Vx -/

theorem mem_regsUpTo {x r : Reg} : r ∈ regsUpTo x ↔ r ≤ x := by
  revert x r; decide

theorem nodup_regsUpTo (x : Reg) : (regsUpTo x).Nodup := by
  revert x; decide

theorem length_regsUpTo (x : Reg) : (regsUpTo x).length = x.val + 1 := by
  revert x; decide

theorem getElem_regsUpTo {x : Reg} {j : Nat} (h : j ≤ x.val) : (regsUpTo x)[j]? = some (Fin.ofNat 16 j) := by
  have hj : j < 16 := by omega
  have key : ∀ x j : Reg, j ≤ x → (regsUpTo x)[j.val]? = some (Fin.ofNat 16 j.val) := by decide
  exact key x ⟨j, hj⟩ h

theorem length_regBytes (s : State) (x : Reg) : (regBytes s x).length = x.val + 1 := by
  rw [regBytes, List.length_map, length_regsUpTo]

theorem getD_regBytes (s : State) (x r : Reg) (h : r ≤ x) : (regBytes s x).getD r.val 0 = s.getV r := by
  have h1 := getElem_regsUpTo (x := x) (j := r.val) h
  have h2 : Fin.ofNat 16 r.val = r := by ext; simp
  rw [regBytes, List.getD_eq_getElem?_getD, List.getElem?_map, h1, h2]; rfl

/-- What Fx65 leaves in the registers, in whatever order it loads them. -/
theorem getV_loadRegs (base : Nat) (rs : List Reg) (s : State) (r : Reg) :
    (loadRegs base rs s).getV r = if r ∈ rs then s.byteAt (base + r.val) else s.getV r := by
  induction rs generalizing s with
  | nil => simp [loadRegs]
  | cons q rs ih =>
    rw [loadRegs, ih]
    by_cases h : r ∈ rs
    · simp [h]
    · by_cases hq : r = q
      · subst hq; simp [h]
      · simp [h, hq]

/-- Fx65 changes nothing but V. -/
theorem loadRegs_sameBut (base : Nat) (rs : List Reg) (s : State) : SameBut [.V] s (loadRegs base rs s) := by
  induction rs generalizing s with
  | nil => intro p _; cases p <;> simp [Part.Same, loadRegs]
  | cons q rs ih =>
    intro p hp
    have h := ih (s.setV q (s.byteAt (base + q.val))) p hp
    cases p <;> simp_all [Part.Same, loadRegs]

/-- The fields Fx65 leaves as they are, one by one. -/
theorem loadRegs_fields (base : Nat) (rs : List Reg) (s : State) :
    (loadRegs base rs s).mem = s.mem ∧ (loadRegs base rs s).PC = s.PC ∧ (loadRegs base rs s).fault = s.fault ∧
      (loadRegs base rs s).outputs = s.outputs ∧ (loadRegs base rs s).phase = s.phase := by
  induction rs generalizing s with
  | nil => exact ⟨rfl, rfl, rfl, rfl, rfl⟩
  | cons q rs ih => exact ih (s.setV q (s.byteAt (base + q.val)))

/-! ### The keyboard's blocking read (R426) -/

/-- Fx0A from Idle: await and retry. -/
theorem execLdVxK_idle {s : State} (h : s.kstate = .idle) (x : Reg) :
    execLdVxK x s = .next ((s.setKstate .awaiting).setEdge false) := by
  simp [execLdVxK, kbAwait, h, kbAck]

/-- Fx0A awaiting with no edge: retry, nothing changes. -/
theorem execLdVxK_retry {s : State} (h : s.kstate = .awaiting) (he : s.edge = false) (x : Reg) :
    execLdVxK x s = .next s := by
  simp [execLdVxK, kbAwait, h, kbAck, he]

/-- Fx0A awaiting with an edge: acknowledge. -/
theorem execLdVxK_ack {s : State} (h : s.kstate = .awaiting) (he : s.edge = true) (x : Reg) :
    execLdVxK x s =
      .next ((((s.setEdge false).setKstate .idle).setV x (keyByte s.lastKey)).setPC (s.PC + 2)) := by
  simp [execLdVxK, kbAwait, h, kbAck, he]

/-! ### Flags -/

theorem flagByte_eq (c : Bool) : flagByte c = if c then 1 else 0 := rfl

theorem flagByte_zero_or_one (c : Bool) : flagByte c = 0 ∨ flagByte c = 1 := by cases c <;> simp [flagByte]

end Sys2Proof.Machine
end

