-- ==== Sys2Proof/Laws/Display.lean ====
section
/-! SUPPORT. What the display encoder does to memory: the clear, one XORed byte, one row, and the rows of a sprite. -/

namespace Sys2Proof.Machine

/-- The clear zeroes the display region and nothing else (R301). -/
theorem read_clearDisplay (m : Memory) (a : Nat) :
    (clearDisplay m).read a = if 0xF00 ≤ a ∧ a ≤ 0xFFF then 0 else m.read a := by
  have hl : (List.replicate Config.displaySize (0 : Byte)).length = 256 := List.length_replicate
  rw [clearDisplay, Memory.read_writeBytes, hl]
  by_cases h : 0xF00 ≤ a ∧ a ≤ 0xFFF
  · rw [if_pos h, if_pos (by simp only [Config.displayBase]; omega), List.getD_eq_getElem?_getD,
      List.getElem?_replicate]
    split <;> rfl
  · rw [if_neg h, if_neg (by simp only [Config.displayBase]; omega)]

/-- One XORed byte. -/
@[simp] theorem read_blitByte (m : Memory) (t : Nat) (k : Byte) (a : Nat) :
    (blitByte m t k).1.read a = if a = t then m.read t ^^^ k else m.read a := by
  simp [blitByte]

theorem collision_blitByte (m : Memory) (t : Nat) (k : Byte) :
    (blitByte m t k).2 = true ↔ m.read t &&& k ≠ 0 := by
  simp [blitByte]

/-- One row changes an address by its mask, whatever the sprite byte's place. -/
theorem read_drawRow (m : Memory) (src t o a : Nat) :
    (drawRow m src t o).1.read a = m.read a ^^^ rowMask (m.read src) t o a := by
  unfold drawRow rowMask
  by_cases ho : o = 0
  · by_cases ha : a = t
    · subst ha; simp [ho]
    · simp [ho, ha]
  · by_cases ha : a = t
    · subst ha; simp [ho]
    · by_cases hb : a = t + 1
      · subst hb; simp [ho]
      · simp [ho, ha, hb]

theorem collision_drawRow (m : Memory) (src t o : Nat) :
    (drawRow m src t o).2 = true ↔ ∃ a, m.read a &&& rowMask (m.read src) t o a ≠ 0 := by
  have h0 : rowMask (m.read src) t o t = m.read src >>> o := by simp [rowMask]
  have h1 : o ≠ 0 → rowMask (m.read src) t o (t + 1) = m.read src <<< (8 - o) := by
    intro ho; simp [rowMask, ho]
  constructor
  · intro h
    unfold drawRow at h
    by_cases ho : o = 0
    · rw [if_pos ho] at h
      exact ⟨t, by rw [h0]; exact (collision_blitByte _ _ _).1 h⟩
    · simp only [if_neg ho, Bool.or_eq_true] at h
      rcases h with h | h
      · exact ⟨t, by rw [h0]; exact (collision_blitByte _ _ _).1 h⟩
      · refine ⟨t + 1, ?_⟩
        rw [h1 ho]
        simpa using (collision_blitByte _ _ _).1 h
  · rintro ⟨a, ha⟩
    unfold drawRow
    by_cases ho : o = 0
    · rw [if_pos ho]
      apply (collision_blitByte _ _ _).2
      by_cases hat : a = t
      · subst hat; rwa [h0] at ha
      · simp [rowMask, hat, ho] at ha
    · simp only [if_neg ho, Bool.or_eq_true]
      by_cases hat : a = t
      · subst hat; left; exact (collision_blitByte _ _ _).2 (by rwa [h0] at ha)
      · by_cases hb : a = t + 1
        · subst hb; right
          apply (collision_blitByte _ _ _).2
          rw [h1 ho] at ha
          simpa using ha
        · simp [rowMask, hat, hb] at ha

/-! ### The rows of a sprite -/

theorem drawRows_append (base : Nat) (X Y : Byte) (rs qs : List Nat) (m : Memory) :
    drawRows base X Y (rs ++ qs) m =
      ((drawRows base X Y qs (drawRows base X Y rs m).1).1,
        (drawRows base X Y rs m).2 || (drawRows base X Y qs (drawRows base X Y rs m).1).2) := by
  induction rs generalizing m with
  | nil => simp [drawRows]
  | cons r rs ih => simp only [List.cons_append, drawRows, ih, Bool.or_assoc]

@[simp] theorem drawSprite_zero (base : Nat) (X Y : Byte) (m : Memory) : drawSprite base X Y 0 m = (m, false) := rfl

/-- The memory and the collision after one more row (R305). -/
theorem drawSprite_succ (base : Nat) (X Y : Byte) (r : Nat) (m : Memory) :
    drawSprite base X Y (r + 1) m =
      ((drawRow (drawSprite base X Y r m).1 (base + r) (spriteTarget X Y r) (spriteOffset X)).1,
        (drawSprite base X Y r m).2 ||
          (drawRow (drawSprite base X Y r m).1 (base + r) (spriteTarget X Y r) (spriteOffset X)).2) := by
  rw [drawSprite, List.range_succ, drawRows_append]
  simp [drawRows, drawSprite]

/-- What row r XORs onto address a, given the sprite byte it read. -/
abbrev spriteMask (X Y : Byte) (sprite : Byte) (r a : Nat) : Byte :=
  rowMask sprite (spriteTarget X Y r) (spriteOffset X) a

theorem read_drawSprite_succ (base : Nat) (X Y : Byte) (r : Nat) (m : Memory) (a : Nat) :
    (drawSprite base X Y (r + 1) m).1.read a =
      (drawSprite base X Y r m).1.read a ^^^
        spriteMask X Y ((drawSprite base X Y r m).1.read (base + r)) r a := by
  rw [drawSprite_succ, read_drawRow]

/-- The collision flag is the OR over every row and both bytes (R304). -/
theorem collision_drawSprite (base : Nat) (X Y : Byte) (n : Nat) (m : Memory) :
    (drawSprite base X Y n m).2 = true ↔
      ∃ r a, r < n ∧ (drawSprite base X Y r m).1.read a &&&
        spriteMask X Y ((drawSprite base X Y r m).1.read (base + r)) r a ≠ 0 := by
  induction n with
  | zero => simp
  | succ n ih =>
    rw [drawSprite_succ, Bool.or_eq_true, ih, collision_drawRow]
    constructor
    · rintro (⟨r, a, hr, h⟩ | ⟨a, h⟩)
      · exact ⟨r, a, by omega, h⟩
      · exact ⟨n, a, by omega, h⟩
    · rintro ⟨r, a, hr, h⟩
      by_cases hrn : r = n
      · subst hrn; exact .inr ⟨a, h⟩
      · exact .inl ⟨r, a, by omega, h⟩

theorem mem_rowTargets {X Y : Byte} {r a : Nat} :
    a ∈ rowTargets X Y r ↔ a = spriteTarget X Y r ∨ (a = spriteTarget X Y r + 1 ∧ spriteOffset X ≠ 0) := by
  unfold rowTargets
  split <;> simp_all

theorem spriteMask_eq_zero {X Y : Byte} {r a : Nat} (h : a ∉ rowTargets X Y r) (sprite : Byte) :
    spriteMask X Y sprite r a = 0 := by
  rw [mem_rowTargets, not_or] at h
  rw [spriteMask, rowMask, if_neg h.1, if_neg h.2]

/-- No two rows of one draw touch the same byte. -/
theorem rowTargets_disjoint {X Y : Byte} {r q a : Nat} (hr : a ∈ rowTargets X Y r) (hq : a ∈ rowTargets X Y q) :
    r = q := by
  rw [mem_rowTargets] at hr hq
  simp only [spriteTarget] at hr hq
  omega

/-- A byte no row touches is unchanged. -/
theorem read_drawSprite_untouched {base : Nat} {X Y : Byte} {n : Nat} {m : Memory} {a : Nat}
    (h : ∀ r, r < n → a ∉ rowTargets X Y r) : (drawSprite base X Y n m).1.read a = m.read a := by
  induction n with
  | zero => rfl
  | succ n ih =>
    rw [read_drawSprite_succ, ih fun r hr => h r (by omega), spriteMask_eq_zero (h n (by omega))]
    exact BitVec.xor_zero

/-- A byte row r touches is changed by row r alone, by the sprite byte as it was before the draw when the sprite lies apart
from what the draw touches (R309). -/
theorem read_drawSprite_touched {base : Nat} {X Y : Byte} {n r : Nat} {m : Memory} {a : Nat}
    (hapart : ∀ q p, q < n → p < n → base + q ∉ rowTargets X Y p) (hr : r < n) (ha : a ∈ rowTargets X Y r) :
    (drawSprite base X Y n m).1.read a = m.read a ^^^ spriteMask X Y (m.read (base + r)) r a := by
  induction n with
  | zero => omega
  | succ n ih =>
    rw [read_drawSprite_succ]
    by_cases hrn : r = n
    · subst hrn
      rw [read_drawSprite_untouched (a := a) fun q hq hmem => by
          have := rowTargets_disjoint ha hmem; omega,
        read_drawSprite_untouched (a := base + r) fun q hq => hapart r q (by omega) (by omega)]
    · rw [ih (fun q p hq hp => hapart q p (by omega) (by omega)) (by omega),
        spriteMask_eq_zero (r := n) fun hmem => hrn (rowTargets_disjoint ha hmem)]
      exact BitVec.xor_zero

/-! ### The range checks of a draw (R303, R307) -/

theorem firstAbove_drawAddrs_eq_none {base : Word} {X Y : Byte} {n : Nat} :
    firstAbove (drawAddrs base X Y n) = none ↔
      ∀ r, r < n → base.toNat + r < Config.memSize ∧ ∀ a ∈ rowTargets X Y r, a < Config.memSize := by
  rw [firstAbove_eq_none]
  simp only [drawAddrs, List.mem_flatMap, List.mem_range, rowAddrs, List.mem_cons]
  constructor
  · intro h r hr
    exact ⟨h _ ⟨r, hr, .inl rfl⟩, fun a ha => h _ ⟨r, hr, .inr ha⟩⟩
  · rintro h a ⟨r, hr, rfl | ha⟩
    · exact (h r hr).1
    · exact (h r hr).2 a ha

theorem firstAbove_flatMap (f : Nat → List Nat) (rs : List Nat) :
    firstAbove (rs.flatMap f) = rs.findSome? fun r => firstAbove (f r) := by
  induction rs with
  | nil => rfl
  | cons r rs ih =>
    rw [List.flatMap_cons, firstAbove_append, ih, List.findSome?_cons]
    cases firstAbove (f r) <;> rfl

/-- A draw writes only inside the address space, so it keeps the canonical form. -/
theorem wf_drawSprite {base : Nat} {X Y : Byte} {n : Nat} {m : Memory}
    (h : ∀ r, r < n → ∀ a ∈ rowTargets X Y r, a < Config.memSize) (hm : m.wf = true) :
    (drawSprite base X Y n m).1.wf = true := by
  induction n with
  | zero => exact hm
  | succ n ih =>
    rw [drawSprite_succ]
    have ih := ih fun r hr => h r (by omega)
    have hn := h n (by omega)
    simp only [mem_rowTargets] at hn
    unfold drawRow
    by_cases ho : spriteOffset X = 0
    · simp only [if_pos ho]
      exact Memory.wf_write _ (hn _ (.inl rfl)) ih
    · simp only [if_neg ho]
      exact Memory.wf_write _ (hn _ (.inr ⟨rfl, ho⟩)) (Memory.wf_write _ (hn _ (.inl rfl)) ih)

theorem wf_clearDisplay {m : Memory} (h : m.wf = true) : (clearDisplay m).wf = true :=
  Memory.wf_writeBytes (by rw [List.length_replicate]; decide) h

end Sys2Proof.Machine
end

