-- ==== Sys2Proof/Laws/Frame.lean ====
section
/-! SUPPORT. Frames compose: an update of a part that a frame lists keeps the frame. -/

namespace Sys2Proof.Machine.SameBut

variable {ps qs : List Part} {s t u : State}

theorem refl (ps : List Part) (s : State) : SameBut ps s s := by
  intro p _; cases p <;> simp [Part.Same]

theorem trans (h : SameBut ps s t) (h' : SameBut ps t u) : SameBut ps s u := by
  intro p hp
  have h1 := h p hp
  have h2 := h' p hp
  cases p <;> simp_all [Part.Same]

theorem mono (h : SameBut ps s t) (hsub : ∀ p, p ∈ ps → p ∈ qs) : SameBut qs s t :=
  fun p hp => h p fun hq => hp (hsub p hq)

theorem setMem (h : SameBut ps s t) (m : Memory) (hp : Part.mem ∈ ps) : SameBut ps s (t.setMem m) := by
  intro q hq
  have h := h q hq
  cases q <;> first | exact absurd hp hq | exact h

theorem setV (h : SameBut ps s t) (x : Reg) (b : Byte) (hp : Part.V ∈ ps) : SameBut ps s (t.setV x b) := by
  intro q hq
  have h := h q hq
  cases q <;> first | exact absurd hp hq | exact h

theorem setI (h : SameBut ps s t) (w : Word) (hp : Part.I ∈ ps) : SameBut ps s (t.setI w) := by
  intro q hq
  have h := h q hq
  cases q <;> first | exact absurd hp hq | exact h

theorem setPC (h : SameBut ps s t) (w : Word) (hp : Part.PC ∈ ps) : SameBut ps s (t.setPC w) := by
  intro q hq
  have h := h q hq
  cases q <;> first | exact absurd hp hq | exact h

theorem setSP (h : SameBut ps s t) (b : Byte) (hp : Part.SP ∈ ps) : SameBut ps s (t.setSP b) := by
  intro q hq
  have h := h q hq
  cases q <;> first | exact absurd hp hq | exact h

theorem setDT (h : SameBut ps s t) (b : Byte) (hp : Part.DT ∈ ps) : SameBut ps s (t.setDT b) := by
  intro q hq
  have h := h q hq
  cases q <;> first | exact absurd hp hq | exact h

theorem setST (h : SameBut ps s t) (b : Byte) (hp : Part.ST ∈ ps) : SameBut ps s (t.setST b) := by
  intro q hq
  have h := h q hq
  cases q <;> first | exact absurd hp hq | exact h

theorem setKey (h : SameBut ps s t) (k : Key) (d : Bool) (hp : Part.keys ∈ ps) : SameBut ps s (t.setKey k d) := by
  intro q hq
  have h := h q hq
  cases q <;> first | exact absurd hp hq | exact h

theorem setLastKey (h : SameBut ps s t) (k : Key) (hp : Part.lastKey ∈ ps) : SameBut ps s (t.setLastKey k) := by
  intro q hq
  have h := h q hq
  cases q <;> first | exact absurd hp hq | exact h

theorem setEdge (h : SameBut ps s t) (b : Bool) (hp : Part.edge ∈ ps) : SameBut ps s (t.setEdge b) := by
  intro q hq
  have h := h q hq
  cases q <;> first | exact absurd hp hq | exact h

theorem setKstate (h : SameBut ps s t) (k : KState) (hp : Part.kstate ∈ ps) : SameBut ps s (t.setKstate k) := by
  intro q hq
  have h := h q hq
  cases q <;> first | exact absurd hp hq | exact h

theorem setPhase (h : SameBut ps s t) (q : Phase) (hp : Part.phase ∈ ps) : SameBut ps s (t.setPhase q) := by
  intro q hq
  have h := h q hq
  cases q <;> first | exact absurd hp hq | exact h

theorem setFault (h : SameBut ps s t) (f : Option FaultRecord) (hp : Part.fault ∈ ps) : SameBut ps s (t.setFault f) := by
  intro q hq
  have h := h q hq
  cases q <;> first | exact absurd hp hq | exact h

theorem addOutput (h : SameBut ps s t) (o : Output) (hp : Part.outputs ∈ ps) : SameBut ps s (t.addOutput o) := by
  intro q hq
  have h := h q hq
  cases q <;> first | exact absurd hp hq | exact h

theorem setSchedule (h : SameBut ps s t) (es : List Event) (hp : Part.host ∈ ps) : SameBut ps s (t.setSchedule es) := by
  intro q hq
  have h := h q hq
  cases q <;> first | exact absurd hp hq | exact h

theorem setRnd (h : SameBut ps s t) (b : Byte) (hp : Part.host ∈ ps) : SameBut ps s (t.setRnd b) := by
  intro q hq
  have h := h q hq
  cases q <;> first | exact absurd hp hq | exact h

theorem setRndCount (h : SameBut ps s t) (n : Nat) (hp : Part.host ∈ ps) : SameBut ps s (t.setRndCount n) := by
  intro q hq
  have h := h q hq
  cases q <;> first | exact absurd hp hq | exact h

theorem setEnded (h : SameBut ps s t) (b : Bool) (hp : Part.ended ∈ ps) : SameBut ps s (t.setEnded b) := by
  intro q hq
  have h := h q hq
  cases q <;> first | exact absurd hp hq | exact h

end Sys2Proof.Machine.SameBut
end

