-- ==== Sys2Proof/Laws/Events.lean ====
section
/-! SUPPORT. What a step does for each event that is due, and how runs of several steps unfold. -/

namespace Sys2Proof.Machine

/-- A step that has an event due reacts to it. -/
theorem step_of_schedule {s : State} {e : Event} {es : List Event} (h : s.ended = false) (hs : s.schedule = e :: es) :
    step s = react e (s.setSchedule es) := by
  simp [step, h, processNext, hs]

theorem step_ended {s : State} (h : s.ended = true) : step s = .fault .terminated := by
  simp [step, h]

/-- The gate of a Step event, closed (R34, R403). -/
theorem onStep_closed {s : State} (h : ¬ (s.phase = .running ∧ s.fault = none)) (rnd : Byte) : onStep rnd s = .next s := by
  unfold onStep
  split <;> simp_all

/-- The gate of a Step event, open (R50). -/
theorem onStep_open {s : State} (hp : s.phase = .running) (hf : s.fault = none) (rnd : Byte) :
    onStep rnd s = runStep rnd s := by
  simp [onStep, hp, hf]

/-- A fetch past 0xFFF (R401). -/
theorem runStep_fetchFault {s : State} (h : 0xFFF < s.PC.toNat + 1) (rnd : Byte) :
    runStep rnd s =
      .next (s.setFault (some ⟨.fetchRange, s.PC, if 0xFFF < s.PC.toNat then s.PC.toNat else 0x1000⟩)) := by
  rw [runStep, firstAbove_fetchAddrs, if_pos h]; rfl

/-- A fetch inside memory. -/
theorem runStep_fetched {s : State} (h : s.PC.toNat + 1 ≤ 0xFFF) (rnd : Byte) :
    runStep rnd s = execWord (fetchWord s) (s.setRnd rnd) := by
  rw [runStep, firstAbove_fetchAddrs, if_neg (by omega)]

theorem execWord_instr {w : Word} {i : Instr} (h : decode w = .instr i) (s : State) : execWord w s = exec i s := by
  rw [execWord, h]

theorem execWord_gap {w : Word} {g : GapFamily} (h : decode w = .gap g) (s : State) :
    execWord w s = .next (s.setPC (s.PC + 2)) := by
  rw [execWord, h]; rfl

/-- The fetched word as a number (R86). -/
theorem fetchWord_eq (s : State) :
    fetchWord s = BitVec.ofNat 16 ((s.byteAt s.PC.toNat).toNat * 256 + (s.byteAt (s.PC.toNat + 1)).toNat) := by
  apply BitVec.eq_of_toNat_eq
  rw [fetchWord, Memory.readWord, Memory.toNat_composeWord, BitVec.toNat_ofNat]
  have h1 := (s.byteAt s.PC.toNat).isLt
  have h2 := (s.byteAt (s.PC.toNat + 1)).isLt
  simp only [State.byteAt] at *
  omega

/-! ### Timers and keyboard -/

@[simp] theorem toNat_countDown (b : Byte) : (countDown b).toNat = b.toNat - 1 := by
  revert b; decide

theorem onTick_sameBut (s : State) : SameBut [.DT, .ST] s (onTick s) :=
  ((SameBut.refl _ _).setDT _ (by simp)).setST _ (by simp)

theorem onKey_sameBut (k : Key) (down : Bool) (s : State) : SameBut [.keys, .edge, .lastKey] s (onKey k down s) := by
  cases down
  · exact (SameBut.refl _ _).setKey _ _ (by simp)
  · exact (((SameBut.refl _ _).setKey _ _ (by simp)).setEdge _ (by simp)).setLastKey _ (by simp)

theorem onKey_up (k : Key) (s : State) : onKey k false s = s.setKey k false := rfl

theorem onKey_down (k : Key) (s : State) : onKey k true s = ((s.setKey k true).setEdge true).setLastKey k := rfl

/-! ### Runs -/

theorem run_zero (s : State) : Sys2Proof.core.run 0 s = Host.Outcome.next s := rfl

theorem run_succ {s t : State} (n : Nat) (h : step s = .next t) :
    Sys2Proof.core.run (n + 1) s = Sys2Proof.core.run n t := by
  have hc : Sys2Proof.core.step s = .next t := h
  simp only [Host.Core.run, hc]

/-- A run of m + n steps is a run of n steps from where m steps lead. -/
theorem run_add {s t : State} (m n : Nat) (h : Sys2Proof.core.run m s = Host.Outcome.next t) :
    Sys2Proof.core.run (m + n) s = Sys2Proof.core.run n t := by
  induction m generalizing s with
  | zero =>
    rw [run_zero] at h
    injection h with h
    rw [Nat.zero_add, h]
  | succ m ih =>
    simp only [Host.Core.run] at h
    cases hs : Sys2Proof.core.step s with
    | next u =>
      rw [hs] at h
      rw [Nat.succ_add, run_succ (s := s) (t := u) _ hs]
      exact ih h
    | fault r => rw [hs] at h; cases h
    | refused r => rw [hs] at h; cases h

end Sys2Proof.Machine
end

