-- ==== Sys2Proof/Laws/PerInstr.lean ====
section
/-! SUPPORT. Statements about every instruction, made one constructor at a time. Family OpcodeRow: the word the encoder builds
matches the mask and pattern of the instruction's row of spec/opcode_table.json. -/

namespace Sys2Proof.Laws

/-! ### What a row's mask leaves of each format (R132) -/

theorem formatNNN_mask (op : BitVec 4) (nnn : Addr12) : formatNNN op nnn &&& 0xF000 = op.zeroExtend 16 <<< 12 := by
  apply BitVec.eq_of_getLsbD_eq
  intro i hi
  interval_cases i <;> simp [formatNNN]

theorem formatXKK_mask (op : BitVec 4) (x : Reg) (kk : Byte) :
    formatXKK op x kk &&& 0xF000 = op.zeroExtend 16 <<< 12 := by
  apply BitVec.eq_of_getLsbD_eq
  intro i hi
  interval_cases i <;> simp [formatXKK]

theorem formatXKK_mask_selector (op : BitVec 4) (x : Reg) (kk : Byte) :
    formatXKK op x kk &&& 0xF0FF = op.zeroExtend 16 <<< 12 ||| kk.zeroExtend 16 := by
  apply BitVec.eq_of_getLsbD_eq
  intro i hi
  interval_cases i <;> simp [formatXKK]

theorem formatXYN_mask (op : BitVec 4) (x y : Reg) (n : BitVec 4) :
    formatXYN op x y n &&& 0xF000 = op.zeroExtend 16 <<< 12 := by
  apply BitVec.eq_of_getLsbD_eq
  intro i hi
  interval_cases i <;> simp [formatXYN]

theorem formatXYN_mask_selector (op : BitVec 4) (x y : Reg) (n : BitVec 4) :
    formatXYN op x y n &&& 0xF00F = op.zeroExtend 16 <<< 12 ||| n.zeroExtend 16 := by
  apply BitVec.eq_of_getLsbD_eq
  intro i hi
  interval_cases i <;> simp [formatXYN]

namespace OpcodeRow

/-- The encoder's word matches the instruction's row of the opcode table. -/
def Statement (i : Instr) : Prop := encode i &&& i.row.mask = i.row.pattern

theorem cls : Statement .cls := rfl
theorem ret : Statement .ret := rfl
theorem jp (nnn : Addr12) : Statement (.jp nnn) := (formatNNN_mask _ _).trans rfl
theorem call (nnn : Addr12) : Statement (.call nnn) := (formatNNN_mask _ _).trans rfl
theorem seI (x : Reg) (kk : Byte) : Statement (.seI x kk) := (formatXKK_mask _ _ _).trans rfl
theorem sneI (x : Reg) (kk : Byte) : Statement (.sneI x kk) := (formatXKK_mask _ _ _).trans rfl
theorem seR (x : Reg) (y : Reg) : Statement (.seR x y) := (formatXYN_mask_selector _ _ _ _).trans rfl
theorem ldI (x : Reg) (kk : Byte) : Statement (.ldI x kk) := (formatXKK_mask _ _ _).trans rfl
theorem addI (x : Reg) (kk : Byte) : Statement (.addI x kk) := (formatXKK_mask _ _ _).trans rfl
theorem ldR (x : Reg) (y : Reg) : Statement (.ldR x y) := (formatXYN_mask_selector _ _ _ _).trans rfl
theorem or (x : Reg) (y : Reg) : Statement (.or x y) := (formatXYN_mask_selector _ _ _ _).trans rfl
theorem and (x : Reg) (y : Reg) : Statement (.and x y) := (formatXYN_mask_selector _ _ _ _).trans rfl
theorem xor (x : Reg) (y : Reg) : Statement (.xor x y) := (formatXYN_mask_selector _ _ _ _).trans rfl
theorem addR (x : Reg) (y : Reg) : Statement (.addR x y) := (formatXYN_mask_selector _ _ _ _).trans rfl
theorem sub (x : Reg) (y : Reg) : Statement (.sub x y) := (formatXYN_mask_selector _ _ _ _).trans rfl
theorem shr (x : Reg) (y : Reg) : Statement (.shr x y) := (formatXYN_mask_selector _ _ _ _).trans rfl
theorem subn (x : Reg) (y : Reg) : Statement (.subn x y) := (formatXYN_mask_selector _ _ _ _).trans rfl
theorem shl (x : Reg) (y : Reg) : Statement (.shl x y) := (formatXYN_mask_selector _ _ _ _).trans rfl
theorem sneR (x : Reg) (y : Reg) : Statement (.sneR x y) := (formatXYN_mask_selector _ _ _ _).trans rfl
theorem ldIdx (nnn : Addr12) : Statement (.ldIdx nnn) := (formatNNN_mask _ _).trans rfl
theorem jpV0 (nnn : Addr12) : Statement (.jpV0 nnn) := (formatNNN_mask _ _).trans rfl
theorem rnd (x : Reg) (kk : Byte) : Statement (.rnd x kk) := (formatXKK_mask _ _ _).trans rfl
theorem drw (x : Reg) (y : Reg) (n : Nat) : Statement (.drw x y n) := (formatXYN_mask _ _ _ _).trans rfl
theorem skp (x : Reg) : Statement (.skp x) := (formatXKK_mask_selector _ _ _).trans rfl
theorem sknp (x : Reg) : Statement (.sknp x) := (formatXKK_mask_selector _ _ _).trans rfl
theorem ldVxDt (x : Reg) : Statement (.ldVxDt x) := (formatXKK_mask_selector _ _ _).trans rfl
theorem ldVxK (x : Reg) : Statement (.ldVxK x) := (formatXKK_mask_selector _ _ _).trans rfl
theorem ldDtVx (x : Reg) : Statement (.ldDtVx x) := (formatXKK_mask_selector _ _ _).trans rfl
theorem ldStVx (x : Reg) : Statement (.ldStVx x) := (formatXKK_mask_selector _ _ _).trans rfl
theorem addIdx (x : Reg) : Statement (.addIdx x) := (formatXKK_mask_selector _ _ _).trans rfl
theorem ldF (x : Reg) : Statement (.ldF x) := (formatXKK_mask_selector _ _ _).trans rfl
theorem ldB (x : Reg) : Statement (.ldB x) := (formatXKK_mask_selector _ _ _).trans rfl
theorem stRegs (x : Reg) : Statement (.stRegs x) := (formatXKK_mask_selector _ _ _).trans rfl
theorem ldRegs (x : Reg) : Statement (.ldRegs x) := (formatXKK_mask_selector _ _ _).trans rfl

end OpcodeRow

end Sys2Proof.Laws
end

