-- ==== Sys2Proof/Tests/Slice0.lean ====
section
/-! SUPPORT. Tests: expected results from spec/95_test_vectors.md (the vector's id stands beside each) or worked by hand from the
named rule; and for every statement with hypotheses, a concrete state and operands that meet them. -/

open Sys2Proof Sys2Proof.Machine Sys2Proof.Claims

namespace Sys2Proof.Tests

/-! ### Helpers -/

/-- Phase Running, PC = pc, the word at pc, the rest as after reset (the start state of spec/95). -/
def runningAt (pc : Word) (w : Nat) : State := (State.reset.setPC pc).withFetchWord 16 w

/-- As `runningAt` at 0x300. -/
def start (w : Nat) : State := runningAt 0x300 w

/-- Puts bytes in memory. -/
def poke (a : Nat) (bytes : List Byte) (s : State) : State := s.setMem (s.mem.writeBytes a bytes)

/-- The state one step later. -/
def after (s : State) : State :=
  match step s with
  | .next t => t
  | .fault _ => s
  | .refused _ => s

/-- The state an instruction leaves. -/
def execNext (i : Instr) (s : State) : State :=
  match exec i s with
  | .next t => t
  | .fault _ => s
  | .refused _ => s

/-! ### Well-formedness: one ill-formed term for the one check -/

theorem test_wellFormed_refuses_height_16 : (Instr.drw 0 0 16).wellFormed = false := by decide
theorem test_wellFormed_accepts_height_15 : (Instr.drw 0 0 15).wellFormed = true := by decide

/-! ### Decoding: every constructor, its word's bits written out from the patterns of R132 and R134 -/

theorem test_decode_family_0 :
    decode 0b0000000011100000 = .instr .cls ∧ decode 0b0000000011101110 = .instr .ret ∧
      decode 0b0000000111100000 = .gap .system := by decide
theorem test_decode_family_1 : decode 0b0001101010111100 = .instr (.jp 0xABC) := by decide
theorem test_decode_family_2 : decode 0b0010001000001010 = .instr (.call 0x20A) := by decide
theorem test_decode_family_3 : decode 0b0011001101000010 = .instr (.seI 3 0x42) := by decide
theorem test_decode_family_4 : decode 0b0100001101000010 = .instr (.sneI 3 0x42) := by decide
theorem test_decode_family_5 :
    decode 0b0101000100100000 = .instr (.seR 1 2) ∧ decode 0b0101000100100001 = .gap .skipEqual := by decide
theorem test_decode_family_6 : decode 0b0110010001111111 = .instr (.ldI 4 0x7F) := by decide
theorem test_decode_family_7 : decode 0b0111001000000011 = .instr (.addI 2 0x03) := by decide
theorem test_decode_family_8 :
    decode 0b1000000100100000 = .instr (.ldR 1 2) ∧ decode 0b1000000100100001 = .instr (.or 1 2) ∧
      decode 0b1000000100100010 = .instr (.and 1 2) ∧ decode 0b1000000100100011 = .instr (.xor 1 2) ∧
      decode 0b1000000100100100 = .instr (.addR 1 2) ∧ decode 0b1000000100100101 = .instr (.sub 1 2) ∧
      decode 0b1000000100100110 = .instr (.shr 1 2) ∧ decode 0b1000000100100111 = .instr (.subn 1 2) ∧
      decode 0b1000000100101110 = .instr (.shl 1 2) ∧ decode 0b1000000100101000 = .gap .alu := by decide
theorem test_decode_family_9 :
    decode 0b1001000100100000 = .instr (.sneR 1 2) ∧ decode 0b1001000100100001 = .gap .skipNotEqual := by decide
theorem test_decode_family_A : decode 0b1010000100100011 = .instr (.ldIdx 0x123) := by decide
theorem test_decode_family_B : decode 0b1011001100000001 = .instr (.jpV0 0x301) := by decide
theorem test_decode_family_C : decode 0b1100001000001111 = .instr (.rnd 2 0x0F) := by decide
theorem test_decode_family_D : decode 0b1101010010100101 = .instr (.drw 4 10 5) := by decide
theorem test_decode_family_E :
    decode 0b1110010110011110 = .instr (.skp 5) ∧ decode 0b1110010110100001 = .instr (.sknp 5) ∧
      decode 0b1110010110011111 = .gap .keys := by decide
theorem test_decode_family_F :
    decode 0b1111010000000111 = .instr (.ldVxDt 4) ∧ decode 0b1111001100001010 = .instr (.ldVxK 3) ∧
      decode 0b1111010000010101 = .instr (.ldDtVx 4) ∧ decode 0b1111010000011000 = .instr (.ldStVx 4) ∧
      decode 0b1111001000011110 = .instr (.addIdx 2) ∧ decode 0b1111101000101001 = .instr (.ldF 10) ∧
      decode 0b1111000100110011 = .instr (.ldB 1) ∧ decode 0b1111001001010101 = .instr (.stRegs 2) ∧
      decode 0b1111010101100101 = .instr (.ldRegs 5) ∧ decode 0b1111000011111111 = .gap .misc := by decide
/-- Two bytes, big-endian (R86), the rest handed back. -/
theorem test_decode_bytes : decodeBytes [0x22, 0x0A, 0x61] = some (.instr (.call 0x20A), [0x61]) := by decide
theorem test_decode_bytes_short : decodeBytes [0x22] = none := by decide
theorem test_decode_table_word : decodeTableWord 16 0x8014 = some (.addR 0 1) := by decide
theorem test_encode_drw : encode (.drw 13 14 15) = 0xDDEF := by decide

/-! ### One step of every instruction -/

/-- C1 of spec/95 -/
theorem test_call :
    let t := after (runningAt 0x204 0x220A)
    t.PC = 0x20A ∧ t.SP = 1 ∧ t.byteAt 0xEA2 = 0x02 ∧ t.byteAt 0xEA3 = 0x04 := by decide

/-- C6 -/
theorem test_call_too_deep :
    let t := after ((start 0x2400).setSP 0xAF)
    t.fault = some ⟨.writeRange, 0x300, 0x1000⟩ ∧ t.PC = 0x300 ∧ t.SP = 0xAF := by decide

/-- C10: the popped address is all ones -/
theorem test_ret :
    let t := after (poke 0xEA2 [0xFF, 0xFF] ((start 0x00EE).setSP 1))
    t.PC = 0x0001 ∧ t.SP = 0 := by decide

/-- C3 -/
theorem test_ret_empty_stack :
    let t := after (start 0x00EE)
    t.PC = 0x0002 ∧ t.SP = 0xFF := by decide

/-- C11 -/
theorem test_jp :
    (after (start 0x1ABC)).PC = 0x0ABC := by decide

/-- C14: no mask to 12 bits -/
theorem test_jpV0 :
    (after ((start 0xBFFF).setV 0 0xFF)).PC = 0x10FE := by decide

/-- C15 and C16 -/
theorem test_seI :
    (after ((start 0x3342).setV 3 0x42)).PC = 0x304 ∧ (after ((start 0x3342).setV 3 0x41)).PC = 0x302 := by decide

/-- C17 and C18 -/
theorem test_sneI :
    (after ((start 0x4342).setV 3 0x42)).PC = 0x302 ∧ (after ((start 0x4342).setV 3 0x41)).PC = 0x304 := by decide

/-- C19 and C20 -/
theorem test_seR :
    (after (((start 0x5120).setV 1 7).setV 2 7)).PC = 0x304 ∧ (after (((start 0x5120).setV 1 7).setV 2 8)).PC = 0x302 := by decide

/-- C22 and C23 -/
theorem test_sneR :
    (after (((start 0x9120).setV 1 7).setV 2 8)).PC = 0x304 ∧ (after (((start 0x9120).setV 1 7).setV 2 7)).PC = 0x302 := by decide

/-- A1 -/
theorem test_ldI :
    let t := after (start 0x647F)
    t.getV 4 = 0x7F ∧ t.PC = 0x302 := by decide

/-- A3 -/
theorem test_addI_wraps_without_flag :
    let t := after (((start 0x7401).setV 15 1).setV 4 0xFF)
    t.getV 4 = 0 ∧ t.getV 15 = 1 := by decide

/-- A4 -/
theorem test_ldR :
    (after ((start 0x8010).setV 1 0x3C)).getV 0 = 0x3C := by decide

/-- A27: VF is left alone -/
theorem test_or :
    let t := after ((((start 0x8011).setV 0 0x10).setV 15 1).setV 1 0x02)
    t.getV 0 = 0x12 ∧ t.getV 15 = 1 := by decide

/-- A6 -/
theorem test_and :
    (after (((start 0x8012).setV 0 0xF0).setV 1 0x3C)).getV 0 = 0x30 := by decide

/-- A7 -/
theorem test_xor :
    (after (((start 0x8013).setV 0 0xF0).setV 1 0x3C)).getV 0 = 0xCC := by decide

/-- A9 -/
theorem test_addR_carry :
    let t := after (((start 0x8014).setV 0 0xC8).setV 1 0x64)
    t.getV 0 = 0x2C ∧ t.getV 15 = 1 := by decide

/-- A12: the flag wins -/
theorem test_addR_into_VF :
    (after (((start 0x8F14).setV 15 0x80).setV 1 0x90)).getV 15 = 1 := by decide

/-- A15 -/
theorem test_sub_borrow :
    let t := after (((start 0x8015).setV 0 3).setV 1 10)
    t.getV 0 = 0xF9 ∧ t.getV 15 = 0 := by decide

/-- A16 -/
theorem test_sub_equal :
    let t := after (((start 0x8015).setV 0 5).setV 1 5)
    t.getV 0 = 0 ∧ t.getV 15 = 1 := by decide

/-- A19 -/
theorem test_shr_ignores_y :
    let t := after (((start 0x8376).setV 3 0x81).setV 7 0xFF)
    t.getV 3 = 0x40 ∧ t.getV 15 = 1 := by decide

/-- A22 -/
theorem test_subn_borrow :
    let t := after (((start 0x8017).setV 0 5).setV 1 3)
    t.getV 0 = 0xFE ∧ t.getV 15 = 0 := by decide

/-- A23 -/
theorem test_subn_equal_is_strict :
    let t := after (((start 0x8017).setV 0 5).setV 1 5)
    t.getV 0 = 0 ∧ t.getV 15 = 0 := by decide

/-- A24 -/
theorem test_shl :
    let t := after ((start 0x830E).setV 3 0x81)
    t.getV 3 = 0x02 ∧ t.getV 15 = 1 := by decide

/-- A28: the event carries rnd = 0xA7 -/
theorem test_rnd :
    let t := after ((start 0xC20F).setSchedule [.step 0xA7])
    t.getV 2 = 0x07 ∧ t.schedule = [] := by decide

/-- M1 -/
theorem test_ldIdx :
    (after (start 0xA123)).I = 0x0123 := by decide

/-- M3 -/
theorem test_addIdx_overflow :
    let t := after (((start 0xF21E).setI 0xFFFF).setV 2 1)
    t.I = 0 ∧ t.getV 15 = 1 := by decide

/-- M5 -/
theorem test_addIdx_VF_operand :
    let t := after (((start 0xFF1E).setI 0x100).setV 15 0x20)
    t.I = 0x120 ∧ t.getV 15 = 0 := by decide

/-- M7 -/
theorem test_ldF_unmasked :
    (after ((start 0xFA29).setV 10 0xFF)).I = 0x04FB := by decide

/-- M8 -/
theorem test_ldB :
    let t := after (((start 0xF033).setV 0 0x7B).setI 0x400)
    t.byteAt 0x400 = 1 ∧ t.byteAt 0x401 = 2 ∧ t.byteAt 0x402 = 3 ∧ t.I = 0x400 := by decide

/-- M11 -/
theorem test_ldB_range :
    let t := after (((start 0xF033).setV 0 0x7B).setI 0xFFE)
    t.fault = some ⟨.writeRange, 0x300, 0x1000⟩ ∧ t.byteAt 0xFFE = 0 := by decide

/-- M13 -/
theorem test_stRegs_top_of_memory :
    let t := after (((start 0xF055).setV 0 0xAA).setI 0xFFF)
    t.byteAt 0xFFF = 0xAA ∧ t.I = 0xFFF := by decide

/-- M14: the byte inside memory is not written -/
theorem test_stRegs_range :
    let t := after ((((start 0xF155).setV 0 0xAA).setV 1 0xBB).setI 0xFFF)
    t.fault = some ⟨.writeRange, 0x300, 0x1000⟩ ∧ t.byteAt 0xFFF = 0 := by decide

/-- M15 -/
theorem test_ldRegs :
    let t := after (poke 0x400 [1, 2, 3, 4] ((start 0xF265).setI 0x400))
    t.getV 0 = 1 ∧ t.getV 1 = 2 ∧ t.getV 2 = 3 ∧ t.getV 3 = 0 := by decide

/-- M18 -/
theorem test_ldRegs_range :
    (after ((start 0xF565).setI 0xFFB)).fault = some ⟨.readRange, 0x300, 0x1000⟩ := by decide

/-- S1 -/
theorem test_cls :
    let t := after (poke 0xF00 [0xFF] (poke 0xFFF [0x01] (start 0x00E0)))
    t.byteAt 0xF00 = 0 ∧ t.byteAt 0xFFF = 0 ∧ t.outputs = [.present] := by decide +kernel

/-- S2 -/
theorem test_drw_straddles_two_bytes :
    let t := after (poke 0x400 [0xFF] ((((start 0xD011).setV 0 3).setV 1 2).setI 0x400))
    t.byteAt 0xF10 = 0x1F ∧ t.byteAt 0xF11 = 0xE0 ∧ t.getV 15 = 0 ∧ t.outputs = [.present] := by decide

/-- S3 -/
theorem test_drw_collides :
    let t := after (poke 0xF10 [0x1F, 0xE0] (poke 0x400 [0xFF] ((((start 0xD011).setV 0 3).setV 1 2).setI 0x400)))
    t.byteAt 0xF10 = 0 ∧ t.byteAt 0xF11 = 0 ∧ t.getV 15 = 1 := by decide

/-- K1 and K2 -/
theorem test_skp :
    (after (((start 0xE59E).setV 5 10).setKey 10 true)).PC = 0x304 ∧ (after ((start 0xE59E).setV 5 10)).PC = 0x302 := by decide

/-- K5 -/
theorem test_skp_key_index :
    (after ((start 0xE59E).setV 5 0x10)).fault = some ⟨.keyIndex, 0x300, 0x10⟩ := by decide

/-- K3 and K4 -/
theorem test_sknp :
    (after (((start 0xE5A1).setV 5 10).setKey 10 true)).PC = 0x302 ∧ (after ((start 0xE5A1).setV 5 10)).PC = 0x304 := by decide

/-- K7 -/
theorem test_ldVxK_stale_press :
    let t := after (((start 0xF30A).setEdge true).setLastKey 2)
    t.kstate = .awaiting ∧ t.edge = false ∧ t.PC = 0x300 := by decide

/-- K9 -/
theorem test_ldVxK_acknowledges :
    let t := after ((((start 0xF30A).setKstate .awaiting).setEdge true).setLastKey 7)
    t.getV 3 = 7 ∧ t.PC = 0x302 ∧ t.kstate = .idle ∧ t.edge = false := by decide

/-- K11 -/
theorem test_ldVxDt :
    (after ((start 0xF407).setDT 0x3C)).getV 4 = 0x3C := by decide

/-- K12 -/
theorem test_ldDtVx :
    let t := after ((start 0xF415).setV 4 0x3C)
    t.DT = 0x3C ∧ t.ST = 0 := by decide

/-- K13 -/
theorem test_ldStVx :
    let t := after ((start 0xF418).setV 4 5)
    t.ST = 5 ∧ t.DT = 0 ∧ t.sound = 5 := by decide

/-! ### Events, gaps and the fetch -/

/-- X3 -/
theorem test_gap :
    (after (start 0x01E0)).PC = 0x302 := by decide

/-- E12: the word 0x0000 at 0xFFE is a gap -/
theorem test_last_fetch :
    (after (runningAt 0xFFE 0)).PC = 0x1000 := by decide

/-- E13 and E15 -/
theorem test_fetch_range :
    (after ((start 0).setPC 0xFFF)).fault = some ⟨.fetchRange, 0xFFF, 0x1000⟩ ∧
      (after ((start 0).setPC 0xFFFF)).fault = some ⟨.fetchRange, 0xFFFF, 0xFFFF⟩ := by decide

/-- E1 -/
theorem test_tick :
    let t := after (((start 0).setDT 5).setSchedule [.tick])
    t.DT = 4 ∧ t.ST = 0 := by decide

/-- E3 and E4 -/
theorem test_key_down_then_up :
    let t := after (after ((start 0).setSchedule [.key 7 true, .key 7 false]))
    t.getKey 7 = false ∧ t.edge = true ∧ t.lastKey = 7 := by decide

/-- E8 -/
theorem test_load_short_read :
    let t := after (State.reset.setSchedule [.load [0x12, 0x00] false])
    t.phase = .loadFailed ∧ t.byteAt 0x200 = 0 ∧ t.outputs = [.loadAnswer false] := by decide

/-- P1, first step -/
theorem test_load_then_step :
    let t := after (after (State.reset.setSchedule [.load [0x60, 0x05] true]))
    t.getV 0 = 5 ∧ t.PC = 0x202 ∧ t.phase = .running := by decide

/-- E9: a second Load -/
theorem test_second_load_refused :
    let t := after ((start 0).setSchedule [.load [0x12] true])
    t.phase = .running ∧ t.byteAt 0x200 = 0 ∧ t.outputs = [.loadAnswer false] := by decide

/-- the canonical form of memory at reset, and after a store -/
theorem test_reset_memory_canonical :
    State.reset.mem.wf = true ∧ (poke 0x400 [1, 0, 2] State.reset).mem.wf = true := by decide

/-- writing what an unlisted address reads as unlists it -/
theorem test_write_back_initial_value :
    poke 0x400 [0] (poke 0x400 [1] State.reset) = State.reset ∧ poke 0 [0xF0] State.reset = State.reset := by decide

/-! ### Witnesses: what the statements assume can be met, each clause at a boundary of its range -/

theorem test_witness_DecodeAfterEncode : (Instr.drw 15 0 15).WellFormed := by decide
theorem test_witness_EncodeAfterDecode : decode 0xFFFF = .gap .misc ∧ decode 0xFF65 = .instr (.ldRegs 15) := by decide
theorem test_witness_OpcodeTableGovernsDecode :
    decode 0x8FFE = .instr (.shl 15 15) ∧ (0x8FFE : Word) &&& (Instr.shl 0 0).row.mask = (Instr.shl 0 0).row.pattern := by
  decide
theorem test_witness_GapWordsByFamily :
    (0x0FFF : Word).toNat / 0x1000 = 0x0 ∧ (0x8000 : Word).toNat / 0x1000 = 0x8 ∧ (0xE0A1 : Word).toNat / 0x1000 = 0xE ∧
      (0xFFFF : Word).toNat / 0x1000 = 0xF ∧ (0x5000 : Word).toNat / 0x1000 = 0x5 ∧
      (0x9001 : Word).toNat / 0x1000 = 0x9 ∧ (0xDFFF : Word).toNat / 0x1000 ∉ [0x0, 0x5, 0x8, 0x9, 0xE, 0xF] := by decide

/-- A Step event is next. -/
def stepping (s : State) : State := s.setSchedule [.step 0xA7]

theorem stepping_next (s : State) (h : s.ended = false) : StepNext 0xA7 [] (stepping s) := ⟨h, rfl⟩

/-- Each clause: gate closed by the phase and by a fault; the last fetchable address and the first that is not; an
instruction and a gap. -/
theorem test_witness_StepFetchesDecodesExecutes :
    (StepNext 0xA7 [] (stepping State.reset) ∧ ¬ CanStep (stepping State.reset)) ∧
    (StepNext 0xA7 [] (stepping ((start 0).setFault (some ⟨.fetchRange, 0x300, 0x1000⟩))) ∧
      ¬ CanStep (stepping ((start 0).setFault (some ⟨.fetchRange, 0x300, 0x1000⟩)))) ∧
    (StepNext 0xA7 [] (stepping ((start 0).setPC 0xFFF)) ∧ CanStep (stepping ((start 0).setPC 0xFFF)) ∧
      0xFFF < (stepping ((start 0).setPC 0xFFF)).PC.toNat + 1) ∧
    (StepNext 0xA7 [] (stepping (runningAt 0xFFE 0x8014)) ∧ CanStep (stepping (runningAt 0xFFE 0x8014)) ∧
      (stepping (runningAt 0xFFE 0x8014)).PC.toNat + 1 ≤ 0xFFF ∧
      decode (wordAtPC (stepping (runningAt 0xFFE 0x8014))) = .instr (.addR 0 1)) ∧
    decode (wordAtPC (stepping (runningAt 0xFFE 0x8018))) = .gap .alu := by
  unfold StepNext CanStep; decide

theorem test_witness_UnscheduledStepTakesFreeRandomByte : (start 0xC2FF).ended = false ∧ (start 0xC2FF).schedule = [] := by
  decide
theorem test_witness_EventsRunOldestFirst :
    ((start 0).setSchedule [.tick, .key 1 true]).ended = false ∧
      ((start 0).setSchedule [.tick, .key 1 true]).schedule = .tick :: [.key 1 true] := by decide
theorem test_witness_TerminateEndsTheRun :
    (((start 0).setSchedule [.terminate, .tick]).ended = false ∧
      ((start 0).setSchedule [.terminate, .tick]).schedule = .terminate :: [.tick]) ∧
    ((start 0).setEnded true).ended = true ∧
    (((start 0).setSchedule [.load [0x12] true]).ended = false ∧ (Event.load [0x12] true) ≠ .terminate) ∧
    ((start 0).ended = false ∧ (start 0).schedule = []) := by decide
theorem test_witness_GapWordIsNoOp :
    StepNext 0xA7 [] (stepping (runningAt 0xFFE 0)) ∧ CanStep (stepping (runningAt 0xFFE 0)) ∧
      (stepping (runningAt 0xFFE 0)).PC.toNat + 1 ≤ 0xFFF ∧
      decode (wordAtPC (stepping (runningAt 0xFFE 0))) = .gap .system := by
  unfold StepNext CanStep; decide
theorem test_witness_NoStepBeforeSuccessfulLoad :
    (StepNext 0xA7 [] (stepping State.reset) ∧ (stepping State.reset).phase = .constructed) ∧
    (StepNext 0xA7 [] (stepping (State.reset.setPhase .loadFailed)) ∧
      (stepping (State.reset.setPhase .loadFailed)).phase = .loadFailed) := by
  unfold StepNext; decide
/-- E6, E7, E8 and E9 of spec/95: the largest ROM that fits, one byte more, a short read, a second Load. -/
theorem test_witness_LoadAcceptsOrRejects :
    (State.reset.phase = .constructed ∧ (List.replicate 3232 (0x12 : Byte)).length ≤ 3232) ∧
    3232 < (List.replicate 3233 (0x12 : Byte)).length ∧ (start 0).phase ≠ .constructed ∧
    (State.reset.setSchedule [.load [0x12, 0x00] false]).schedule = .load [0x12, 0x00] false :: [] ∧
    (State.reset.setSchedule [.load [0x12, 0x00] false]).ended = false := by
  simp only [List.length_replicate]; decide
theorem test_witness_LoadHappensOnce :
    (after (State.reset.setSchedule [.load [] true])).phase ≠ (State.reset.setSchedule [.load [] true]).phase ∧
    ((start 0).phase ≠ .constructed ∧ ((start 0).setSchedule [.load [1] true]).schedule = .load [1] true :: []) ∧
    ((stepping State.reset).phase ≠ .running ∧ (stepping State.reset).schedule = .step 0xA7 :: []) ∧
    (State.reset.setSchedule [.tick]).schedule = .tick :: [] ∧
    (State.reset.setSchedule [.key 15 true]).schedule = .key 15 true :: [] ∧ State.reset.ended = false := by decide
/-- L1.5 of spec/95: from 5 in 3 Ticks, and from 2 in 5 Ticks. -/
theorem test_witness_TicksCountDownToZero :
    ((((start 0).setDT 5).setST 2).setSchedule (List.replicate 5 .tick)).schedule = List.replicate 5 .tick ++ [] ∧
      (start 0).ended = false := by decide
theorem test_witness_KeyEventUpdatesKeyboard :
    ((start 0).setSchedule [.key 15 true]).schedule = .key 15 true :: [] ∧
      ((start 0).setSchedule [.key 0 false]).schedule = .key 0 false :: [] ∧ (start 0).ended = false := by decide

/-- A state that has faulted (E16 of spec/95). -/
def faulted : State := ((start 0).setFault (some ⟨.writeRange, 0x300, 0x1000⟩)).setDT 3

theorem test_witness_FaultIsTerminal :
    faulted.ended = false ∧ faulted.fault = some ⟨.writeRange, 0x300, 0x1000⟩ ∧
      (faulted.setSchedule [.step 0]).schedule = .step 0 :: [] ∧ (faulted.setSchedule [.tick]).schedule = .tick :: [] ∧
      (faulted.setSchedule [.key 3 true]).schedule = .key 3 true :: [] ∧
      (faulted.setSchedule [.terminate]).schedule = .terminate :: [] := by decide
theorem test_witness_FaultEntryIsPrecise :
    (((start 0).setSP 0xB0).fault = none ∧
      exec .ret ((start 0).setSP 0xB0) = .next (execNext .ret ((start 0).setSP 0xB0)) ∧
      (execNext .ret ((start 0).setSP 0xB0)).fault ≠ none) ∧
    (StepNext 0xA7 [] (stepping ((start 0).setPC 0xFFF)) ∧ (stepping ((start 0).setPC 0xFFF)).fault = none ∧
      step (stepping ((start 0).setPC 0xFFF)) = .next (after (stepping ((start 0).setPC 0xFFF))) ∧
      (after (stepping ((start 0).setPC 0xFFF))).fault ≠ none) := by
  refine ⟨⟨by decide, rfl, by decide⟩, ⟨rfl, rfl⟩, by decide, rfl, by decide⟩
/-- Each faulting instruction at the first value that faults and, where there is one, at the last that does not. -/
theorem test_witness_FaultCausesAndRecords :
    faultOf .ret ((start 0).setSP 0xB0) = some (.readRange, 0x1000) ∧ faultOf .ret ((start 0).setSP 0xAF) = none ∧
    faultOf (.call 0) ((start 0).setSP 0xAF) = some (.writeRange, 0x1000) ∧
    faultOf (.call 0) ((start 0).setSP 0xFE) = some (.writeRange, 0x109E) ∧
    faultOf (.call 0) ((start 0).setSP 0xAE) = none ∧ faultOf (.call 0) ((start 0).setSP 0xFF) = none ∧
    faultOf (.ldB 0) ((start 0).setI 0xFFE) = some (.writeRange, 0x1000) ∧ faultOf (.ldB 0) ((start 0).setI 0xFFD) = none ∧
    faultOf (.stRegs 15) ((start 0).setI 0xFFFF) = some (.writeRange, 0xFFFF) ∧
    faultOf (.stRegs 15) ((start 0).setI 0xFF0) = none ∧
    faultOf (.ldRegs 5) ((start 0).setI 0xFFB) = some (.readRange, 0x1000) ∧
    faultOf (.ldRegs 5) ((start 0).setI 0xFFA) = none ∧
    faultOf (.skp 5) ((start 0).setV 5 0x10) = some (.keyIndex, 0x10) ∧ faultOf (.skp 5) ((start 0).setV 5 15) = none ∧
    faultOf (.sknp 5) ((start 0).setV 5 0xFF) = some (.keyIndex, 0xFF) ∧ faultOf (.sknp 5) ((start 0).setV 5 15) = none ∧
    faultOf (.drw 0 1 2) (((start 0).setV 1 31).setI 0x400) = some (.readRange, 0x1000) ∧
    faultOf (.drw 0 1 1) ((((start 0).setV 0 60).setV 1 31).setI 0x400) = some (.readRange, 0x1000) ∧
    faultOf (.drw 0 1 2) ((start 0).setI 0xFFF) = some (.readRange, 0x1000) ∧
    faultOf (.drw 0 1 1) (((start 0).setV 0 255).setI 0xFFF) = none := by decide
theorem test_witness_FaultCausesAndRecords_gap_and_fetch :
    decode 0x01E0 = .gap .system ∧ StepNext 0xA7 [] (stepping ((start 0).setPC 0xFFF)) ∧
      CanStep (stepping ((start 0).setPC 0xFFF)) ∧ 0xFFF < (stepping ((start 0).setPC 0xFFF)).PC.toNat + 1 := by
  unfold StepNext CanStep; decide

/-- SP at the edges: 0xAE and 0xFF push inside memory; 0xAF and 0xFE do not. -/
theorem test_witness_CallPushesItsAddress :
    (((start 0).setSP 0xAE).SP.toNat + 1) % 256 < 0xB0 ∧ (((start 0).setSP 0xFF).SP.toNat + 1) % 256 < 0xB0 ∧
    (0xAF ≤ ((start 0).setSP 0xAF).SP.toNat ∧ ((start 0).setSP 0xAF).SP.toNat ≤ 0xFE) ∧
    (0xAF ≤ ((start 0).setSP 0xFE).SP.toNat ∧ ((start 0).setSP 0xFE).SP.toNat ≤ 0xFE) := by decide
theorem test_witness_ReturnPopsAndGoesOnAfterTheCall :
    ((start 0).setSP 0xAF).SP.toNat < 0xB0 ∧ 0xB0 ≤ ((start 0).setSP 0xB0).SP.toNat := by decide
/-- The call at the last depth that fits, and the state it leaves taken as the state of the return. -/
theorem test_witness_CallThenReturnRoundTrip :
    let s := (start 0).setSP 0xAE
    let t := execNext (.call 0x400) s
    (s.SP.toNat + 1) % 256 < 0xB0 ∧ exec (.call 0x400) s = .next t ∧ t.SP = s.SP + 1 ∧
      t.byteAt (stackAddr t.SP) = t.byteAt (stackAddr t.SP) ∧
      t.byteAt (stackAddr t.SP + 1) = t.byteAt (stackAddr t.SP + 1) :=
  ⟨by decide, rfl, by decide, rfl, rfl⟩
theorem test_witness_StackEntryPlaces :
    (1 ≤ (1 : Byte).toNat ∧ (47 : Byte).toNat ≤ 47) ∧ (48 ≤ (48 : Byte).toNat ∧ (0xAF : Byte).toNat ≤ 0xAF) ∧
      0xB0 ≤ (0xB0 : Byte).toNat := by decide
theorem test_witness_SameRegisterCases : (14 : Reg) ≠ 15 ∧ (0 : Reg) ≠ 15 := by decide
theorem test_witness_SkipsPassOneInstruction :
    ((start 0).setV 3 0x42).getV 3 = 0x42 ∧ ((start 0).setV 3 0x42).getV 3 ≠ ((start 0).setV 3 0x42).getV 4 := by decide
theorem test_witness_DecimalDigitsStored :
    ((start 0).setI 0xFFD).I.toNat + 2 ≤ 0xFFF ∧ 0xFFE ≤ ((start 0).setI 0xFFE).I.toNat ∧
      0xFFE ≤ ((start 0).setI 0xFFFF).I.toNat := by decide
theorem test_witness_RegistersStored :
    ((start 0).setI 0xFF0).I.toNat + (15 : Reg).val ≤ 0xFFF ∧ 0xFFF < ((start 0).setI 0xFF1).I.toNat + (15 : Reg).val ∧
      ((start 0).setI 0xFFF).I.toNat + (0 : Reg).val ≤ 0xFFF := by decide
theorem test_witness_RegistersLoaded :
    ((start 0).setI 0xFFA).I.toNat + (5 : Reg).val ≤ 0xFFF ∧ 0xFFF < ((start 0).setI 0xFFB).I.toNat + (5 : Reg).val := by
  decide

/-! #### Draws -/

/-- Fifteen rows at X = 255, Y = 13, the lowest rows that fit, the sprite's bytes right below the first byte drawn on. -/
def drawing : State := poke 0xF78 [0xFF, 0x81] ((((start 0).setV 0 255).setV 1 13).setI 0xF78)

theorem drawing_apart : SpriteApart 0 1 15 drawing := by
  have h : ∀ r, r < 15 → ∀ q, q < 15 → drawing.I.toNat + r ∉ rowTargets (drawing.getV 0) (drawing.getV 1) q := by decide
  exact fun r q hr hq => h r hr q hq

theorem test_witness_DrawXorsRowsInOrder : 15 < 16 ∧ DrawInRange 0 1 15 drawing := by
  unfold DrawInRange; decide
/-- A sprite that overlaps the display bytes it draws on is in range too (R305). -/
theorem test_witness_DrawXorsRowsInOrder_overlap : DrawInRange 0 1 2 ((start 0).setI 0xF00) := by
  unfold DrawInRange; decide
/-- S8 of spec/95: Y = 31 and n = 2 fault on row 1. -/
theorem test_witness_DrawXorsRowsInOrder_fault :
    (∀ q, q < 1 → rowFault 0x400 0 31 q = none) ∧ rowFault 0x400 0 31 1 = some 0x1000 := by decide
theorem test_witness_DrawTouchesOnlyItsDisplayBytes :
    DrawInRange 0 1 15 drawing ∧ exec (.drw 0 1 15) drawing = .next (execNext (.drw 0 1 15) drawing) ∧
      (∀ r, r < 15 → 0xF86 ∉ rowTargets (drawing.getV 0) (drawing.getV 1) r) ∧
      0xF87 ∈ rowTargets (drawing.getV 0) (drawing.getV 1) 0 := by
  refine ⟨by unfold DrawInRange; decide, rfl, by decide, by decide⟩
theorem test_witness_SpriteBitsLandOnLinearDisplayBits : DrawInRange 0 1 15 drawing ∧ SpriteApart 0 1 15 drawing :=
  ⟨by unfold DrawInRange; decide, drawing_apart⟩
theorem test_witness_DrawingTwiceRestores :
    let t := execNext (.drw 0 1 15) drawing
    DrawInRange 0 1 15 drawing ∧ SpriteApart 0 1 15 drawing ∧ exec (.drw 0 1 15) drawing = .next t ∧ t.I = drawing.I ∧
      t.getV 0 = drawing.getV 0 ∧ t.getV 1 = drawing.getV 1 ∧
      displayBit drawing (64 * 13 + 255) = false ∧ displayBit t (64 * 13 + 255) = true := by
  refine ⟨by unfold DrawInRange; decide, drawing_apart, rfl, by decide, by decide, by decide, by decide,
    by decide +kernel⟩
theorem test_witness_FrameShowsTheDisplayRegion : 255 < 256 ∧ 63 < 64 ∧ 31 < 32 := by decide

/-! #### Keys -/

theorem test_witness_KeySkipsReadLevels :
    (((start 0).setV 5 15).getV 5).toNat = (15 : Key).val ∧ 15 < (((start 0).setV 5 16).getV 5).toNat := by decide
theorem test_witness_BlockingKeyReadStates :
    (start 0).kstate = .idle ∧
    (((start 0).setKstate .awaiting).kstate = .awaiting ∧ ((start 0).setKstate .awaiting).edge = false) ∧
    ((((start 0).setKstate .awaiting).setEdge true).kstate = .awaiting ∧
      (((start 0).setKstate .awaiting).setEdge true).edge = true) := by decide
/-- L1.6 of spec/95: F30A at 0x200, two Steps with no key, then key 7 down. -/
theorem test_witness_KeyWaitRetriesUntilKeyDown :
    let s := (runningAt 0x200 0xF30A).setSchedule [.step 1, .step 2, .key 7 true, .step 3]
    s.ended = false ∧ CanStep s ∧ s.PC.toNat + 1 ≤ 0xFFF ∧ decode (wordAtPC s) = .instr (.ldVxK 3) ∧ s.kstate = .idle ∧
      ([1, 2] : List Byte) ≠ [] ∧ s.schedule = ([1, 2] : List Byte).map .step ++ .key 7 true :: .step 3 :: [] := by
  unfold CanStep; decide

theorem test_witness_SoundTimerIsReadByNoInstruction :
    ((start 0xF415).setSchedule [.tick]).ended = false ∧ (start 0xF418).ended = false := by decide

/-! #### The whole machine -/

theorem test_witness_OnlyDestinationsAndFlagsWriteV :
    let s := (start 0).setV 1 0xFF
    exec (.addR 0 1) s = .next (execNext (.addR 0 1) s) ∧ (execNext (.addR 0 1) s).getV 0 ≠ s.getV 0 := ⟨rfl, by decide⟩
theorem test_witness_OnlyListedInstructionsWriteEachPart :
    exec (.ldB 0) ((start 0).setI 0x400) = .next (execNext (.ldB 0) ((start 0).setI 0x400)) := rfl
theorem test_witness_FlagWritersLeaveZeroOrOne :
    let s := ((start 0).setI 0xFFFF).setV 2 1
    writesFlag (.addIdx 2) = true ∧ faultOf (.addIdx 2) s = none ∧
      exec (.addIdx 2) s = .next (execNext (.addIdx 2) s) := ⟨rfl, by decide, rfl⟩
theorem test_witness_NextPcTable :
    faultOf .ret ((start 0).setSP 0xAF) = none ∧ faultOf .ret ((start 0).setSP 0xB0) ≠ none ∧
      decode 0x9121 = .gap .skipNotEqual := by decide
theorem test_witness_PresentRaisedByClearAndDrawOnly :
    exec (.drw 0 1 0) (start 0) = .next (execNext (.drw 0 1 0) (start 0)) ∧ presents (.drw 0 1 0) = true ∧
      faultOf (.drw 0 1 0) (start 0) = none ∧ presents (.stRegs 0) = false := ⟨rfl, rfl, rfl, rfl⟩
theorem test_witness_PresentRaisedByClearAndDrawOnly_other_steps :
    (¬ CanStep (stepping State.reset) ∧ step (stepping State.reset) = .next (after (stepping State.reset))) ∧
    (0xFFF < (stepping ((start 0).setPC 0xFFF)).PC.toNat + 1 ∧
      step (stepping ((start 0).setPC 0xFFF)) = .next (after (stepping ((start 0).setPC 0xFFF)))) ∧
    (decode (wordAtPC (stepping (start 0x01E0))) = .gap .system ∧
      step (stepping (start 0x01E0)) = .next (after (stepping (start 0x01E0)))) :=
  ⟨⟨by unfold CanStep; decide, rfl⟩, ⟨by decide, rfl⟩, ⟨by decide, rfl⟩⟩
theorem test_witness_EveryStepKeepsTheInvariant :
    State.reset.Inv ∧ step State.reset = .next (after State.reset) :=
  ⟨⟨by decide, fun _ h => (Option.some_ne_none _ h.symm).elim, fun _ => ⟨rfl, rfl, rfl, rfl, rfl, rfl, rfl⟩⟩, rfl⟩
/-- In phase Running, with a fault recorded. -/
theorem test_witness_EveryStepKeepsTheInvariant_faulted :
    faulted.mem.wf = true ∧ faulted.fault = some ⟨.writeRange, 0x300, 0x1000⟩ ∧
      (⟨.writeRange, 0x300, 0x1000⟩ : FaultRecord).Sound faulted ∧ faulted.phase = .running :=
  ⟨by decide, rfl, ⟨rfl, by decide⟩, rfl⟩
theorem test_witness_MemoryIsCanonicalPlainRam :
    Memory.wf [(0xFFF, 1)] = true ∧ Memory.wf (Memory.write [(0xFFF, 1)] 0xFFF 0) = true ∧
      Memory.wf [(0x1000, 1)] = false ∧ Memory.wf [(0x400, 0)] = false ∧ Memory.wf [(2, 1), (1, 1)] = false := by decide
theorem test_witness_StaleEdgeAndKeyAreUnobservable :
    SameUpToStaleKey (start 0xF30A) ((start 0xF30A).setEdge true |>.setLastKey 2) ∧
      step (start 0xF30A) = .next (after (start 0xF30A)) :=
  ⟨⟨rfl, fun h => absurd h (by decide)⟩, rfl⟩
theorem test_witness_StateWhenFirstStepStarts :
    (∀ e ∈ [Event.tick, .key 15 true, .step 0xA7, .key 15 false], isBeforeLoad e = true) ∧
      (∀ e ∈ [Event.tick, .key 0 true], isDeviceEvent e = true) ∧
      (List.replicate 3232 (0x12 : Byte)).length ≤ 3232 ∧ ([] : List Byte).length ≤ 3232 := by
  simp only [List.length_replicate]; decide
/-- F155 at 0x300 with I = 0x302, V0 V1 = 6A 7F: the stored word is 6A7F. -/
theorem test_witness_StoredWordIsFetchedByTheNextStep :
    let s := ((((start 0xF155).setI 0x302).setV 0 0x6A).setV 1 0x7F).setSchedule [.step 0xA7, .step 0xA8]
    StepNext 0xA7 (.step 0xA8 :: []) s ∧ CanStep s ∧ 1 ≤ (1 : Reg).val ∧ decode (wordAtPC s) = .instr (.stRegs 1) ∧
      s.I = s.PC + 2 ∧ s.I.toNat + (1 : Reg).val ≤ 0xFFF ∧ s.PC.toNat + 3 ≤ 0xFFF ∧
      decode (BitVec.ofNat 16 ((s.getV 0).toNat * 256 + (s.getV 1).toNat)) = .instr (.ldI 10 0x7F) := by
  unfold StepNext CanStep; decide

end Sys2Proof.Tests
end

section
/-! PROOFS of the statements on the state and the step (10_state.md).

## What an instruction can do

Every instruction answers a next state: the fault that `faultOf` names, recorded and nothing else, or the state `effectOf`
names. The statements about every instruction rest on `exec_cases` and on lemmas about `effectOf`. -/

open Sys2Proof.Claims

namespace Sys2Proof.Machine

/-- The state an instruction leaves where it raises no fault (R50). -/
def effectOf (i : Instr) (s : State) : State :=
  match i with
  | .cls => advance (present (s.setMem (clearDisplay s.mem)))
  | .ret => jump (s.mem.readWord (stackAddr s.SP) + 2) (s.setSP (s.SP - 1))
  | .jp nnn => jump (addrOperand nnn) s
  | .call nnn =>
    jump (addrOperand nnn) ((s.setMem (s.mem.writeWord (stackAddr (s.SP + 1)) s.PC)).setSP (s.SP + 1))
  | .seI x kk => skipIf (decide (s.getV x = kk)) s
  | .sneI x kk => skipIf (decide (s.getV x ≠ kk)) s
  | .seR x y => skipIf (decide (s.getV x = s.getV y)) s
  | .ldI x kk => finish x kk s
  | .addI x kk => finish x (s.getV x + kk) s
  | .ldR x y => finish x (s.getV y) s
  | .or x y => finish x (s.getV x ||| s.getV y) s
  | .and x y => finish x (s.getV x &&& s.getV y) s
  | .xor x y => finish x (s.getV x ^^^ s.getV y) s
  | .addR x y => finishFlag x (s.getV x + s.getV y) (carryFlag (s.getV x) (s.getV y)) s
  | .sub x y => finishFlag x (s.getV x - s.getV y) (subFlag (s.getV x) (s.getV y)) s
  | .shr x _ => finishFlag x (s.getV x >>> 1) (shrFlag (s.getV x)) s
  | .subn x y => finishFlag x (s.getV y - s.getV x) (subnFlag (s.getV x) (s.getV y)) s
  | .shl x _ => finishFlag x (s.getV x <<< 1) (shlFlag (s.getV x)) s
  | .sneR x y => skipIf (decide (s.getV x ≠ s.getV y)) s
  | .ldIdx nnn => advance (s.setI (addrOperand nnn))
  | .jpV0 nnn => jump (addrOperand nnn + byteOperand (s.getV 0)) s
  | .rnd x kk => finish x (s.rnd &&& kk) s
  | .drw x y n =>
    let drawn := drawSprite s.I.toNat (s.getV x) (s.getV y) n s.mem
    advance (present (setFlag (collisionFlag drawn.2) (s.setMem drawn.1)))
  | .skp x => skipIf (s.getKey (keyOperand (s.getV x)) == true) s
  | .sknp x => skipIf (s.getKey (keyOperand (s.getV x)) == false) s
  | .ldVxDt x => finish x s.DT s
  | .ldVxK x =>
    match s.kstate, s.edge with
    | .idle, _ => (s.setKstate .awaiting).setEdge false
    | .awaiting, false => s
    | .awaiting, true => finish x (keyByte s.lastKey) ((s.setEdge false).setKstate .idle)
  | .ldDtVx x => advance (s.setDT (s.getV x))
  | .ldStVx x => advance (s.setST (s.getV x))
  | .addIdx x => advance (setFlag (indexFlag s.I (s.getV x)) (s.setI (s.I + byteOperand (s.getV x))))
  | .ldF x => advance (s.setI (glyphAddr (s.getV x)))
  | .ldB x => advance (s.setMem (s.mem.writeBytes s.I.toNat (bcdDigits (s.getV x))))
  | .stRegs x => advance (s.setMem (s.mem.writeBytes s.I.toNat (regBytes s x)))
  | .ldRegs x => advance (loadRegs s.I.toNat (regsUpTo x) s)

/-- `t`, or `s` with the fault recorded where there is one (R402). -/
def orFault (f : Option (FaultCode × Nat)) (s t : State) : State :=
  match f with
  | none => t
  | some (code, addr) => s.setFault (some ⟨code, s.PC, addr⟩)

/-- A checked instruction in one equation, as `checked_cases` has it in two cases. -/
theorem checked_eq (code : FaultCode) (as : List Nat) (s t : State) :
    checked code as s t = .next (orFault ((firstAbove as).map fun a => (code, a)) s t) := by
  rw [checked]
  cases firstAbove as <;> rfl

/-- The checks of one row of a draw are those of R303, in order. -/
theorem firstAbove_rowAddrs (base : Word) (X Y : Byte) (r : Nat) :
    firstAbove (rowAddrs base X Y r) = rowFault base.toNat X.toNat Y.toNat r := by
  rw [rowAddrs, rowTargets, rowFault, spriteOffset, spriteTarget]
  by_cases ho : X.toNat % 8 = 0 <;>
    simp [ho, firstAbove_cons, Config.memSize, Config.displayBase, Nat.lt_iff_add_one_le, Nat.mul_comm, Nat.add_assoc]

/-- The first failing check of a draw is the one of its first failing row (R404). -/
theorem firstAbove_drawAddrs (base : Word) (X Y : Byte) (n : Nat) :
    firstAbove (drawAddrs base X Y n) = (List.range n).findSome? (rowFault base.toNat X.toNat Y.toNat) := by
  simp only [drawAddrs, firstAbove_flatMap, firstAbove_rowAddrs]

/-- An instruction that checks `as` has its fault from that check. -/
theorem checked_of_faultOf {i : Instr} {code : FaultCode} {as : List Nat} {s : State}
    (h : faultOf i s = (firstAbove as).map fun a => (code, a)) (t : State) :
    checked code as s t = .next (orFault (faultOf i s) s t) := by
  rw [checked_eq, h]

theorem faultOf_ret (s : State) :
    faultOf .ret s = (firstAbove (stackAddrs s.SP)).map fun a => (.readRange, a) := by
  rw [faultOf, firstAbove_stackAddrs]
  split <;> rfl

theorem faultOf_call (nnn : Addr12) (s : State) :
    faultOf (.call nnn) s = (firstAbove (stackAddrs (s.SP + 1))).map fun a => (.writeRange, a) := by
  rw [faultOf, firstAbove_stackAddrs]
  by_cases h : 0xAF ≤ s.SP.toNat ∧ s.SP.toNat ≤ 0xFE
  · have hsp : (s.SP + 1).toNat = s.SP.toNat + 1 := by bv_omega
    rw [if_pos h, hsp, if_pos (by omega)]; rfl
  · rw [if_neg h, if_neg (by bv_omega)]; rfl

theorem faultOf_ldB (x : Reg) (s : State) :
    faultOf (.ldB x) s = (firstAbove (indexAddrs s.I 3)).map fun a => (.writeRange, a) := by
  rw [faultOf, firstAbove_indexAddrs]
  by_cases h : 0xFFE ≤ s.I.toNat
  · rw [if_pos h, if_pos (by omega)]; rfl
  · rw [if_neg h, if_neg (by omega)]; rfl

theorem faultOf_stRegs (x : Reg) (s : State) :
    faultOf (.stRegs x) s = (firstAbove (indexAddrs s.I (x.val + 1))).map fun a => (.writeRange, a) := by
  rw [faultOf, firstAbove_indexAddrs]
  split <;> rfl

theorem faultOf_ldRegs (x : Reg) (s : State) :
    faultOf (.ldRegs x) s = (firstAbove (indexAddrs s.I (x.val + 1))).map fun a => (.readRange, a) := by
  rw [faultOf, firstAbove_indexAddrs]
  split <;> rfl

theorem faultOf_drw (x y : Reg) (n : Nat) (s : State) :
    faultOf (.drw x y n) s =
      (firstAbove (drawAddrs s.I (s.getV x) (s.getV y) n)).map fun a => (.readRange, a) := by
  rw [faultOf, firstAbove_drawAddrs]

/-- The key skips in one equation (R341, R342). -/
theorem keySkip_eq (x : Reg) (level : Bool) (s : State) :
    keySkip x level s =
      .next (orFault (faultOf (.skp x) s) s (skipIf (s.getKey (keyOperand (s.getV x)) == level) s)) := by
  rw [keySkip, faultOf]
  split <;> rfl

/-- Fx0A in the three states of the blocking read (R426). -/
theorem execLdVxK_eq (x : Reg) (s : State) :
    execLdVxK x s = .next (orFault (faultOf (.ldVxK x) s) s (effectOf (.ldVxK x) s)) := by
  simp only [faultOf, effectOf, orFault]
  cases hk : s.kstate with
  | idle => rw [execLdVxK_idle hk]
  | awaiting =>
    cases he : s.edge with
    | false => rw [execLdVxK_retry hk he]
    | true => rw [execLdVxK_ack hk he]; rfl

/-- Every instruction in one equation: its fault recorded, or its effect. -/
theorem exec_eq (i : Instr) (s : State) : exec i s = .next (orFault (faultOf i s) s (effectOf i s)) := by
  cases i with
  | ret => exact checked_of_faultOf (faultOf_ret s) _
  | call nnn => exact checked_of_faultOf (faultOf_call nnn s) _
  | drw x y n => exact checked_of_faultOf (faultOf_drw x y n s) _
  | ldB x => exact checked_of_faultOf (faultOf_ldB x s) _
  | stRegs x => exact checked_of_faultOf (faultOf_stRegs x s) _
  | ldRegs x => exact checked_of_faultOf (faultOf_ldRegs x s) _
  | skp x => exact keySkip_eq x true s
  | sknp x => exact keySkip_eq x false s
  | ldVxK x => exact execLdVxK_eq x s
  | _ => rfl

/-- What an instruction can do: record its fault and nothing else, or have its effect. -/
theorem exec_cases (i : Instr) (s : State) :
    (∃ code addr, faultOf i s = some (code, addr) ∧ exec i s = .next (s.setFault (some ⟨code, s.PC, addr⟩))) ∨
      (faultOf i s = none ∧ exec i s = .next (effectOf i s)) := by
  rw [exec_eq]
  cases hf : faultOf i s with
  | none => exact .inr ⟨rfl, rfl⟩
  | some f => exact .inl ⟨f.1, f.2, rfl, rfl⟩

/-! ### The frame of an instruction -/

/-! ### The frame of an instruction -/

theorem skipIf_sameBut (c : Bool) (s : State) : SameBut [.PC] s (skipIf c s) := by
  rw [skipIf_eq]
  exact (SameBut.refl _ _).setPC _ (by simp)

theorem finish_sameBut (x : Reg) (v : Byte) (s : State) : SameBut [.V, .PC] s (finish x v s) :=
  ((SameBut.refl _ _).setV _ _ (by simp)).setPC _ (by simp)

theorem finishFlag_sameBut (x : Reg) (v f : Byte) (s : State) : SameBut [.V, .PC] s (finishFlag x v f s) :=
  (((SameBut.refl _ _).setV _ _ (by simp)).setV _ _ (by simp)).setPC _ (by simp)

/-- Without a fault an instruction changes V, PC and the parts listed for it at most. -/
theorem effectOf_sameBut (i : Instr) (s : State) : SameBut (.V :: .PC :: otherParts i) s (effectOf i s) := by
  have same := SameBut.refl (.V :: .PC :: otherParts i) s
  cases i with
  | seI | sneI | seR | sneR | skp | sknp => exact (skipIf_sameBut _ _).mono (by simp)
  | ldI | addI | ldR | or | and | xor | rnd | ldVxDt => exact finish_sameBut _ _ _
  | addR | sub | shr | subn | shl => exact finishFlag_sameBut _ _ _ _
  | jp | jpV0 => exact same.setPC _ (by simp)
  | ret => exact (same.setSP _ (by simp [otherParts])).setPC _ (by simp)
  | call => exact ((same.setMem _ (by simp [otherParts])).setSP _ (by simp [otherParts])).setPC _ (by simp)
  | cls => exact ((same.setMem _ (by simp [otherParts])).addOutput _ (by simp [otherParts])).setPC _ (by simp)
  | drw =>
    exact (((same.setMem _ (by simp [otherParts])).setV _ _ (by simp)).addOutput _ (by simp [otherParts])).setPC _
      (by simp)
  | ldIdx | ldF => exact (same.setI _ (by simp [otherParts])).setPC _ (by simp)
  | addIdx => exact ((same.setI _ (by simp [otherParts])).setV _ _ (by simp)).setPC _ (by simp)
  | ldB | stRegs => exact (same.setMem _ (by simp [otherParts])).setPC _ (by simp)
  | ldRegs => exact ((loadRegs_sameBut _ _ _).mono (by simp)).setPC _ (by simp)
  | ldDtVx => exact (same.setDT _ (by simp [otherParts])).setPC _ (by simp)
  | ldStVx => exact (same.setST _ (by simp [otherParts])).setPC _ (by simp)
  | ldVxK =>
    rw [effectOf]
    split
    · exact (same.setKstate _ (by simp [otherParts])).setEdge _ (by simp [otherParts])
    · exact same
    · exact ((same.setEdge _ (by simp [otherParts])).setKstate _ (by simp [otherParts])).trans
        ((finish_sameBut _ _ _).mono (by simp))

/-- Every instruction answers a next state that keeps every part not listed for it, but V, PC and the fault record. -/
theorem exec_sameBut {i : Instr} {s t : State} (h : exec i s = .next t) :
    SameBut (.V :: .PC :: .fault :: otherParts i) s t := by
  obtain ⟨code, addr, -, he⟩ | ⟨-, he⟩ := exec_cases i s <;> cases h.symm.trans he
  · exact (SameBut.refl _ _).setFault _ (by simp)
  · exact (effectOf_sameBut i s).mono (by simp +contextual)

/-- Settles O48: a fault writes the record alone, an effect the parts listed. -/
theorem onlyListedInstructionsWriteEachPart : Obligations.OnlyListedInstructionsWriteEachPart :=
  fun _ _ _ => exec_sameBut

/-! ### V registers -/

/-- An effect changes V only in its destinations and, for a flag-writing instruction, in VF (R39, R40). -/
theorem getV_effectOf {i : Instr} {r : Reg} (hd : ¬ isDestination i r) (hf : ¬ (r = 15 ∧ writesFlag i = true))
    (s : State) : (effectOf i s).getV r = s.getV r := by
  cases i with
  | seI | sneI | seR | sneR | skp | sknp => exact skipIf_sameBut _ _ .V (by simp) r
  | ldI | addI | ldR | or | and | xor | rnd | ldVxDt => simp_all [effectOf, isDestination]
  | addR | sub | shr | subn | shl => simp_all [effectOf, isDestination, writesFlag]
  | drw | addIdx => simp_all [effectOf, writesFlag]
  | ldRegs => simp_all [effectOf, isDestination, getV_loadRegs, mem_regsUpTo]
  | ldVxK => rw [effectOf]; split <;> simp_all [isDestination]
  | _ => simp [effectOf]

/-- Settles O47: a fault leaves every register, an effect all but its destinations and flag. -/
theorem onlyDestinationsAndFlagsWriteV : Obligations.OnlyDestinationsAndFlagsWriteV := by
  intro i s t r h hne
  by_contra hnot
  rw [not_or] at hnot
  obtain ⟨code, addr, -, he⟩ | ⟨-, he⟩ := exec_cases i s <;> cases h.symm.trans he
  · exact hne rfl
  · exact hne (getV_effectOf hnot.1 hnot.2 s)

/-- A flag-writing instruction ends by writing a flag to VF, after any result (R40, R42). -/
theorem effectOf_flag {i : Instr} (h : writesFlag i = true) (s : State) :
    ∃ c, (effectOf i s).getV 15 = flagByte c := by
  cases i with
  | addR | sub | shr | subn | shl | drw | addIdx => exact ⟨_, by simp [effectOf]; rfl⟩
  | _ => cases h

/-- Settles O49: VF holds a flag byte, which is 0 or 1. -/
theorem flagWritersLeaveZeroOrOne : Obligations.FlagWritersLeaveZeroOrOne := by
  intro i s t hw hf h
  obtain ⟨c, hc⟩ := effectOf_flag hw s
  rw [exec_eq, hf] at h
  cases h
  exact hc ▸ flagByte_zero_or_one c

/-! ### The next PC -/

theorem toNat_skipIf_PC (c : Bool) (s : State) :
    (skipIf c s).PC.toNat = (s.PC.toNat + if c then 4 else 2) % 65536 := by
  cases c <;> simp [skipIf_eq, BitVec.toNat_add]

theorem toNat_addrOperand (nnn : Addr12) : (addrOperand nnn).toNat = nnn.toNat := by
  rw [addrOperand]; bv_omega

theorem toNat_addrOperand_add_byteOperand (nnn : Addr12) (b : Byte) :
    (addrOperand nnn + byteOperand b).toNat = nnn.toNat + b.toNat := by
  rw [addrOperand, byteOperand]; bv_omega

/-- R45's table over the effects. -/
theorem toNat_effectOf_PC (i : Instr) (s : State) : (effectOf i s).PC.toNat = nextPC i s := by
  cases i with
  | seI | sneI | seR | sneR | skp => rw [effectOf, toNat_skipIf_PC]; simp [nextPC, keyOperand]
  | sknp x =>
    rw [effectOf, toNat_skipIf_PC, nextPC, ← keyOperand]
    cases s.getKey (keyOperand (s.getV x)) <;> rfl
  | jp => exact toNat_addrOperand _
  | call => exact toNat_addrOperand _
  | jpV0 => exact toNat_addrOperand_add_byteOperand _ _
  | ret => simp [effectOf, nextPC, Memory.readWord, Memory.toNat_composeWord, BitVec.toNat_add, State.byteAt]; rfl
  | ldVxK => rw [effectOf, nextPC]; split <;> simp_all [BitVec.toNat_add]
  | ldRegs => simp [effectOf, nextPC, BitVec.toNat_add, loadRegs_fields]
  | _ => simp [effectOf, nextPC, BitVec.toNat_add]

/-- Settles O50: an effect goes where R45's table says, a fault leaves PC, a decode gap advances it. -/
theorem nextPcTable : Obligations.NextPcTable := by
  refine ⟨fun i s => ⟨_, exec_eq i s, fun hf => ?_, fun hf => ?_⟩, fun w g s hw => ⟨_, execWord_gap hw s, ?_⟩⟩
  · rw [hf]
    exact toNat_effectOf_PC i s
  · obtain ⟨f, hf⟩ := Option.ne_none_iff_exists'.1 hf
    rw [hf]; rfl
  · exact BitVec.toNat_add _ _

/-! ## Steps and events -/

/-- With nothing scheduled the step is a Step event with the next free value (R429). -/
theorem step_unscheduled {s : State} (h : s.ended = false) (hs : s.schedule = []) :
    step s = onStep (Config.freeRnd s.rndCount) (s.setRndCount (s.rndCount + 1)) := by
  simp [step, h, processNext, hs, react]

theorem fetchWord_eq_wordAtPC (s : State) : fetchWord s = wordAtPC s := fetchWord_eq s

/-- With the gate open, a fetch past 0xFFF is recorded (R401). -/
theorem onStep_fetchFault {s : State} (hc : CanStep s) (hpc : 0xFFF < s.PC.toNat + 1) (rnd : Byte) :
    onStep rnd s =
      .next (s.setFault (some ⟨.fetchRange, s.PC, if 0xFFF < s.PC.toNat then s.PC.toNat else 0x1000⟩)) :=
  (onStep_open hc.1 hc.2 rnd).trans (runStep_fetchFault hpc rnd)

/-- With the gate open, a fetch inside memory runs the word at PC (R50). -/
theorem onStep_fetched {s : State} (hc : CanStep s) (hpc : s.PC.toNat + 1 ≤ 0xFFF) (rnd : Byte) :
    onStep rnd s = execWord (wordAtPC s) (s.setRnd rnd) := by
  rw [onStep_open hc.1 hc.2, runStep_fetched hpc, fetchWord_eq_wordAtPC]

/-- What a Step event can do: nothing with its gate closed, record a faulting fetch, or run the word at PC (R50). -/
theorem onStep_cases (rnd : Byte) (s : State) :
    (¬ CanStep s ∧ onStep rnd s = .next s) ∨
    (CanStep s ∧ 0xFFF < s.PC.toNat + 1 ∧ onStep rnd s =
      .next (s.setFault (some ⟨.fetchRange, s.PC, if 0xFFF < s.PC.toNat then s.PC.toNat else 0x1000⟩))) ∨
    (CanStep s ∧ s.PC.toNat + 1 ≤ 0xFFF ∧ onStep rnd s = execWord (wordAtPC s) (s.setRnd rnd)) := by
  by_cases hc : CanStep s
  · rcases Nat.lt_or_ge 0xFFF (s.PC.toNat + 1) with hpc | hpc
    · exact .inr (.inl ⟨hc, hpc, onStep_fetchFault hc hpc rnd⟩)
    · exact .inr (.inr ⟨hc, hpc, onStep_fetched hc hpc rnd⟩)
  · exact .inl ⟨hc, onStep_closed hc rnd⟩

/-- What one fetched word can do: run as an instruction, or advance PC as a decode gap (R52). -/
theorem execWord_cases (w : Word) (s : State) :
    (∃ i, decode w = .instr i ∧ execWord w s = exec i s) ∨
      (∃ g, decode w = .gap g ∧ execWord w s = .next (s.setPC (s.PC + 2))) := by
  cases h : decode w with
  | instr i => exact .inl ⟨i, rfl, execWord_instr h s⟩
  | gap g => exact .inr ⟨g, rfl, execWord_gap h s⟩

theorem step_of_stepNext {s : State} {rnd : Byte} {es : List Event} (h : StepNext rnd es s) :
    step s = onStep rnd (s.setSchedule es) :=
  step_of_schedule h.1 h.2

/-- Settles O7: the three cases of a Step event, on the state with the event taken off the schedule. -/
theorem stepFetchesDecodesExecutes : Obligations.StepFetchesDecodesExecutes := by
  intro s rnd es h
  rw [step_of_stepNext h]
  refine ⟨fun hc => onStep_closed (s := s.setSchedule es) hc rnd,
    fun hc hpc => onStep_fetchFault (s := s.setSchedule es) hc hpc rnd, fun hc hpc => ?_⟩
  rw [onStep_fetched (s := s.setSchedule es) hc hpc rnd]
  exact ⟨fun i hi => execWord_instr hi _, fun g hg => execWord_gap hg _⟩

/-- Settles O11: the state with the event taken off, rnd latched and PC advanced. -/
theorem gapWordIsNoOp : Obligations.GapWordIsNoOp := by
  intro s rnd es g h hc hpc hg
  have hstep := ((stepFetchesDecodesExecutes s rnd es h).2.2 hc hpc).2 g hg
  refine ⟨_, hstep, BitVec.toNat_add _ _, ?_⟩
  exact (((SameBut.refl _ _).setSchedule _ (by simp)).setRnd _ (by simp)).setPC _ (by simp)

/-- Settles O12: outside Running the gate is closed. -/
theorem noStepBeforeSuccessfulLoad : Obligations.NoStepBeforeSuccessfulLoad := by
  intro s rnd es h hphase
  refine (stepFetchesDecodesExecutes s rnd es h).1 fun hc => ?_
  rcases hphase with hp | hp <;> cases hp.symm.trans hc.1

/-! ### What an event leaves of the host's side -/

/-- No instruction changes the schedule or the end of the run. -/
theorem exec_next_keeps_host (i : Instr) (s : State) :
    ∃ t, exec i s = .next t ∧ t.schedule = s.schedule ∧ t.ended = s.ended := by
  have he := exec_eq i s
  have hframe := exec_sameBut he
  have hhost : Part.host ∉ .V :: .PC :: .fault :: otherParts i := by cases i <;> simp [otherParts]
  have hended : Part.ended ∉ .V :: .PC :: .fault :: otherParts i := by cases i <;> simp [otherParts]
  exact ⟨_, he, (hframe .host hhost).1, hframe .ended hended⟩

/-- A Step event answers a next state and changes neither the rest of the schedule nor the end of the run. -/
theorem onStep_next_keeps_host (rnd : Byte) (s : State) :
    ∃ t, onStep rnd s = .next t ∧ t.schedule = s.schedule ∧ t.ended = s.ended := by
  obtain ⟨-, h⟩ | ⟨-, -, h⟩ | ⟨-, -, h⟩ := onStep_cases rnd s
  · exact ⟨_, h, rfl, rfl⟩
  · exact ⟨_, h, rfl, rfl⟩
  · obtain ⟨i, -, hw⟩ | ⟨g, -, hw⟩ := execWord_cases (wordAtPC s) (s.setRnd rnd)
    · rw [h, hw]
      exact exec_next_keeps_host i (s.setRnd rnd)
    · exact ⟨_, h.trans hw, rfl, rfl⟩

/-- What a Load can do, whatever the phase: answer, and on success store the bytes (R462). -/
theorem onLoad_cases (bytes : List Byte) (complete : Bool) (s : State) :
    (s.phase ≠ .constructed ∧ onLoad bytes complete s = s.addOutput (.loadAnswer false)) ∨
    (s.phase = .constructed ∧ (Config.romMax < bytes.length ∨ complete = false) ∧
      onLoad bytes complete s = (s.setPhase .loadFailed).addOutput (.loadAnswer false)) ∨
    (s.phase = .constructed ∧ bytes.length ≤ Config.romMax ∧ complete = true ∧ onLoad bytes complete s =
      ((s.setMem (s.mem.writeBytes Config.programBase bytes)).setPhase .running).addOutput (.loadAnswer true)) := by
  cases hp : s.phase with
  | constructed =>
    by_cases hr : Config.romMax < bytes.length ∨ complete = false
    · exact .inr (.inl ⟨rfl, hr, by simp only [onLoad, hp]; exact if_pos hr⟩)
    · refine .inr (.inr ⟨rfl, by omega, by simp_all, by simp only [onLoad, hp]; exact if_neg hr⟩)
  | running => exact .inl ⟨by simp, by simp [onLoad, hp]⟩
  | loadFailed => exact .inl ⟨by simp, by simp [onLoad, hp]⟩

/-- A Load leaves everything but memory, the phase and the outputs. -/
theorem onLoad_sameBut (bytes : List Byte) (complete : Bool) (s : State) :
    SameBut [.mem, .phase, .outputs] s (onLoad bytes complete s) := by
  have same := SameBut.refl [.mem, .phase, .outputs] s
  obtain ⟨-, h⟩ | ⟨-, -, h⟩ | ⟨-, -, -, h⟩ := onLoad_cases bytes complete s <;> rw [h]
  · exact same.addOutput _ (by simp)
  · exact (same.setPhase _ (by simp)).addOutput _ (by simp)
  · exact ((same.setMem _ (by simp)).setPhase _ (by simp)).addOutput _ (by simp)

/-- Every event answers a next state and leaves the rest of the schedule; only Terminate changes the end of the run. -/
theorem react_next_keeps_host (e : Event) (s : State) :
    ∃ t, react e s = .next t ∧ t.schedule = s.schedule ∧ (e ≠ .terminate → t.ended = s.ended) := by
  cases e with
  | load bytes complete =>
    have h := onLoad_sameBut bytes complete s
    exact ⟨_, rfl, (h .host (by simp)).1, fun _ => h .ended (by simp)⟩
  | step rnd =>
    obtain ⟨t, ht, hs, he⟩ := onStep_next_keeps_host rnd s
    exact ⟨t, ht, hs, fun _ => he⟩
  | tick => exact ⟨_, rfl, rfl, fun _ => rfl⟩
  | key k down =>
    have h := onKey_sameBut k down s
    exact ⟨_, rfl, (h .host (by simp)).1, fun _ => h .ended (by simp)⟩
  | terminate => exact ⟨_, rfl, rfl, fun h => absurd rfl h⟩

/-- Settles O9: no event touches what stands behind it on the schedule. -/
theorem eventsRunOldestFirst : Obligations.EventsRunOldestFirst := by
  intro s e es hend hs
  have hstep := step_of_schedule hend hs
  obtain ⟨t, ht, hsched, -⟩ := react_next_keeps_host e (s.setSchedule es)
  exact ⟨hstep, t, hstep.trans ht, hsched⟩

/-- Settles O10: only Terminate writes `ended`, and `step` reads it first. -/
theorem terminateEndsTheRun : Obligations.TerminateEndsTheRun := by
  refine ⟨fun s es hend hs => ?_, fun s hend => step_ended hend, fun s e es hend hs hne => ?_, fun s hend hs => ?_⟩
  · exact ⟨_, step_of_schedule hend hs, rfl,
      ((SameBut.refl _ _).setSchedule _ (by simp)).setEnded _ (by simp)⟩
  · obtain ⟨t, ht, -, he⟩ := react_next_keeps_host e (s.setSchedule es)
    exact ⟨t, (step_of_schedule hend hs).trans ht, (he hne).trans hend⟩
  · obtain ⟨t, ht, -, he⟩ := onStep_next_keeps_host (Config.freeRnd s.rndCount) (s.setRndCount (s.rndCount + 1))
    exact ⟨t, (step_unscheduled hend hs).trans ht, he.trans hend⟩

/-! ## Reset -/

/-- Settles O52: memory lists nothing, no fault is recorded, nothing has run. -/
theorem resetMeetsTheInvariant : Obligations.ResetMeetsTheInvariant :=
  ⟨Memory.wf_reset, fun f hf => absurd hf (Option.some_ne_none f).symm, fun _ => ⟨rfl, rfl, rfl, rfl, rfl, rfl, rfl⟩⟩

theorem byteAt_reset (a : Nat) : State.reset.byteAt a = Memory.initial a := rfl

/-- Settles O54: an unlisted address reads as the font below 0x050 and as zero above. -/
theorem resetValues : Obligations.ResetValues := by
  refine ⟨fun a ha => ?_, fun a ha _ => ?_, rfl, rfl, fun k => ?_, rfl, rfl, rfl, rfl, rfl⟩
  · rw [byteAt_reset, Memory.initial, if_pos (by simp only [Config.fontSize]; omega)]
  · rw [byteAt_reset, Memory.initial, if_neg (by simp only [Config.fontSize]; omega)]
  · simp [State.getKey, State.reset]

/-! ## Noninterference

A relation between states that hides some part of the state from the machine is a simulation: related states take the same
branch of every step and answer related states. The argument over the events is made once; what is left for a relation
is one field for each thing an event can do. -/

/-- Related states agree on what a step branches on, and everything an event does keeps them related. -/
structure Simulation (R : State → State → Prop) : Prop where
  mem_eq {s u} : R s u → u.mem = s.mem
  PC_eq {s u} : R s u → u.PC = s.PC
  phase_eq {s u} : R s u → u.phase = s.phase
  fault_eq {s u} : R s u → u.fault = s.fault
  schedule_eq {s u} : R s u → u.schedule = s.schedule
  rndCount_eq {s u} : R s u → u.rndCount = s.rndCount
  ended_eq {s u} : R s u → u.ended = s.ended
  faultOf_eq {s u} (i : Instr) : R s u → faultOf i u = faultOf i s
  rel_setSchedule {s u} (es : List Event) : R s u → R (s.setSchedule es) (u.setSchedule es)
  rel_setRndCount {s u} (n : Nat) : R s u → R (s.setRndCount n) (u.setRndCount n)
  rel_setRnd {s u} (b : Byte) : R s u → R (s.setRnd b) (u.setRnd b)
  rel_setFault {s u} (f : Option FaultRecord) : R s u → R (s.setFault f) (u.setFault f)
  rel_setPC {s u} (w : Word) : R s u → R (s.setPC w) (u.setPC w)
  rel_effectOf {s u} (i : Instr) : R s u → R (effectOf i s) (effectOf i u)
  rel_onLoad {s u} (bytes : List Byte) (complete : Bool) : R s u → R (onLoad bytes complete s) (onLoad bytes complete u)
  rel_onTick {s u} : R s u → R (onTick s) (onTick u)
  rel_onKey {s u} (k : Key) (down : Bool) : R s u → R (onKey k down s) (onKey k down u)
  rel_onTerminate {s u} : R s u → R (onTerminate s) (onTerminate u)

/-- Both outcomes are next states, and these are related. -/
def NextRelated (R : State → State → Prop) (a b : Result) : Prop := ∃ t v, a = .next t ∧ b = .next v ∧ R t v

namespace Simulation

variable {R : State → State → Prop} {s u : State}

theorem exec_related (hR : Simulation R) (h : R s u) (i : Instr) : NextRelated R (exec i s) (exec i u) := by
  refine ⟨_, _, exec_eq i s, exec_eq i u, ?_⟩
  rw [hR.faultOf_eq i h]
  cases faultOf i s with
  | none => exact hR.rel_effectOf i h
  | some f => simpa only [orFault, hR.PC_eq h] using hR.rel_setFault _ h

theorem execWord_related (hR : Simulation R) (h : R s u) (w : Word) :
    NextRelated R (execWord w s) (execWord w u) := by
  rw [execWord, execWord]
  cases decode w with
  | instr i => exact hR.exec_related h i
  | gap g => exact ⟨_, _, rfl, rfl, by simpa only [advance_eq, hR.PC_eq h] using hR.rel_setPC _ h⟩

theorem onStep_related (hR : Simulation R) (h : R s u) (rnd : Byte) :
    NextRelated R (onStep rnd s) (onStep rnd u) := by
  have hcan : CanStep u ↔ CanStep s := by rw [CanStep, CanStep, hR.phase_eq h, hR.fault_eq h]
  have hword : wordAtPC u = wordAtPC s := by simp only [wordAtPC, State.byteAt, hR.mem_eq h, hR.PC_eq h]
  obtain ⟨hc, hs⟩ | ⟨hc, hpc, hs⟩ | ⟨hc, hpc, hs⟩ := onStep_cases rnd s <;> rw [hs]
  · exact ⟨_, _, rfl, onStep_closed (mt hcan.1 hc) rnd, h⟩
  · refine ⟨_, _, rfl, onStep_fetchFault (hcan.2 hc) (hR.PC_eq h ▸ hpc) rnd, ?_⟩
    rw [hR.PC_eq h]
    exact hR.rel_setFault _ h
  · rw [onStep_fetched (hcan.2 hc) (hR.PC_eq h ▸ hpc), hword]
    exact hR.execWord_related (hR.rel_setRnd rnd h) _

theorem react_related (hR : Simulation R) (h : R s u) (e : Event) : NextRelated R (react e s) (react e u) := by
  cases e with
  | load bytes complete => exact ⟨_, _, rfl, rfl, hR.rel_onLoad bytes complete h⟩
  | step rnd => exact hR.onStep_related h rnd
  | tick => exact ⟨_, _, rfl, rfl, hR.rel_onTick h⟩
  | key k down => exact ⟨_, _, rfl, rfl, hR.rel_onKey k down h⟩
  | terminate => exact ⟨_, _, rfl, rfl, hR.rel_onTerminate h⟩

/-- Steps on a run that has not ended keep related states related. -/
theorem step_related (hR : Simulation R) (h : R s u) (hend : s.ended = false) : NextRelated R (step s) (step u) := by
  have hend' := (hR.ended_eq h).trans hend
  cases hs : s.schedule with
  | nil =>
    rw [step_unscheduled hend hs, step_unscheduled hend' ((hR.schedule_eq h).trans hs), hR.rndCount_eq h]
    exact hR.onStep_related (hR.rel_setRndCount _ h) _
  | cons e es =>
    rw [step_of_schedule hend hs, step_of_schedule hend' ((hR.schedule_eq h).trans hs)]
    exact hR.react_related (hR.rel_setSchedule es h) e

end Simulation

/-! ### The parts no instruction reads -/

/-- Overwrites ST, edge and last_key, which no instruction but Fx18 (it writes ST) and Fx0A (the other two) touches. -/
def State.setUnread (s : State) (v : Byte) (e : Bool) (k : Key) : State := ((s.setST v).setEdge e).setLastKey k

theorem faultOf_setUnread (i : Instr) (s : State) (v : Byte) (e : Bool) (k : Key) :
    faultOf i (s.setUnread v e k) = faultOf i s := by
  cases i <;> rfl

theorem skipIf_setUnread (c : Bool) (s : State) (v : Byte) (e : Bool) (k : Key) :
    skipIf c (s.setUnread v e k) = (skipIf c s).setUnread v e k := by
  cases c <;> rfl

theorem advance_setUnread (s : State) (v : Byte) (e : Bool) (k : Key) :
    advance (s.setUnread v e k) = (advance s).setUnread v e k := rfl

theorem loadRegs_setUnread (base : Nat) (rs : List Reg) (s : State) (v : Byte) (e : Bool) (k : Key) :
    loadRegs base rs (s.setUnread v e k) = (loadRegs base rs s).setUnread v e k := by
  induction rs generalizing s with
  | nil => rfl
  | cons q rs ih => exact ih (s.setV q (s.byteAt (base + q.val)))

/-- No effect but those of Fx18 and Fx0A reads or writes what `setUnread` overwrites. -/
theorem effectOf_setUnread {i : Instr} (hst : ∀ x, i ≠ .ldStVx x) (hkey : ∀ x, i ≠ .ldVxK x) (s : State) (v : Byte)
    (e : Bool) (k : Key) : effectOf i (s.setUnread v e k) = (effectOf i s).setUnread v e k := by
  cases i with
  | ldStVx x => exact absurd rfl (hst x)
  | ldVxK x => exact absurd rfl (hkey x)
  | seI | sneI | seR | sneR | skp | sknp => exact skipIf_setUnread _ _ _ _ _
  | ldRegs x =>
    exact (congrArg advance (loadRegs_setUnread s.I.toNat (regsUpTo x) s v e k)).trans (advance_setUnread _ v e k)
  | cls =>
    have hmem : (s.setUnread v e k).mem = s.mem := rfl
    rw [effectOf, effectOf, hmem]
    generalize clearDisplay s.mem = m
    rfl
  | _ => rfl

theorem onLoad_setUnread (bytes : List Byte) (complete : Bool) (s : State) (v : Byte) (e : Bool) (k : Key) :
    onLoad bytes complete (s.setUnread v e k) = (onLoad bytes complete s).setUnread v e k := by
  have hphase : (s.setUnread v e k).phase = s.phase := rfl
  unfold onLoad
  rw [hphase]
  split
  · split <;> rfl
  · rfl
  · rfl

/-- An update that commutes with `setUnread` and keeps edge and last_key commutes with a change of ST alone. -/
theorem comm_setST {f : State → State} {ps : List Part} {s : State} (hframe : SameBut ps s (f s))
    (hedge : Part.edge ∉ ps) (hlast : Part.lastKey ∉ ps)
    (hcomm : ∀ v e k, f (s.setUnread v e k) = (f s).setUnread v e k) (v : Byte) :
    f (s.setST v) = (f s).setST v := by
  have hedge' : (f s).edge = s.edge := hframe .edge hedge
  have hlast' : (f s).lastKey = s.lastKey := hframe .lastKey hlast
  calc f (s.setST v) = (f s).setUnread v s.edge s.lastKey := hcomm v s.edge s.lastKey
    _ = (f s).setUnread v (f s).edge (f s).lastKey := by rw [hedge', hlast']
    _ = (f s).setST v := rfl

/-! ### The sound timer (R47, R347) -/

/-- Every effect but that of Fx18 commutes with a change of ST. -/
theorem effectOf_setST {i : Instr} (h : ∀ x, i ≠ .ldStVx x) (s : State) (v : Byte) :
    effectOf i (s.setST v) = (effectOf i s).setST v := by
  by_cases hkey : ∃ x, i = .ldVxK x
  · obtain ⟨x, rfl⟩ := hkey
    simp only [effectOf, State.setST_kstate, State.setST_edge]
    split <;> rfl
  · have hkey : ∀ x, i ≠ .ldVxK x := fun x hx => hkey ⟨x, hx⟩
    exact comm_setST (effectOf_sameBut i s) (by cases i <;> simp_all [otherParts])
      (by cases i <;> simp [otherParts]) (effectOf_setUnread h hkey s) v

theorem faultOf_setST (i : Instr) (s : State) (v : Byte) : faultOf i (s.setST v) = faultOf i s :=
  faultOf_setUnread i s v s.edge s.lastKey

theorem onLoad_setST (bytes : List Byte) (complete : Bool) (s : State) (v : Byte) :
    onLoad bytes complete (s.setST v) = (onLoad bytes complete s).setST v :=
  comm_setST (onLoad_sameBut bytes complete s) (by simp) (by simp) (onLoad_setUnread bytes complete s) v

theorem onKey_setST (k : Key) (down : Bool) (s : State) (v : Byte) :
    onKey k down (s.setST v) = (onKey k down s).setST v := by
  cases down <;> rfl

/-- Two states that differ at most in ST. -/
def DifferInST (s u : State) : Prop := ∃ v, u = s.setST v

theorem effectOf_differInST {s u : State} (i : Instr) (h : DifferInST s u) :
    DifferInST (effectOf i s) (effectOf i u) := by
  obtain ⟨v, rfl⟩ := h
  by_cases hi : ∃ x, i = .ldStVx x
  · obtain ⟨x, rfl⟩ := hi
    exact ⟨s.getV x, rfl⟩
  · exact ⟨v, effectOf_setST (fun x hx => hi ⟨x, hx⟩) s v⟩

/-- Every step keeps states that differ at most in ST that way. -/
theorem differInST_simulation : Simulation DifferInST where
  mem_eq := by rintro s _ ⟨v, rfl⟩; rfl
  PC_eq := by rintro s _ ⟨v, rfl⟩; rfl
  phase_eq := by rintro s _ ⟨v, rfl⟩; rfl
  fault_eq := by rintro s _ ⟨v, rfl⟩; rfl
  schedule_eq := by rintro s _ ⟨v, rfl⟩; rfl
  rndCount_eq := by rintro s _ ⟨v, rfl⟩; rfl
  ended_eq := by rintro s _ ⟨v, rfl⟩; rfl
  faultOf_eq i := by rintro ⟨v, rfl⟩; exact faultOf_setST i _ v
  rel_setSchedule es := by rintro ⟨v, rfl⟩; exact ⟨v, rfl⟩
  rel_setRndCount n := by rintro ⟨v, rfl⟩; exact ⟨v, rfl⟩
  rel_setRnd b := by rintro ⟨v, rfl⟩; exact ⟨v, rfl⟩
  rel_setFault f := by rintro ⟨v, rfl⟩; exact ⟨v, rfl⟩
  rel_setPC w := by rintro ⟨v, rfl⟩; exact ⟨v, rfl⟩
  rel_effectOf := effectOf_differInST
  rel_onLoad bytes complete := by rintro ⟨v, rfl⟩; exact ⟨v, onLoad_setST bytes complete _ v⟩
  rel_onTick := by rintro s _ ⟨v, rfl⟩; exact ⟨countDown v, rfl⟩
  rel_onKey k down := by rintro ⟨v, rfl⟩; exact ⟨v, onKey_setST k down _ v⟩
  rel_onTerminate := by rintro s _ ⟨v, rfl⟩; exact ⟨v, rfl⟩

/-- Settles O59: Fx18 overwrites ST, every other effect commutes with a change of it, and states that differ in ST simulate
each other. -/
theorem soundTimerIsReadByNoInstruction : Obligations.SoundTimerIsReadByNoInstruction := by
  refine ⟨fun i s v => ?_, fun s v hend => ?_⟩
  · by_cases hi : ∃ x, i = .ldStVx x
    · obtain ⟨x, rfl⟩ := hi
      exact ⟨_, s.getV x, rfl, rfl, fun h => absurd rfl (h x), fun _ _ => rfl⟩
    · have hi : ∀ x, i ≠ .ldStVx x := fun x hx => hi ⟨x, hx⟩
      have hST : Part.ST ∉ .V :: .PC :: .fault :: otherParts i := by cases i <;> simp_all [otherParts]
      refine ⟨_, v, exec_eq i s, ?_, fun _ => ⟨exec_sameBut (exec_eq i s) .ST hST, rfl⟩, fun x hx => absurd hx (hi x)⟩
      rw [exec_eq, faultOf_setST, effectOf_setST hi]
      cases faultOf i s <;> rfl
  · obtain ⟨t, _, ht, hu, w, rfl⟩ := differInST_simulation.step_related ⟨v, rfl⟩ hend
    exact ⟨t, w, ht, hu⟩

/-! ### The stale edge and key (R61, R343, R422) -/

/-- An update that commutes with `setUnread` and keeps ST, the edge, last_key and kstate keeps states alike. -/
theorem sameUpToStaleKey_of_comm {f : State → State} {ps : List Part} {s u : State} (hframe : SameBut ps s (f s))
    (hps : ∀ p ∈ [Part.ST, .edge, .lastKey, .kstate], p ∉ ps)
    (hcomm : ∀ v e k, f (s.setUnread v e k) = (f s).setUnread v e k) (h : SameUpToStaleKey s u) :
    SameUpToStaleKey (f s) (f u) := by
  have hST : (f s).ST = s.ST := hframe .ST (hps _ (by simp))
  have hedge : (f s).edge = s.edge := hframe .edge (hps _ (by simp))
  have hlast : (f s).lastKey = s.lastKey := hframe .lastKey (hps _ (by simp))
  have hkstate : (f s).kstate = s.kstate := hframe .kstate (hps _ (by simp))
  obtain ⟨hu, hk⟩ := h
  have hfu : f u = (f s).setUnread (f s).ST u.edge u.lastKey := hST ▸ (congrArg f hu).trans (hcomm s.ST _ _)
  rw [hfu]
  exact ⟨rfl, fun ha => hedge ▸ hlast ▸ hk (hkstate ▸ ha)⟩

/-- Fx0A reads the edge and the key in Awaiting alone, where related states agree on them, and clears the edge on its way
there (R343). -/
theorem effectOf_ldVxK_sameUpToStaleKey {s u : State} (x : Reg) (h : SameUpToStaleKey s u) :
    SameUpToStaleKey (effectOf (.ldVxK x) s) (effectOf (.ldVxK x) u) := by
  obtain ⟨hu, hk⟩ := h
  have hkstate : u.kstate = s.kstate := (congrArg State.kstate hu).trans rfl
  cases hs : s.kstate with
  | idle =>
    simp only [effectOf, hkstate, hs]
    exact ⟨congrArg (fun s => (s.setKstate .awaiting).setEdge false) hu, fun _ => ⟨rfl, Bool.noConfusion⟩⟩
  | awaiting =>
    obtain ⟨hedge, hlast⟩ := hk hs
    cases he : s.edge with
    | false =>
      simp only [effectOf, hkstate, hs, hedge, he]
      exact ⟨hu, hk⟩
    | true =>
      simp only [effectOf, hkstate, hs, hedge, he, hlast he]
      exact ⟨congrArg (fun t => finish x (keyByte s.lastKey) ((t.setEdge false).setKstate .idle)) hu,
        KState.noConfusion⟩

theorem effectOf_sameUpToStaleKey {s u : State} (i : Instr) (h : SameUpToStaleKey s u) :
    SameUpToStaleKey (effectOf i s) (effectOf i u) := by
  by_cases hkey : ∃ x, i = .ldVxK x
  · obtain ⟨x, rfl⟩ := hkey
    exact effectOf_ldVxK_sameUpToStaleKey x h
  by_cases hst : ∃ x, i = .ldStVx x
  · obtain ⟨x, rfl⟩ := hst
    exact ⟨congrArg (effectOf (.ldStVx x)) h.1, h.2⟩
  have hkey : ∀ x, i ≠ .ldVxK x := fun x hx => hkey ⟨x, hx⟩
  have hst : ∀ x, i ≠ .ldStVx x := fun x hx => hst ⟨x, hx⟩
  exact sameUpToStaleKey_of_comm (effectOf_sameBut i s) (by cases i <;> simp_all [otherParts])
    (effectOf_setUnread hst hkey s) h

/-- A key-down makes the edge and the key of alike states equal; a key-up touches neither (R422). -/
theorem onKey_sameUpToStaleKey {s u : State} (k : Key) (down : Bool) (h : SameUpToStaleKey s u) :
    SameUpToStaleKey (onKey k down s) (onKey k down u) := by
  cases down with
  | false => exact ⟨congrArg (onKey k false) h.1, h.2⟩
  | true => exact ⟨congrArg (onKey k true) h.1, fun _ => ⟨rfl, fun _ => rfl⟩⟩

/-- Every step keeps states alike up to a stale edge and key (R61). -/
theorem sameUpToStaleKey_simulation : Simulation SameUpToStaleKey where
  mem_eq h := (congrArg State.mem h.1).trans rfl
  PC_eq h := (congrArg State.PC h.1).trans rfl
  phase_eq h := (congrArg State.phase h.1).trans rfl
  fault_eq h := (congrArg State.fault h.1).trans rfl
  schedule_eq h := (congrArg State.schedule h.1).trans rfl
  rndCount_eq h := (congrArg State.rndCount h.1).trans rfl
  ended_eq h := (congrArg State.ended h.1).trans rfl
  faultOf_eq {s u} i h := (congrArg (faultOf i) h.1).trans (faultOf_setUnread i s s.ST u.edge u.lastKey)
  rel_setSchedule es h := ⟨congrArg (·.setSchedule es) h.1, h.2⟩
  rel_setRndCount n h := ⟨congrArg (·.setRndCount n) h.1, h.2⟩
  rel_setRnd b h := ⟨congrArg (·.setRnd b) h.1, h.2⟩
  rel_setFault f h := ⟨congrArg (·.setFault f) h.1, h.2⟩
  rel_setPC w h := ⟨congrArg (·.setPC w) h.1, h.2⟩
  rel_effectOf := effectOf_sameUpToStaleKey
  rel_onLoad {s _} bytes complete :=
    sameUpToStaleKey_of_comm (onLoad_sameBut bytes complete s) (by simp) (onLoad_setUnread bytes complete s)
  rel_onTick h := ⟨congrArg onTick h.1, h.2⟩
  rel_onKey := onKey_sameUpToStaleKey
  rel_onTerminate h := ⟨congrArg onTerminate h.1, h.2⟩

/-- Settles O56: at reset the keyboard is Idle, and alike states are simulated by each other. -/
theorem staleEdgeAndKeyAreUnobservable : Obligations.StaleEdgeAndKeyAreUnobservable := by
  refine ⟨fun e k => ⟨rfl, KState.noConfusion⟩, fun s u t h hstep => ?_⟩
  cases hend : s.ended with
  | true => cases (step_ended hend).symm.trans hstep
  | false =>
    obtain ⟨t', v, ht, hv, hrel⟩ := sameUpToStaleKey_simulation.step_related h hend
    cases ht.symm.trans hstep
    exact ⟨v, hv, hrel⟩

end Sys2Proof.Machine
end

section
/-! PROOFS of the statements on memory (20_memory.md).

## Memory in canonical form -/

open Sys2Proof.Claims

namespace Sys2Proof.Machine

namespace Memory

theorem wfFrom_cons {lo a : Nat} {v : Byte} {m : Memory} :
    wfFrom lo ((a, v) :: m) = true ↔
      lo ≤ a ∧ a < Config.memSize ∧ v ≠ initial a ∧ wfFrom (a + 1) m = true := by
  simp only [wfFrom, Bool.and_eq_true, decide_eq_true_eq, and_assoc]

theorem read_cons_self (a : Nat) (v : Byte) (m : Memory) : read ((a, v) :: m) a = v := if_pos rfl

theorem read_cons_of_ne {a c : Nat} (h : c ≠ a) (v : Byte) (m : Memory) : read ((a, v) :: m) c = m.read c := if_neg h

/-- A listed address does not read as its reset contents, so a canonical memory that reads the same there does not begin
past it. -/
theorem wfFrom_eq_false_of_read_eq {lo a : Nat} {v : Byte} {m m' : Memory} (h : wfFrom lo ((a, v) :: m) = true)
    (hread : read ((a, v) :: m) a = read m' a) : wfFrom (a + 1) m' = false := by
  obtain ⟨-, -, hv, -⟩ := wfFrom_cons.1 h
  rw [read_cons_self] at hread
  refine Bool.eq_false_iff.2 fun h' => hv ?_
  rw [hread, read_eq_initial_of_wfFrom h' (Nat.lt_succ_self a)]

/-- Canonical memories that read the same at every address are the same list: they begin at the same address, since neither
begins past the other's first one, and with the same byte, and their tails again read the same. -/
theorem eq_of_read_eq {lo lo' : Nat} {m m' : Memory} (h : wfFrom lo m = true) (h' : wfFrom lo' m' = true)
    (hread : ∀ a, a < Config.memSize → m.read a = m'.read a) : m = m' := by
  induction m generalizing lo lo' m' with
  | nil =>
    cases m' with
    | nil => rfl
    | cons e' m' =>
      obtain ⟨-, hb, -, -⟩ := wfFrom_cons.1 h'
      cases wfFrom_eq_false_of_read_eq (m' := []) h' (hread _ hb).symm
  | cons e m ih =>
    obtain ⟨a, v⟩ := e
    obtain ⟨-, ha, -, hm⟩ := wfFrom_cons.1 h
    have hpast : wfFrom (a + 1) m' = false := wfFrom_eq_false_of_read_eq h (hread a ha)
    cases m' with
    | nil => cases hpast
    | cons e' m' =>
      obtain ⟨b, w⟩ := e'
      obtain ⟨-, hb, hw, hm'⟩ := wfFrom_cons.1 h'
      have hpast' : wfFrom (b + 1) ((a, v) :: m) = false := wfFrom_eq_false_of_read_eq h' (hread b hb).symm
      obtain rfl : a = b := by
        rcases Nat.lt_trichotomy a b with hab | hab | hab
        · exact absurd (wfFrom_cons.2 ⟨hab, hb, hw, hm'⟩) (by simp [hpast])
        · exact hab
        · exact absurd (wfFrom_cons.2 ⟨hab, (wfFrom_cons.1 h).2⟩) (by simp [hpast'])
      obtain rfl : v = w := by simpa only [read_cons_self] using hread a ha
      refine congrArg _ (ih hm hm' fun c hc => ?_)
      by_cases hca : c = a
      · rw [read_eq_initial_of_wfFrom hm (by omega), read_eq_initial_of_wfFrom hm' (by omega)]
      · simpa only [read_cons_of_ne hca] using hread c hc

end Memory

/-- Settles O55: read after write, the form kept, and extensionality of the form. -/
theorem memoryIsCanonicalPlainRam : Obligations.MemoryIsCanonicalPlainRam :=
  ⟨Memory.read_write, fun _ _ v ha h => Memory.wf_write v (Nat.lt_succ_of_le ha) h,
    fun _ _ h h' hread => Memory.eq_of_read_eq h h' fun a ha => hread a (Nat.le_of_lt_succ ha)⟩

/-! ## A stored word is fetched -/

/-- A Step event with its gate open and its fetch inside memory executes the instruction at PC (R50). -/
theorem step_eq_exec {s : State} {rnd : Byte} {es : List Event} {i : Instr} (h : StepNext rnd es s) (hc : CanStep s)
    (hpc : s.PC.toNat + 1 ≤ 0xFFF) (hi : decode (wordAtPC s) = .instr i) :
    step s = exec i ((s.setSchedule es).setRnd rnd) :=
  ((stepFetchesDecodesExecutes s rnd es h).2.2 hc hpc).1 i hi

/-- Fx55 whose bytes lie inside memory raises no fault (R275). -/
theorem exec_stRegs_of_le {x : Reg} {s : State} (h : s.I.toNat + x.val ≤ 0xFFF) :
    exec (.stRegs x) s = .next (effectOf (.stRegs x) s) := by
  have hf : faultOf (.stRegs x) s = none := if_neg (by omega)
  rw [exec_eq, hf]; rfl

/-- Fx55 leaves the byte of register r at I + r (R275). -/
theorem byteAt_effectOf_stRegs {x r : Reg} (h : r ≤ x) (s : State) :
    (effectOf (.stRegs x) s).byteAt (s.I.toNat + r.val) = s.getV r := by
  have hr : r.val < (regBytes s x).length := by rw [length_regBytes]; exact Nat.lt_succ_of_le h
  exact (Memory.read_writeBytes_inside hr).trans (getD_regBytes s x r h)

/-- Fx55 with I = PC + 2 leaves the word of V0 and V1 at the next PC (R90). -/
theorem wordAtPC_effectOf_stRegs {x : Reg} {s : State} (hx : 1 ≤ x.val) (hI : s.I = s.PC + 2) :
    wordAtPC (effectOf (.stRegs x) s) =
      BitVec.ofNat 16 ((s.getV 0).toNat * 256 + (s.getV 1).toNat) := by
  have hpc : (effectOf (.stRegs x) s).PC = s.I := hI.symm
  have h0 : (effectOf (.stRegs x) s).byteAt s.I.toNat = s.getV 0 := byteAt_effectOf_stRegs (Fin.zero_le x) s
  have h1 : (effectOf (.stRegs x) s).byteAt (s.I.toNat + 1) = s.getV 1 := byteAt_effectOf_stRegs (r := 1) hx s
  rw [wordAtPC, hpc, h0, h1]

/-- Settles O58: the first step stores the word where the second one fetches. -/
theorem storedWordIsFetchedByTheNextStep : Obligations.StoredWordIsFetchedByTheNextStep := by
  intro x s rnd rnd' es i hnext hcan hx hdec hI hrange hpc hword
  have hstep := (step_eq_exec hnext hcan (by omega) hdec).trans (exec_stRegs_of_le hrange)
  have hpc' : (s.PC + 2).toNat + 1 ≤ 0xFFF := by bv_omega
  exact ⟨_, hstep, step_eq_exec ⟨hnext.1, rfl⟩ hcan hpc'
    ((congrArg decode (wordAtPC_effectOf_stRegs hx hI)).trans hword)⟩

/-! ## Where the stack entries lie -/

/-- Settles O25: linear arithmetic on the address of the entry, and the check of its first byte. -/
theorem stackEntryPlaces : Obligations.StackEntryPlaces := by
  intro sp
  have haddr : stackAddr sp = 0xEA0 + 2 * sp.toNat := rfl
  refine ⟨haddr, by omega, by omega, fun hsp => ⟨by omega, by omega, ?_⟩⟩
  rw [firstAbove_stackAddrs, if_pos hsp, haddr]

end Sys2Proof.Machine
end

section
/-! PROOFS of the statements on the encoding (30_encoding.md).

## The decoder on the words of one family (R134, R139) -/

open Sys2Proof.Claims

namespace Sys2Proof

theorem decode_system {w : Word} (h : fieldOp w = 0x0) : decode w = decodeSystem w := by
  rw [decode, h]; rfl

theorem decode_skipEqual {w : Word} (h : fieldOp w = 0x5) :
    decode w = if fieldN w = 0 then .instr (.seR (fieldX w) (fieldY w)) else .gap .skipEqual := by
  rw [decode, h]; rfl

theorem decode_alu {w : Word} (h : fieldOp w = 0x8) : decode w = decodeAlu (fieldX w) (fieldY w) (fieldN w) := by
  rw [decode, h]; rfl

theorem decode_skipNotEqual {w : Word} (h : fieldOp w = 0x9) :
    decode w = if fieldN w = 0 then .instr (.sneR (fieldX w) (fieldY w)) else .gap .skipNotEqual := by
  rw [decode, h]; rfl

theorem decode_keys {w : Word} (h : fieldOp w = 0xE) : decode w = decodeKeys (fieldX w) (fieldKk w) := by
  rw [decode, h]; rfl

theorem decode_misc {w : Word} (h : fieldOp w = 0xF) : decode w = decodeMisc (fieldX w) (fieldKk w) := by
  rw [decode, h]; rfl

/-! ## Decoding what the encoder builds -/

theorem decode_formatXYN_alu (x y : Reg) (n : BitVec 4) : decode (formatXYN 0x8 x y n) = decodeAlu x y n := by
  rw [decode_alu (fieldOp_formatXYN ..), fieldX_formatXYN, fieldY_formatXYN, fieldN_formatXYN]

theorem decode_formatXKK_keys (x : Reg) (kk : Byte) : decode (formatXKK 0xE x kk) = decodeKeys x kk := by
  rw [decode_keys (fieldOp_formatXKK ..), fieldX_formatXKK, fieldKk_formatXKK]

theorem decode_formatXKK_misc (x : Reg) (kk : Byte) : decode (formatXKK 0xF x kk) = decodeMisc x kk := by
  rw [decode_misc (fieldOp_formatXKK ..), fieldX_formatXKK, fieldKk_formatXKK]

theorem decode_formatXYN_drw (x y : Reg) (n : BitVec 4) : decode (formatXYN 0xD x y n) = .instr (.drw x y n.toNat) := by
  simp [decode]

/-- Settles O1: by the instruction's family; in families 8, E and F the selector the encoder writes picks the instruction,
and a sprite height below 16 is the field n. -/
theorem decodeAfterEncode : Obligations.DecodeAfterEncode := by
  intro i hi
  cases i with
  | cls | ret => rfl
  | ldR x y | or x y | and x y | xor x y | addR x y | sub x y | shr x y | subn x y | shl x y =>
    exact decode_formatXYN_alu x y _
  | skp x | sknp x => exact decode_formatXKK_keys x _
  | ldVxDt x | ldVxK x | ldDtVx x | ldStVx x | addIdx x | ldF x | ldB x | stRegs x | ldRegs x =>
    exact decode_formatXKK_misc x _
  | drw x y n =>
    have hn : n < 16 := of_decide_eq_true hi
    rw [encode, decode_formatXYN_drw, BitVec.toNat_ofNat, Nat.mod_eq_of_lt hn]
  | jp | call | ldIdx | jpV0 | seI | sneI | ldI | addI | rnd | seR | sneR => simp [encode, decode]

/-! ## Encoding what the decoder reads -/

theorem formatNNN_of_fieldOp {w : Word} {op : BitVec 4} (h : fieldOp w = op) : formatNNN op (fieldNnn w) = w :=
  h ▸ formatNNN_fields w

theorem formatXKK_of_fieldOp {w : Word} {op : BitVec 4} (h : fieldOp w = op) :
    formatXKK op (fieldX w) (fieldKk w) = w :=
  h ▸ formatXKK_fields w

theorem formatXYN_of_fieldOp {w : Word} {op : BitVec 4} (h : fieldOp w = op) :
    formatXYN op (fieldX w) (fieldY w) (fieldN w) = w :=
  h ▸ formatXYN_fields w

/-- The decoded instruction, where there is one, is well-formed and encodes to w. -/
def KeepsWord (d : Decoded) (w : Word) : Prop := ∀ i, d = .instr i → encode i = w ∧ i.WellFormed

theorem keepsWord_instr {i : Instr} {w : Word} (h : encode i = w) (hi : i.WellFormed) : KeepsWord (.instr i) w := by
  rintro _ ⟨⟩
  exact ⟨h, hi⟩

theorem keepsWord_gap (g : GapFamily) (w : Word) : KeepsWord (.gap g) w := nofun

/-- An instruction picked by a selector keeps the word that holds the selector, `f` of it. -/
theorem keepsWord_ite {m : Nat} {v a : BitVec m} {i : Instr} {d : Decoded} {f : BitVec m → Word} (h : encode i = f a)
    (hi : i.WellFormed) (hd : KeepsWord d (f v)) : KeepsWord (if v = a then .instr i else d) (f v) := by
  split
  next hva => exact keepsWord_instr (hva ▸ h) hi
  next => exact hd

theorem keepsWord_skip {op : BitVec 4} {x y : Reg} (n : BitVec 4) {i : Instr} (g : GapFamily)
    (h : encode i = formatXYN op x y 0) (hi : i.WellFormed) :
    KeepsWord (if n = 0 then .instr i else .gap g) (formatXYN op x y n) :=
  keepsWord_ite h hi (keepsWord_gap _ _)

theorem keepsWord_decodeSystem (w : Word) : KeepsWord (decodeSystem w) w := by
  unfold decodeSystem
  iterate 2 refine keepsWord_ite (f := id) rfl rfl ?_
  exact keepsWord_gap _ _

theorem keepsWord_decodeAlu (x y : Reg) (n : BitVec 4) : KeepsWord (decodeAlu x y n) (formatXYN 0x8 x y n) := by
  unfold decodeAlu
  iterate 9 refine keepsWord_ite rfl rfl ?_
  exact keepsWord_gap _ _

theorem keepsWord_decodeKeys (x : Reg) (kk : Byte) : KeepsWord (decodeKeys x kk) (formatXKK 0xE x kk) := by
  unfold decodeKeys
  iterate 2 refine keepsWord_ite rfl rfl ?_
  exact keepsWord_gap _ _

theorem keepsWord_decodeMisc (x : Reg) (kk : Byte) : KeepsWord (decodeMisc x kk) (formatXKK 0xF x kk) := by
  unfold decodeMisc
  iterate 9 refine keepsWord_ite rfl rfl ?_
  exact keepsWord_gap _ _

/-- Settles O2: in each clause of R139 the word is put together again from the fields the decoder reads. -/
theorem encodeAfterDecode : Obligations.EncodeAfterDecode := by
  intro w
  change KeepsWord (decode w) w
  rcases decode_cases w with h | h | h | h | h | h | h | h | h | h | h | h | h | h | h | h <;>
    obtain ⟨hop, hd⟩ := h <;> rw [hd]
  · exact keepsWord_decodeSystem w
  · exact keepsWord_instr (formatNNN_of_fieldOp hop) rfl
  · exact keepsWord_instr (formatNNN_of_fieldOp hop) rfl
  · exact keepsWord_instr (formatXKK_of_fieldOp hop) rfl
  · exact keepsWord_instr (formatXKK_of_fieldOp hop) rfl
  · have h := keepsWord_skip (i := .seR (fieldX w) (fieldY w)) (fieldN w) .skipEqual rfl rfl
    rwa [formatXYN_of_fieldOp hop] at h
  · exact keepsWord_instr (formatXKK_of_fieldOp hop) rfl
  · exact keepsWord_instr (formatXKK_of_fieldOp hop) rfl
  · have h := keepsWord_decodeAlu (fieldX w) (fieldY w) (fieldN w)
    rwa [formatXYN_of_fieldOp hop] at h
  · have h := keepsWord_skip (i := .sneR (fieldX w) (fieldY w)) (fieldN w) .skipNotEqual rfl rfl
    rwa [formatXYN_of_fieldOp hop] at h
  · exact keepsWord_instr (formatNNN_of_fieldOp hop) rfl
  · exact keepsWord_instr (formatNNN_of_fieldOp hop) rfl
  · exact keepsWord_instr (formatXKK_of_fieldOp hop) rfl
  · refine keepsWord_instr ?_ (decide_eq_true (fieldN w).isLt)
    rw [encode, BitVec.ofNat_toNat, BitVec.setWidth_eq, formatXYN_of_fieldOp hop]
  · have h := keepsWord_decodeKeys (fieldX w) (fieldKk w)
    rwa [formatXKK_of_fieldOp hop] at h
  · have h := keepsWord_decodeMisc (fieldX w) (fieldKk w)
    rwa [formatXKK_of_fieldOp hop] at h

/-! ## Which words are decode gaps (R135 to R138) -/

/-- The decoder answers an instruction exactly where P holds, and else the gap g. -/
def SelectsInstr (d : Decoded) (g : GapFamily) (P : Prop) : Prop :=
  ((∃ i, d = .instr i) ↔ P) ∧ (d = .gap g ↔ ¬P)

theorem selectsInstr_gap (g : GapFamily) (v : Nat) : SelectsInstr (.gap g) g (v ∈ []) := by
  simp [SelectsInstr]

/-- One selector more. -/
theorem selectsInstr_ite {m : Nat} {v a : BitVec m} {l : List Nat} {i : Instr} {d : Decoded} {g : GapFamily}
    (h : SelectsInstr d g (v.toNat ∈ l)) :
    SelectsInstr (if v = a then .instr i else d) g (v.toNat ∈ a.toNat :: l) := by
  simp only [SelectsInstr, List.mem_cons, BitVec.toNat_inj]
  split
  next hva => simp [hva]
  next hva => simpa only [hva, false_or, SelectsInstr] using h

theorem selectsInstr_decodeSystem (w : Word) : SelectsInstr (decodeSystem w) .system (w.toNat ∈ [0x00E0, 0x00EE]) :=
  selectsInstr_ite <| selectsInstr_ite <| selectsInstr_gap _ _

theorem selectsInstr_decodeAlu (x y : Reg) (n : BitVec 4) :
    SelectsInstr (decodeAlu x y n) .alu (n.toNat ∈ [0x0, 0x1, 0x2, 0x3, 0x4, 0x5, 0x6, 0x7, 0xE]) := by
  unfold decodeAlu
  iterate 9 refine selectsInstr_ite ?_
  exact selectsInstr_gap _ _

theorem selectsInstr_decodeKeys (x : Reg) (kk : Byte) :
    SelectsInstr (decodeKeys x kk) .keys (kk.toNat ∈ [0x9E, 0xA1]) :=
  selectsInstr_ite <| selectsInstr_ite <| selectsInstr_gap _ _

theorem selectsInstr_decodeMisc (x : Reg) (kk : Byte) :
    SelectsInstr (decodeMisc x kk) .misc
      (kk.toNat ∈ [0x07, 0x0A, 0x15, 0x18, 0x1E, 0x29, 0x33, 0x55, 0x65]) := by
  unfold decodeMisc
  iterate 9 refine selectsInstr_ite ?_
  exact selectsInstr_gap _ _

theorem selectsInstr_skip (n : BitVec 4) (i : Instr) (g : GapFamily) :
    SelectsInstr (if n = 0 then .instr i else .gap g) g (n.toNat ∈ [0]) :=
  selectsInstr_ite (selectsInstr_gap _ _)

/-! ### By the word's number -/

theorem fieldOp_eq_ofNat {w : Word} {k : Nat} (h : w.toNat / 0x1000 = k) : fieldOp w = BitVec.ofNat 4 k := by
  rw [← h, ← toNat_fieldOp, BitVec.ofNat_toNat, BitVec.setWidth_eq]

section
variable {w : Word}

theorem selectsInstr_family0 (h : w.toNat / 0x1000 = 0x0) :
    SelectsInstr (decode w) .system (w.toNat % 0x1000 ∈ [0x00E0, 0x00EE]) := by
  rw [decode_system (fieldOp_eq_ofNat h), Nat.mod_eq_of_lt (by omega)]
  exact selectsInstr_decodeSystem w

theorem selectsInstr_family5 (h : w.toNat / 0x1000 = 0x5) :
    SelectsInstr (decode w) .skipEqual (w.toNat % 16 ∈ [0]) := by
  rw [decode_skipEqual (fieldOp_eq_ofNat h), ← toNat_fieldN]
  exact selectsInstr_skip _ _ _

theorem selectsInstr_family8 (h : w.toNat / 0x1000 = 0x8) :
    SelectsInstr (decode w) .alu (w.toNat % 16 ∈ [0x0, 0x1, 0x2, 0x3, 0x4, 0x5, 0x6, 0x7, 0xE]) := by
  rw [decode_alu (fieldOp_eq_ofNat h), ← toNat_fieldN]
  exact selectsInstr_decodeAlu _ _ _

theorem selectsInstr_family9 (h : w.toNat / 0x1000 = 0x9) :
    SelectsInstr (decode w) .skipNotEqual (w.toNat % 16 ∈ [0]) := by
  rw [decode_skipNotEqual (fieldOp_eq_ofNat h), ← toNat_fieldN]
  exact selectsInstr_skip _ _ _

theorem selectsInstr_familyE (h : w.toNat / 0x1000 = 0xE) :
    SelectsInstr (decode w) .keys (w.toNat % 256 ∈ [0x9E, 0xA1]) := by
  rw [decode_keys (fieldOp_eq_ofNat h), ← toNat_fieldKk]
  exact selectsInstr_decodeKeys _ _

theorem selectsInstr_familyF (h : w.toNat / 0x1000 = 0xF) :
    SelectsInstr (decode w) .misc
      (w.toNat % 256 ∈ [0x07, 0x0A, 0x15, 0x18, 0x1E, 0x29, 0x33, 0x55, 0x65]) := by
  rw [decode_misc (fieldOp_eq_ofNat h), ← toNat_fieldKk]
  exact selectsInstr_decodeMisc _ _

end

/-- Every word of the ten families without gaps is an instruction (R134). -/
theorem exists_decode_eq_instr {w : Word} (h : w.toNat / 0x1000 ∉ [0x0, 0x5, 0x8, 0x9, 0xE, 0xF]) :
    ∃ i, decode w = .instr i := by
  rw [← toNat_fieldOp] at h
  rcases decode_cases w with hw | hw | hw | hw | hw | hw | hw | hw | hw | hw | hw | hw | hw | hw | hw | hw <;>
    obtain ⟨hop, hd⟩ := hw <;> simp [hop, hd] at h ⊢

/-- Of the sixteen values of n the seven gaps of family 8 are those that are no selector (R136). -/
theorem alu_gap_iff (k : Nat) (hk : k < 16) :
    k ∉ [0x0, 0x1, 0x2, 0x3, 0x4, 0x5, 0x6, 0x7, 0xE] ↔ k ∈ [0x8, 0x9, 0xA, 0xB, 0xC, 0xD, 0xF] := by
  decide +revert

/-- Settles O4: by family, the selector read as a number. -/
theorem gapWordsByFamily : Obligations.GapWordsByFamily := by
  intro w
  refine ⟨fun h => ?_, fun h => ?_, selectsInstr_familyE, selectsInstr_familyF, fun h => ?_, fun h => ?_,
    exists_decode_eq_instr⟩
  · simp only [decode_system (fieldOp_eq_ofNat h), decodeSystem, ← BitVec.toNat_inj]; rfl
  · rw [← alu_gap_iff _ (Nat.mod_lt _ (by decide))]
    exact selectsInstr_family8 h
  · simpa only [SelectsInstr, List.mem_singleton] using selectsInstr_family5 h
  · simpa only [SelectsInstr, List.mem_singleton] using selectsInstr_family9 h

/-! ## How many words are decode gaps (R140) -/

/-- Of the first m numbers, all but those of a list of distinct ones. -/
theorem count_not_mem {m : Nat} {l : List Nat} (hnd : l.Nodup) (hlt : ∀ v ∈ l, v < m) :
    Nat.count (· ∉ l) m = m - l.length := by
  have hsub : l.toFinset ⊆ Finset.range m := fun v hv => Finset.mem_range.2 (hlt v (List.mem_toFinset.1 hv))
  have hfilter : (Finset.range m).filter (· ∉ l) = Finset.range m \ l.toFinset := by ext v; simp
  rw [Nat.count_eq_card_filter_range, hfilter, Finset.card_sdiff_of_subset hsub, Finset.card_range,
    List.toFinset_card_of_nodup hnd]

/-- A condition on k % m is met equally often in each of a runs of m numbers. -/
theorem count_mod (p : Nat → Prop) [DecidablePred p] (a m : Nat) :
    Nat.count (fun k => p (k % m)) (a * m) = a * Nat.count p m := by
  induction a with
  | zero => simp
  | succ a ih =>
    have hrun : Nat.count (fun k => p ((a * m + k) % m)) m = Nat.count p m := by
      simp only [Nat.count_eq_card_filter_range]
      refine congrArg Finset.card (Finset.filter_congr fun k hk => ?_)
      rw [Nat.mul_add_mod', Nat.mod_eq_of_lt (Finset.mem_range.1 hk)]
    rw [Nat.succ_mul, Nat.count_add, ih, hrun, Nat.succ_mul]

/-- A family whose instructions are the words with a low part (modulo m) among the selectors l. -/
theorem gapsIn_of_selectors {op a m : Nat} {l : List Nat} (hop : op < 16) (ham : a * m = 0x1000) (hnd : l.Nodup)
    (hlt : ∀ v ∈ l, v < m)
    (h : ∀ w : Word, w.toNat / 0x1000 = op → ((∃ i, decode w = .instr i) ↔ w.toNat % m ∈ l)) :
    gapsIn op = a * (m - l.length) := by
  rw [← count_not_mem hnd hlt, ← count_mod, ham]
  refine List.countP_congr fun k hk => ?_
  rw [List.mem_range] at hk
  have hword : (BitVec.ofNat 16 (op * 0x1000 + k)).toNat = op * 0x1000 + k := Nat.mod_eq_of_lt (by omega)
  have hmod : (op * 0x1000 + k) % m = k % m := by rw [← ham, ← Nat.mul_assoc, Nat.mul_add_mod']
  have hsel := h (BitVec.ofNat 16 (op * 0x1000 + k)) (by omega)
  rw [hword, hmod] at hsel
  simp only [decide_eq_true_iff, ← hsel]
  cases decode (BitVec.ofNat 16 (op * 0x1000 + k)) <;> simp

theorem gapsIn_family0 : gapsIn 0x0 = 4094 :=
  gapsIn_of_selectors (a := 1) (by decide) rfl (by decide) (by decide) fun _ h => (selectsInstr_family0 h).1

theorem gapsIn_family5 : gapsIn 0x5 = 3840 :=
  gapsIn_of_selectors (a := 256) (by decide) rfl (by decide) (by decide) fun _ h => (selectsInstr_family5 h).1

theorem gapsIn_family8 : gapsIn 0x8 = 1792 :=
  gapsIn_of_selectors (a := 256) (by decide) rfl (by decide) (by decide) fun _ h => (selectsInstr_family8 h).1

theorem gapsIn_family9 : gapsIn 0x9 = 3840 :=
  gapsIn_of_selectors (a := 256) (by decide) rfl (by decide) (by decide) fun _ h => (selectsInstr_family9 h).1

theorem gapsIn_familyE : gapsIn 0xE = 4064 :=
  gapsIn_of_selectors (a := 16) (by decide) rfl (by decide) (by decide) fun _ h => (selectsInstr_familyE h).1

theorem gapsIn_familyF : gapsIn 0xF = 3952 :=
  gapsIn_of_selectors (a := 16) (by decide) rfl (by decide) (by decide) fun _ h => (selectsInstr_familyF h).1

theorem gapsIn_eq_zero {op : Nat} (h : op ∈ [0x1, 0x2, 0x3, 0x4, 0x6, 0x7, 0xA, 0xB, 0xC, 0xD]) : gapsIn op = 0 := by
  have hlt : op < 16 ∧ op ∉ [0x0, 0x5, 0x8, 0x9, 0xE, 0xF] := by revert h; revert op; decide
  refine gapsIn_of_selectors (a := 0x1000) (m := 1) (l := [0]) hlt.1 rfl (by decide) (by decide) fun w hw => ?_
  simpa [Nat.mod_one] using exists_decode_eq_instr (hw ▸ hlt.2)

/-- Settles O5: in each family the words other than the selectors', as often as the selector's field recurs. -/
theorem gapWordCounts : Obligations.GapWordCounts := by
  refine ⟨gapsIn_family0, gapsIn_family5, gapsIn_family8, gapsIn_family9, gapsIn_familyE, gapsIn_familyF,
    fun _ => gapsIn_eq_zero, ?_⟩
  simp [List.range_succ, gapsIn_family0, gapsIn_family5, gapsIn_family8, gapsIn_family9, gapsIn_familyE, gapsIn_familyF,
    gapsIn_eq_zero]

/-! ## Words written out -/

/-- Settles O6: the decoder evaluated on each word. -/
theorem sampleWordsDecode : Obligations.SampleWordsDecode := by
  unfold Obligations.SampleWordsDecode
  decide

end Sys2Proof
end

section
/-! PROOFS of the statements on control transfer (40_control.md). -/

open Sys2Proof.Claims

namespace Sys2Proof

/-! ## The statements' words as the encoder's (R132) -/

theorem wordNNN_eq (op : BitVec 4) (nnn : Addr12) : wordNNN op.toNat nnn = formatNNN op nnn :=
  ofNat_eq_formatNNN op nnn

theorem wordXKK_eq (op : BitVec 4) (x : Reg) (kk : Byte) : wordXKK op.toNat x kk.toNat = formatXKK op x kk :=
  ofNat_eq_formatXKK op x kk

theorem wordXYN_eq (op : BitVec 4) (x y : Reg) (n : BitVec 4) : wordXYN op.toNat x y n.toNat = formatXYN op x y n :=
  ofNat_eq_formatXYN op x y n

/-- A word the encoder builds for a well-formed instruction decodes to it (R134). -/
theorem decode_of_eq_encode {w : Word} {i : Instr} (h : w = encode i) (hi : i.WellFormed) : decode w = .instr i := by
  rw [h]; exact decodeAfterEncode i hi

end Sys2Proof

namespace Sys2Proof.Machine

/-! ## An instruction with and without its fault -/

theorem exec_of_faultOf_none {i : Instr} {s : State} (h : faultOf i s = none) : exec i s = .next (effectOf i s) := by
  rw [exec_eq, h]; rfl

theorem exec_of_faultOf_some {i : Instr} {s : State} {code : FaultCode} {addr : Nat}
    (h : faultOf i s = some (code, addr)) : exec i s = .next (s.setFault (some ⟨code, s.PC, addr⟩)) := by
  rw [exec_eq, h]; rfl

/-! ## Jumps and skips -/

/-- Settles O20: the words are the encoder's, and an effect that is one write of PC changes nothing else. -/
theorem jumpsGoToTheirTargets : Obligations.JumpsGoToTheirTargets := by
  intro nnn s
  refine ⟨decode_of_eq_encode (wordNNN_eq 0x1 nnn) rfl, decode_of_eq_encode (wordNNN_eq 0xB nnn) rfl,
    ⟨_, rfl, toNat_addrOperand nnn, ?_⟩, ⟨_, rfl, toNat_addrOperand_add_byteOperand nnn _, ?_⟩⟩
  all_goals exact (SameBut.refl _ s).setPC _ (by simp)

theorem skips_skipIf (c : Prop) [Decidable c] (s : State) : Skips c s (skipIf (decide c) s) := by
  refine ⟨fun hc => ?_, fun hc => ?_, skipIf_sameBut _ s⟩ <;> rw [toNat_skipIf_PC] <;> simp [hc]

/-- Settles O21: the words are the encoder's, and each of the four is a conditional skip. -/
theorem skipsPassOneInstruction : Obligations.SkipsPassOneInstruction := fun x y kk s =>
  ⟨decode_of_eq_encode (wordXKK_eq 0x3 x kk) rfl, decode_of_eq_encode (wordXKK_eq 0x4 x kk) rfl,
    decode_of_eq_encode (wordXYN_eq 0x5 x y 0) rfl, decode_of_eq_encode (wordXYN_eq 0x9 x y 0) rfl,
    ⟨_, rfl, skips_skipIf _ s⟩, ⟨_, rfl, skips_skipIf _ s⟩, ⟨_, rfl, skips_skipIf _ s⟩, ⟨_, rfl, skips_skipIf _ s⟩⟩

/-! ## Calls and returns -/

/-- Read after the write of a word: its high byte, then its low byte, every other address as before (R86). -/
theorem Memory.read_writeWord (m : Memory) (a : Nat) (w : Word) (c : Nat) :
    (m.writeWord a w).read c =
      if c = a + 1 then w.extractLsb' 0 8 else if c = a then w.extractLsb' 8 8 else m.read c := by
  simp [Memory.writeWord, wordBytes, Memory.writeBytes]

/-- A call whose entry lies inside memory raises no fault (R202). -/
theorem exec_call_of_lt {nnn : Addr12} {s : State} (h : (s.SP.toNat + 1) % 256 < 0xB0) :
    exec (.call nnn) s = .next (effectOf (.call nnn) s) :=
  exec_of_faultOf_none (if_neg (by omega))

/-- A return whose entry lies inside memory raises no fault (R201). -/
theorem exec_ret_of_lt {s : State} (h : s.SP.toNat < 0xB0) : exec .ret s = .next (effectOf .ret s) :=
  exec_of_faultOf_none (if_neg (by omega))

theorem byteAt_effectOf_call (nnn : Addr12) (s : State) (a : Nat) :
    (effectOf (.call nnn) s).byteAt a =
      if a = stackAddr (s.SP + 1) + 1 then s.PC.extractLsb' 0 8
      else if a = stackAddr (s.SP + 1) then s.PC.extractLsb' 8 8 else s.byteAt a :=
  Memory.read_writeWord s.mem _ s.PC a

/-- Settles O22: the entry lies inside memory exactly for an incremented SP below 0xB0; there the effect of the call is
the write of one word, SP and PC. -/
theorem callPushesItsAddress : Obligations.CallPushesItsAddress := by
  intro nnn s
  have haddr : stackAddr (s.SP + 1) = 0xEA0 + 2 * ((s.SP.toNat + 1) % 256) := by
    rw [stackAddr, BitVec.toNat_add]; rfl
  refine ⟨decode_of_eq_encode (wordNNN_eq 0x2 nnn) rfl, haddr, fun h => ?_, fun hlo hhi => ?_⟩
  · refine ⟨_, exec_call_of_lt h, ?_, ?_, fun a hhigh hlow => ?_, BitVec.toNat_add s.SP 1, toNat_addrOperand nnn, ?_⟩
    · rw [byteAt_effectOf_call, if_neg (by omega), if_pos rfl, Memory.toNat_high]
    · rw [byteAt_effectOf_call, if_pos rfl, Memory.toNat_low]
    · rw [byteAt_effectOf_call, if_neg hlow, if_neg hhigh]
    · exact (((SameBut.refl _ s).setMem _ (by simp)).setSP _ (by simp)).setPC _ (by simp)
  · have hsp : stackAddr (s.SP + 1) = 0xEA0 + 2 * (s.SP.toNat + 1) := by omega
    rw [hsp]
    exact exec_of_faultOf_some (if_pos ⟨hlo, hhi⟩)

/-- Settles O23: below 0xB0 the effect of the return is the write of SP and PC, from 0xB0 on its fault is recorded. -/
theorem returnPopsAndGoesOnAfterTheCall : Obligations.ReturnPopsAndGoesOnAfterTheCall := by
  intro s
  refine ⟨rfl, fun h => ⟨_, exec_ret_of_lt h, toNat_effectOf_PC .ret s, ?_, ?_⟩, fun h => ?_⟩
  · exact (BitVec.toNat_sub s.SP 1).trans (congrArg (· % 256) (Nat.add_comm _ _))
  · exact ((SameBut.refl _ s).setSP _ (by simp)).setPC _ (by simp)
  · exact exec_of_faultOf_some (if_pos h)

/-- Settles O24: the return pops the word the call wrote. -/
theorem callThenReturnRoundTrip : Obligations.CallThenReturnRoundTrip := by
  intro nnn s t u h hcall hsp hhigh hlow
  cases (exec_call_of_lt h).symm.trans hcall
  have hu : u.SP.toNat < 0xB0 := by rw [hsp, BitVec.toNat_add]; exact h
  have hpopped : u.mem.readWord (stackAddr u.SP) = s.PC := calc
    u.mem.readWord (stackAddr u.SP)
    _ = (effectOf (.call nnn) s).mem.readWord (stackAddr u.SP) := congrArg₂ composeWord hhigh hlow
    _ = s.PC := by rw [hsp]; exact Memory.readWord_writeWord s.mem _ s.PC
  exact ⟨_, exec_ret_of_lt hu, congrArg (· + 2) hpopped, show u.SP - 1 = s.SP by rw [hsp, BitVec.add_sub_cancel]⟩

end Sys2Proof.Machine
end

section
/-! PROOFS of the statements on register loads, ALU and random (41_alu.md).

Each of the twelve instructions ends in `finish` or `finishFlag`. What these two write is said once; each instruction has
one lemma with its result and its flag as numbers, and the statements are put together from those. -/

open Sys2Proof.Claims

namespace Sys2Proof.Machine

/-! ## The two effects -/

theorem writes_finish {x : Reg} {v result : Byte} (hv : v = result) (s : State) : Writes x result s (finish x v s) := by
  subst hv
  exact ⟨fun r => by simp, rfl, finish_sameBut x v s⟩

/-- The flag is written after the result, so it is what VF holds where x is F (R231). -/
theorem writesWithFlag_finishFlag {x : Reg} {v result f flag : Byte} (hv : v = result) (hf : f = flag) (s : State) :
    WritesWithFlag x result flag s (finishFlag x v f s) := by
  subst hv hf
  exact ⟨fun r => by simp, rfl, finishFlag_sameBut x v f s⟩

theorem getV_of_writes {x : Reg} {result : Byte} {s t : State} (h : Writes x result s t) : t.getV x = result :=
  (h.1 x).trans (if_pos rfl)

/-- Writing back what the register holds leaves everything but PC. -/
theorem sameBut_of_writes_self {x : Reg} {result : Byte} {s t : State} (h : Writes x result s t)
    (hself : result = s.getV x) : SameBut [.PC] s t := by
  obtain ⟨hV, -, hframe⟩ := h
  have hsame : Part.V.Same s t := fun r => by rw [hV r, hself]; split <;> simp_all
  intro p hp
  by_cases hpV : p = .V
  · exact hpV ▸ hsame
  · exact hframe p (by simp_all)

theorem flag_of_writesWithFlag {x : Reg} {result flag : Byte} {s t : State} (h : WritesWithFlag x result flag s t) :
    t.getV 15 = flag :=
  (h.1 15).trans (if_pos rfl)

theorem getV_of_writesWithFlag {x : Reg} {result flag : Byte} {s t : State} (h : WritesWithFlag x result flag s t)
    (hx : x ≠ 15) : t.getV x = result :=
  (h.1 x).trans ((if_neg hx).trans (if_pos rfl))

/-! ## Flags as numbers -/

theorem flagByte_decide (c : Prop) [Decidable c] : flagByte (decide c) = if c then 1 else 0 := by
  simp [flagByte_eq]

/-- A bit of a byte as the byte VF receives. -/
theorem flagByte_getLsbD (a : Byte) (i : Nat) : flagByte (a.getLsbD i) = BitVec.ofNat 8 (a.toNat / 2 ^ i % 2) := by
  rw [BitVec.getLsbD, Nat.testBit_eq_decide_div_mod_eq, flagByte_decide]
  rcases Nat.mod_two_eq_zero_or_one (a.toNat / 2 ^ i) with h | h <;> simp [h]

theorem shrFlag_eq (a : Byte) : shrFlag a = BitVec.ofNat 8 (a.toNat % 2) := by
  rw [shrFlag, flagByte_getLsbD, pow_zero, Nat.div_one]

theorem shlFlag_eq (a : Byte) : shlFlag a = BitVec.ofNat 8 (a.toNat / 128) := by
  rw [shlFlag, flagByte_getLsbD]
  congr 1
  omega

/-! ## One lemma per instruction -/

section
variable (x y : Reg) (kk : Byte) (s : State)

theorem writes_ldI : Writes x kk s (effectOf (.ldI x kk) s) := writes_finish rfl s

theorem writes_addI : Writes x (BitVec.ofNat 8 ((s.getV x).toNat + kk.toNat)) s (effectOf (.addI x kk) s) :=
  writes_finish (BitVec.add_def _ _) s

theorem writes_ldR : Writes x (s.getV y) s (effectOf (.ldR x y) s) := writes_finish rfl s

theorem writes_or :
    Writes x (BitVec.ofNat 8 ((s.getV x).toNat ||| (s.getV y).toNat)) s (effectOf (.or x y) s) :=
  writes_finish (by simp [BitVec.ofNat_or]) s

theorem writes_and :
    Writes x (BitVec.ofNat 8 ((s.getV x).toNat &&& (s.getV y).toNat)) s (effectOf (.and x y) s) :=
  writes_finish (by simp [BitVec.ofNat_and]) s

theorem writes_xor :
    Writes x (BitVec.ofNat 8 ((s.getV x).toNat ^^^ (s.getV y).toNat)) s (effectOf (.xor x y) s) :=
  writes_finish (by simp [BitVec.ofNat_xor]) s

theorem writesWithFlag_addR :
    WritesWithFlag x (BitVec.ofNat 8 ((s.getV x).toNat + (s.getV y).toNat))
      (if (s.getV x).toNat + (s.getV y).toNat > 255 then 1 else 0) s (effectOf (.addR x y) s) :=
  writesWithFlag_finishFlag (BitVec.add_def _ _) (flagByte_decide _) s

theorem writesWithFlag_sub :
    WritesWithFlag x (BitVec.ofNat 8 ((s.getV x).toNat + 256 - (s.getV y).toNat))
      (if (s.getV y).toNat ≤ (s.getV x).toNat then 1 else 0) s (effectOf (.sub x y) s) :=
  writesWithFlag_finishFlag (by bv_omega) (flagByte_decide _) s

theorem writesWithFlag_shr :
    WritesWithFlag x (BitVec.ofNat 8 ((s.getV x).toNat / 2)) (BitVec.ofNat 8 ((s.getV x).toNat % 2)) s
      (effectOf (.shr x y) s) :=
  writesWithFlag_finishFlag (by bv_omega) (shrFlag_eq _) s

theorem writesWithFlag_subn :
    WritesWithFlag x (BitVec.ofNat 8 ((s.getV y).toNat + 256 - (s.getV x).toNat))
      (if (s.getV y).toNat > (s.getV x).toNat then 1 else 0) s (effectOf (.subn x y) s) :=
  writesWithFlag_finishFlag (by bv_omega) (flagByte_decide _) s

theorem writesWithFlag_shl :
    WritesWithFlag x (BitVec.ofNat 8 ((s.getV x).toNat * 2)) (BitVec.ofNat 8 ((s.getV x).toNat / 128)) s
      (effectOf (.shl x y) s) :=
  writesWithFlag_finishFlag (by bv_omega) (shlFlag_eq _) s

theorem writes_rnd : Writes x (BitVec.ofNat 8 (s.rnd.toNat &&& kk.toNat)) s (effectOf (.rnd x kk) s) :=
  writes_finish (by simp [BitVec.ofNat_and]) s

end

/-! ## The statements -/

/-- Settles O26: the words are the encoder's, and 7xkk adds with no flag. -/
theorem immediateLoadAndAdd : Obligations.ImmediateLoadAndAdd := fun x kk s =>
  ⟨decode_of_eq_encode (wordXKK_eq 0x6 x kk) rfl, decode_of_eq_encode (wordXKK_eq 0x7 x kk) rfl,
    ⟨_, rfl, writes_ldI x kk s⟩, ⟨_, rfl, writes_addI x kk s⟩⟩

/-- Settles O27: the words are the encoder's, and none of the four writes a flag. -/
theorem registerMoveAndLogic : Obligations.RegisterMoveAndLogic := fun x y s =>
  ⟨decode_of_eq_encode (wordXYN_eq 0x8 x y 0x0) rfl, decode_of_eq_encode (wordXYN_eq 0x8 x y 0x1) rfl,
    decode_of_eq_encode (wordXYN_eq 0x8 x y 0x2) rfl, decode_of_eq_encode (wordXYN_eq 0x8 x y 0x3) rfl,
    ⟨_, rfl, writes_ldR x y s⟩, ⟨_, rfl, writes_or x y s⟩, ⟨_, rfl, writes_and x y s⟩, ⟨_, rfl, writes_xor x y s⟩⟩

/-- Settles O28: the words are the encoder's, and each of the three writes its flag after its result. -/
theorem addAndSubtractWithFlag : Obligations.AddAndSubtractWithFlag := fun x y s =>
  ⟨decode_of_eq_encode (wordXYN_eq 0x8 x y 0x4) rfl, decode_of_eq_encode (wordXYN_eq 0x8 x y 0x5) rfl,
    decode_of_eq_encode (wordXYN_eq 0x8 x y 0x7) rfl,
    ⟨_, rfl, writesWithFlag_addR x y s⟩, ⟨_, rfl, writesWithFlag_sub x y s⟩, ⟨_, rfl, writesWithFlag_subn x y s⟩⟩

/-- Settles O29: the words are the encoder's for every y, and the effects do not read V[y]. -/
theorem shiftsIgnoreY : Obligations.ShiftsIgnoreY := fun x y s =>
  ⟨decode_of_eq_encode (wordXYN_eq 0x8 x y 0x6) rfl, decode_of_eq_encode (wordXYN_eq 0x8 x y 0xE) rfl,
    ⟨_, rfl, writesWithFlag_shr x y s⟩, ⟨_, rfl, writesWithFlag_shl x y s⟩⟩

/-- Settles O30: the word is the encoder's, and the effect reads the latch `rnd` of the Step event. -/
theorem randomByteIsMasked : Obligations.RandomByteIsMasked := fun x kk s =>
  ⟨decode_of_eq_encode (wordXKK_eq 0xC x kk) rfl, ⟨_, rfl, writes_rnd x kk s⟩⟩

/-! ### Equal operands, and VF as the destination (R244) -/

theorem sameBut_ldR_self (x : Reg) (s : State) : SameBut [.PC] s (effectOf (.ldR x x) s) :=
  sameBut_of_writes_self (writes_ldR x x s) rfl

theorem sameBut_or_self (x : Reg) (s : State) : SameBut [.PC] s (effectOf (.or x x) s) :=
  sameBut_of_writes_self (writes_or x x s) (by simp)

theorem sameBut_and_self (x : Reg) (s : State) : SameBut [.PC] s (effectOf (.and x x) s) :=
  sameBut_of_writes_self (writes_and x x s) (by simp)

theorem getV_xor_self (x : Reg) (s : State) : (effectOf (.xor x x) s).getV x = 0 := by
  rw [getV_of_writes (writes_xor x x s), Nat.xor_self]; rfl

theorem toNat_getV_addR_self {x : Reg} (hx : x ≠ 15) (s : State) :
    ((effectOf (.addR x x) s).getV x).toNat = 2 * (s.getV x).toNat % 256 := by
  rw [getV_of_writesWithFlag (writesWithFlag_addR x x s) hx, BitVec.toNat_ofNat, two_mul]

theorem flag_addR_self (x : Reg) (s : State) :
    (effectOf (.addR x x) s).getV 15 = if 2 * (s.getV x).toNat > 255 then 1 else 0 := by
  rw [two_mul, flag_of_writesWithFlag (writesWithFlag_addR x x s)]

theorem getV_sub_self {x : Reg} (hx : x ≠ 15) (s : State) : (effectOf (.sub x x) s).getV x = 0 := by
  rw [getV_of_writesWithFlag (writesWithFlag_sub x x s) hx, Nat.add_sub_cancel_left]; rfl

/-- A register minus itself borrows nothing (R239). -/
theorem flag_sub_self (x : Reg) (s : State) : (effectOf (.sub x x) s).getV 15 = 1 :=
  (flag_of_writesWithFlag (writesWithFlag_sub x x s)).trans (if_pos le_rfl)

theorem getV_subn_self {x : Reg} (hx : x ≠ 15) (s : State) : (effectOf (.subn x x) s).getV x = 0 := by
  rw [getV_of_writesWithFlag (writesWithFlag_subn x x s) hx, Nat.add_sub_cancel_left]; rfl

/-- SUBN's test is strict, so a register minus itself reports a borrow (R241). -/
theorem flag_subn_self (x : Reg) (s : State) : (effectOf (.subn x x) s).getV 15 = 0 :=
  (flag_of_writesWithFlag (writesWithFlag_subn x x s)).trans (if_neg (lt_irrefl _))

theorem toNat_flag_shr (x y : Reg) (s : State) : ((effectOf (.shr x y) s).getV 15).toNat = (s.getV x).toNat % 2 := by
  rw [flag_of_writesWithFlag (writesWithFlag_shr x y s), BitVec.toNat_ofNat]
  omega

theorem toNat_flag_shl (x y : Reg) (s : State) :
    ((effectOf (.shl x y) s).getV 15).toNat = (s.getV x).toNat / 128 := by
  rw [flag_of_writesWithFlag (writesWithFlag_shl x y s), BitVec.toNat_ofNat]
  omega

/-- Settles O31: with x = y the results and flags at equal operands; with x = F, VF holds the flag, whatever the result. -/
theorem sameRegisterCases : Obligations.SameRegisterCases := by
  refine ⟨fun x s hx => ?_, fun s => ?_, fun y s => ?_⟩
  · exact ⟨⟨_, rfl, sameBut_ldR_self x s⟩, ⟨_, rfl, sameBut_or_self x s⟩, ⟨_, rfl, sameBut_and_self x s⟩,
      ⟨_, rfl, getV_xor_self x s⟩, ⟨_, rfl, toNat_getV_addR_self hx s⟩,
      ⟨_, rfl, getV_sub_self hx s, flag_sub_self x s⟩, ⟨_, rfl, getV_subn_self hx s, flag_subn_self x s⟩⟩
  · exact ⟨⟨_, rfl, flag_sub_self 15 s⟩, ⟨_, rfl, flag_subn_self 15 s⟩, ⟨_, rfl, flag_addR_self 15 s⟩⟩
  · exact ⟨⟨_, rfl, flag_of_writesWithFlag (writesWithFlag_addR 15 y s)⟩,
      ⟨_, rfl, flag_of_writesWithFlag (writesWithFlag_sub 15 y s)⟩, ⟨_, rfl, toNat_flag_shr 15 y s⟩,
      ⟨_, rfl, flag_of_writesWithFlag (writesWithFlag_subn 15 y s)⟩, ⟨_, rfl, toNat_flag_shl 15 y s⟩⟩

end Sys2Proof.Machine
end

section
/-! PROOFS of the statements on the index register and memory transfers (42_index_memory.md).

Annn and Fx29 write I, Fx1E also VF; Fx33 and Fx55 write bytes from I on; Fx65 writes V0 to Vx. What each effect holds at
an address, in a register or in I is said once as a number or a case; the statements are put together from those. -/

namespace Sys2Proof.Machine

/-! ## Frames -/

theorem advance_setI_sameBut (w : Word) (s : State) : SameBut [.I, .PC] s (advance (s.setI w)) :=
  ((SameBut.refl _ s).setI _ (by simp)).setPC _ (by simp)

theorem advance_setMem_sameBut (m : Memory) (s : State) : SameBut [.mem, .PC] s (advance (s.setMem m)) :=
  ((SameBut.refl _ s).setMem _ (by simp)).setPC _ (by simp)

/-! ## The index register -/

theorem toNat_add_byteOperand (w : Word) (b : Byte) : (w + byteOperand b).toNat = (w.toNat + b.toNat) % 65536 := by
  rw [byteOperand]; bv_omega

/-- Five times a byte fits 16 bits, so no glyph address is masked or wrapped (R273). -/
theorem toNat_glyphAddr (b : Byte) : (glyphAddr b).toNat = 5 * b.toNat := by
  rw [glyphAddr, BitVec.toNat_ofNat]
  exact Nat.mod_eq_of_lt (by simp only [Config.glyphStride]; omega)

/-- Fx1E writes no register but VF, x = F included (R272). -/
theorem getV_effectOf_addIdx (x r : Reg) (s : State) :
    (effectOf (.addIdx x) s).getV r =
      if r = 15 then (if s.I.toNat + (s.getV x).toNat > 0xFFFF then 1 else 0) else s.getV r := by
  rw [← flagByte_decide]
  simp [effectOf, indexFlag]

/-- Settles O32: the words are the encoder's; Annn and Fx29 are one write of I, and Fx1E wraps I at 16 bits and writes the
flag. -/
theorem indexRegisterWrites : Obligations.IndexRegisterWrites := by
  intro nnn x s
  refine ⟨decode_of_eq_encode (wordNNN_eq 0xA nnn) rfl, decode_of_eq_encode (wordXKK_eq 0xF x 0x1E) rfl,
    decode_of_eq_encode (wordXKK_eq 0xF x 0x29) rfl,
    ⟨_, rfl, toNat_addrOperand nnn, rfl, advance_setI_sameBut _ s⟩,
    ⟨_, rfl, toNat_add_byteOperand s.I _, fun r => getV_effectOf_addIdx x r s, rfl, ?_⟩,
    ⟨_, rfl, toNat_glyphAddr _, rfl, advance_setI_sameBut _ s⟩⟩
  exact (((SameBut.refl _ s).setI _ (by simp)).setV _ _ (by simp)).setPC _ (by simp)

/-! ## Bytes stored from I on -/

/-- Each decimal digit of a byte fits a byte (R274). -/
theorem map_toNat_bcdDigits (v : Byte) :
    (bcdDigits v).map BitVec.toNat = [v.toNat / 100, v.toNat / 10 % 10, v.toNat % 10] := by
  simp only [bcdDigits, List.map_cons, List.map_nil, BitVec.toNat_ofNat, List.cons.injEq, and_true]
  omega

/-- Fx33 whose bytes lie inside memory raises no fault (R274). -/
theorem exec_ldB_of_le {x : Reg} {s : State} (h : s.I.toNat + 2 ≤ 0xFFF) :
    exec (.ldB x) s = .next (effectOf (.ldB x) s) :=
  exec_of_faultOf_none (if_neg (by omega))

/-- Fx33 leaves the k-th decimal digit at I + k (R274). -/
theorem toNat_byteAt_effectOf_ldB (x : Reg) (s : State) {k : Nat} (hk : k < 3) :
    ((effectOf (.ldB x) s).byteAt (s.I.toNat + k)).toNat =
      [(s.getV x).toNat / 100, (s.getV x).toNat / 10 % 10, (s.getV x).toNat % 10].getD k 0 := by
  have hread : (effectOf (.ldB x) s).byteAt (s.I.toNat + k) = (bcdDigits (s.getV x)).getD k 0 :=
    Memory.read_writeBytes_inside hk
  rw [hread, ← map_toNat_bcdDigits]
  exact (List.getD_map _ (0 : Byte) BitVec.toNat).symm

theorem byteAt_effectOf_ldB_outside {x : Reg} {s : State} {a : Nat} (h : a < s.I.toNat ∨ s.I.toNat + 2 < a) :
    (effectOf (.ldB x) s).byteAt a = s.byteAt a :=
  Memory.read_writeBytes_outside h

/-- Settles O33: up to I = 0xFFD the effect is the write of the three digits, from 0xFFE on the fault is recorded. -/
theorem decimalDigitsStored : Obligations.DecimalDigitsStored := by
  intro x s
  refine ⟨decode_of_eq_encode (wordXKK_eq 0xF x 0x33) rfl, fun h => ?_, fun h => exec_of_faultOf_some (if_pos h)⟩
  exact ⟨_, exec_ldB_of_le h, toNat_byteAt_effectOf_ldB x s (k := 0) (by decide),
    toNat_byteAt_effectOf_ldB x s (k := 1) (by decide), toNat_byteAt_effectOf_ldB x s (k := 2) (by decide),
    fun a => byteAt_effectOf_ldB_outside, rfl, advance_setMem_sameBut _ s⟩

theorem byteAt_effectOf_stRegs_outside {x : Reg} {s : State} {a : Nat}
    (h : a < s.I.toNat ∨ s.I.toNat + x.val < a) : (effectOf (.stRegs x) s).byteAt a = s.byteAt a :=
  Memory.read_writeBytes_outside (by rw [length_regBytes]; omega)

/-- Settles O34: with I + x inside memory the effect is the write of x + 1 bytes, past it the fault is recorded. -/
theorem registersStored : Obligations.RegistersStored := by
  intro x s
  refine ⟨decode_of_eq_encode (wordXKK_eq 0xF x 0x55) rfl, fun h => ?_, fun h => exec_of_faultOf_some (if_pos h)⟩
  exact ⟨_, exec_stRegs_of_le h, fun r hr => byteAt_effectOf_stRegs hr s, fun a => byteAt_effectOf_stRegs_outside, rfl,
    advance_setMem_sameBut _ s⟩

/-! ## Registers loaded from I on -/

/-- Fx65 whose bytes lie inside memory raises no fault (R276). -/
theorem exec_ldRegs_of_le {x : Reg} {s : State} (h : s.I.toNat + x.val ≤ 0xFFF) :
    exec (.ldRegs x) s = .next (effectOf (.ldRegs x) s) :=
  exec_of_faultOf_none (if_neg (by omega))

/-- Fx65 loads register r from I + r, for r up to x, and no other register (R276). -/
theorem getV_effectOf_ldRegs (x r : Reg) (s : State) :
    (effectOf (.ldRegs x) s).getV r = if r ≤ x then s.byteAt (s.I.toNat + r.val) else s.getV r := by
  simp [effectOf, getV_loadRegs, mem_regsUpTo]

theorem PC_effectOf_ldRegs (x : Reg) (s : State) : (effectOf (.ldRegs x) s).PC = s.PC + 2 := by
  simp [effectOf, loadRegs_fields]

/-- Settles O35: with I + x inside memory the effect is the load of V0 to Vx, past it the fault is recorded. -/
theorem registersLoaded : Obligations.RegistersLoaded := by
  intro x s
  refine ⟨decode_of_eq_encode (wordXKK_eq 0xF x 0x65) rfl, fun h => ?_, fun h => exec_of_faultOf_some (if_pos h)⟩
  exact ⟨_, exec_ldRegs_of_le h, fun r => getV_effectOf_ldRegs x r s, PC_effectOf_ldRegs x s,
    effectOf_sameBut (.ldRegs x) s⟩

end Sys2Proof.Machine
end

section
/-! PROOFS of the statements on the display (43_display.md).

What the draw leaves at an address is said by the lemmas on `drawSprite`; here its range, its bits and its collision flag are
said as numbers, and the statements are put together from those. -/

open Sys2Proof.Claims

namespace Sys2Proof.Machine

/-! ## The clear -/

theorem effectOf_cls (s : State) :
    effectOf .cls s = ((s.setMem (clearDisplay s.mem)).addOutput .present).setPC (s.PC + 2) := by
  simp [effectOf]

theorem byteAt_effectOf_cls (s : State) (a : Nat) :
    (effectOf .cls s).byteAt a = if 0xF00 ≤ a ∧ a ≤ 0xFFF then 0 else s.byteAt a := by
  rw [effectOf_cls, State.byteAt_setPC, State.byteAt_addOutput, State.byteAt_setMem, read_clearDisplay, State.byteAt]

theorem effectOf_cls_sameBut (s : State) : SameBut [.mem, .outputs, .PC] s (effectOf .cls s) := by
  rw [effectOf_cls]
  exact (((SameBut.refl _ s).setMem _ (by simp)).addOutput _ (by simp)).setPC _ (by simp)

/-- Settles O36: the effect is the clear, the strobe and PC. -/
theorem clearZeroesTheDisplay : Obligations.ClearZeroesTheDisplay := fun s =>
  ⟨rfl, effectOf .cls s, exec_of_faultOf_none rfl, byteAt_effectOf_cls s, by simp [effectOf_cls],
    by simp [effectOf_cls], effectOf_cls_sameBut s⟩

/-! ## The range of a draw (R303, R307) -/

section
variable {x y : Reg} {n : Nat} {s : State}

theorem faultOf_drw_of_inRange (h : DrawInRange x y n s) : faultOf (.drw x y n) s = none := by
  rw [faultOf, List.findSome?_eq_none_iff.2 fun r hr => h r (List.mem_range.1 hr)]; rfl

/-- A draw in range raises no fault. -/
theorem exec_drw_of_inRange (h : DrawInRange x y n s) : exec (.drw x y n) s = .next (effectOf (.drw x y n) s) :=
  exec_of_faultOf_none (faultOf_drw_of_inRange h)

/-- The fault of a draw is that of its first row with a failing check (R404). -/
theorem faultOf_drw_of_first {r a : Nat} (hr : r < n)
    (hbefore : ∀ q, q < r → rowFault s.I.toNat (s.getV x).toNat (s.getV y).toNat q = none)
    (h : rowFault s.I.toNat (s.getV x).toNat (s.getV y).toNat r = some a) :
    faultOf (.drw x y n) s = some (.readRange, a) := by
  obtain ⟨k, rfl⟩ := Nat.exists_eq_add_of_lt hr
  have hrows : List.range (r + k + 1) = List.range r ++ r :: (List.range k).map (fun j => r + (j + 1)) := by
    rw [Nat.add_assoc, List.range_add, List.range_succ_eq_map, List.map_cons, List.map_map]; rfl
  rw [faultOf, List.findSome?_eq_some_iff.2
    ⟨_, _, _, hrows, h, fun q hq => hbefore q (List.mem_range.1 hq)⟩]; rfl

/-- The display bytes of a row whose checks pass lie in the display region. -/
theorem mem_rowTargets_inDisplay {base : Word} {X Y : Byte} {r a : Nat}
    (h : rowFault base.toNat X.toNat Y.toNat r = none) (ha : a ∈ rowTargets X Y r) : 0xF00 ≤ a ∧ a ≤ 0xFFF := by
  have hlt : a < 0x1000 := firstAbove_eq_none.1 ((firstAbove_rowAddrs base X Y r).trans h) a (List.mem_cons_of_mem _ ha)
  rw [mem_rowTargets] at ha
  simp only [spriteTarget, Config.displayBase] at ha
  omega

end

/-! ## The effect of a draw -/

section
variable (x y : Reg) (n : Nat) (s : State)

theorem byteAt_effectOf_drw (a : Nat) :
    (effectOf (.drw x y n) s).byteAt a = (drawSprite s.I.toNat (s.getV x) (s.getV y) n s.mem).1.read a := rfl

/-- A draw writes no register but VF (R302, R304). -/
theorem getV_effectOf_drw (r : Reg) :
    (effectOf (.drw x y n) s).getV r =
      if r = 15 then flagByte (drawSprite s.I.toNat (s.getV x) (s.getV y) n s.mem).2 else s.getV r := by
  simp [effectOf, collisionFlag]

theorem effectOf_drw_sameBut : SameBut [.mem, .V, .outputs, .PC] s (effectOf (.drw x y n) s) :=
  (effectOf_sameBut (.drw x y n) s).mono (by simp [otherParts])

end

theorem flagByte_eq_one_iff (c : Bool) : flagByte c = 1 ↔ c = true := by
  cases c <;> simp [flagByte]

/-- A flag byte is 1 where its condition holds and 0 where it does not (R40). -/
theorem flagByte_cases {c : Bool} {P : Prop} (h : c = true ↔ P) : (flagByte c = 1 ∧ P) ∨ (flagByte c = 0 ∧ ¬ P) := by
  cases c
  · exact .inr ⟨rfl, fun hP => Bool.false_ne_true (h.2 hP)⟩
  · exact .inl ⟨rfl, h.1 rfl⟩

/-- Settles O37: `f r` is the memory after r rows; VF says whether some row collided. -/
theorem drawXorsRowsInOrder : Obligations.DrawXorsRowsInOrder := by
  intro x y n s hn
  have hword : wordXYN 0xD x y n = encode (.drw x y n) := by
    have h := wordXYN_eq 0xD x y (BitVec.ofNat 4 n)
    rwa [BitVec.toNat_ofNat, Nat.mod_eq_of_lt hn] at h
  refine ⟨decode_of_eq_encode hword (decide_eq_true hn), fun hrange => ?_, fun r a hr hbefore ha =>
    exec_of_faultOf_some (faultOf_drw_of_first hr hbefore ha)⟩
  refine ⟨_, fun r a => (drawSprite s.I.toNat (s.getV x) (s.getV y) r s.mem).1.read a, exec_drw_of_inRange hrange,
    fun a => rfl, fun r _ a => read_drawSprite_succ _ _ _ r _ a, fun a => rfl,
    fun r hr => (getV_effectOf_drw x y n s r).trans (if_neg hr), ?_, rfl, rfl, effectOf_drw_sameBut x y n s⟩
  rw [getV_effectOf_drw, if_pos rfl]
  refine (flagByte_cases (collision_drawSprite _ _ _ n _)).imp_right (And.imp_right fun hnone r a hr => ?_)
  by_contra hmet
  exact hnone ⟨r, a, hr, hmet⟩

/-- Settles O38: the bytes no row targets are left, and a target byte lies in the display region. -/
theorem drawTouchesOnlyItsDisplayBytes : Obligations.DrawTouchesOnlyItsDisplayBytes := by
  intro x y n s t hrange hexec
  cases (exec_drw_of_inRange hrange).symm.trans hexec
  exact ⟨fun a ha => read_drawSprite_untouched ha, fun r a hr => mem_rowTargets_inDisplay (hrange r hr)⟩

/-- Settles O41: no row is drawn, so only VF, the outputs and PC are written. -/
theorem heightZeroDrawsNothing : Obligations.HeightZeroDrawsNothing := fun x y s =>
  ⟨_, rfl, getV_effectOf_drw x y 0 s, rfl, rfl,
    (((SameBut.refl _ s).setV 15 0 (by simp)).addOutput .present (by simp)).setPC (s.PC + 2) (by simp)⟩

/-! ## Linear display bits (R306) -/

theorem displayBit_eq (s : State) (p : Nat) :
    displayBit s p = (s.byteAt (0xF00 + p / 8)).getLsbD (7 - p % 8) := by
  have haddr : Config.displayBase + 8 * (p / 64) + p % 64 / 8 = 0xF00 + p / 8 := by
    simp only [Config.displayBase]; omega
  rw [displayBit, State.pixel, haddr, Nat.mod_mod_of_dvd p (by decide : 8 ∣ 64)]

/-- Bit i of a byte of the display region is a linear display bit. -/
theorem exists_displayBit_eq {a i : Nat} (hlo : 0xF00 ≤ a) (hhi : a ≤ 0xFFF) (hi : i < 8) :
    ∃ p, p < 2048 ∧ ∀ s : State, displayBit s p = (s.byteAt a).getLsbD i := by
  refine ⟨8 * (a - 0xF00) + (7 - i), by omega, fun s => ?_⟩
  rw [displayBit_eq]
  congr 2 <;> omega

/-- A row's mask holds the sprite byte, most significant bit first, from bit o of byte t on: the first 8 − o bits in t, the
others in t + 1 (R303). -/
theorem getLsbD_rowMask (sprite : Byte) {t o : Nat} (ho : o < 8) (p : Nat) :
    (rowMask sprite t o (p / 8)).getLsbD (7 - p % 8) =
      (decide (8 * t + o ≤ p ∧ p < 8 * t + o + 8) && sprite.getLsbD (8 * t + o + 7 - p)) := by
  unfold rowMask
  split_ifs with hleft hright
  · rw [BitVec.getLsbD_ushiftRight]
    by_cases hin : 8 * t + o ≤ p
    · rw [decide_eq_true (by omega), Bool.true_and]
      congr 1; omega
    · rw [decide_eq_false (by omega), Bool.false_and, BitVec.getLsbD_of_ge _ _ (by omega)]
  · rw [BitVec.getLsbD_shiftLeft, decide_eq_true (p := 7 - p % 8 < 8) (by omega), Bool.true_and, ← decide_not]
    by_cases hin : p < 8 * t + o + 8
    · rw [decide_eq_true (by omega), decide_eq_true (by omega)]
      congr 2; omega
    · rw [decide_eq_false (by omega), decide_eq_false (by omega), Bool.false_and, Bool.false_and]
  · rw [decide_eq_false (by omega), Bool.false_and]
    exact BitVec.getLsbD_zero

/-- Row r's sprite byte lies on the eight linear display bits from 64(Y + r) + X on (R306). -/
theorem getLsbD_spriteMask (X Y sprite : Byte) (r p : Nat) :
    (spriteMask X Y sprite r (0xF00 + p / 8)).getLsbD (7 - p % 8) =
      (decide (64 * (Y.toNat + r) + X.toNat ≤ p ∧ p < 64 * (Y.toNat + r) + X.toNat + 8) &&
        sprite.getLsbD (64 * (Y.toNat + r) + X.toNat + 7 - p)) := by
  have hstart : 8 * spriteTarget X Y r + spriteOffset X = 8 * 0xF00 + (64 * (Y.toNat + r) + X.toNat) := by
    simp only [spriteTarget, spriteOffset, Config.displayBase]; omega
  have h := getLsbD_rowMask sprite (t := spriteTarget X Y r) (Nat.mod_lt X.toNat (by decide : 0 < 8)) (8 * 0xF00 + p)
  rw [Nat.mul_add_div (by decide), Nat.mul_add_mod, ← spriteOffset, hstart] at h
  simpa only [Nat.add_assoc, Nat.add_le_add_iff_left, Nat.add_lt_add_iff_left, Nat.add_sub_add_left] using h

/-- The byte of each bit of row r is one the row touches. -/
theorem mem_rowTargets_of_bit (X Y : Byte) (r : Nat) {j : Nat} (hj : j < 8) :
    0xF00 + (64 * (Y.toNat + r) + X.toNat + j) / 8 ∈ rowTargets X Y r := by
  rw [mem_rowTargets]
  simp only [spriteTarget, spriteOffset, Config.displayBase]
  omega

section
variable {x y : Reg} {n : Nat} {s : State}

/-- A sprite apart from the bytes it touches lands on a byte of row r by the mask of that row (R309). -/
theorem byteAt_effectOf_drw_touched (hapart : SpriteApart x y n s) {r a : Nat} (hr : r < n)
    (ha : a ∈ rowTargets (s.getV x) (s.getV y) r) :
    (effectOf (.drw x y n) s).byteAt a =
      s.byteAt a ^^^ spriteMask (s.getV x) (s.getV y) (s.byteAt (s.I.toNat + r)) r a :=
  read_drawSprite_touched hapart hr ha

theorem byteAt_effectOf_drw_untouched {a : Nat} (h : ∀ r, r < n → a ∉ rowTargets (s.getV x) (s.getV y) r) :
    (effectOf (.drw x y n) s).byteAt a = s.byteAt a :=
  read_drawSprite_untouched h

/-- Sprite bit j of row r lands on linear display bit 64(Y + r) + X + j (R306). -/
theorem displayBit_effectOf_drw_on (hapart : SpriteApart x y n s) {r j : Nat} (hr : r < n) (hj : j < 8) :
    displayBit (effectOf (.drw x y n) s) (64 * ((s.getV y).toNat + r) + (s.getV x).toNat + j) =
      (displayBit s (64 * ((s.getV y).toNat + r) + (s.getV x).toNat + j) ^^
        (s.byteAt (s.I.toNat + r)).getLsbD (7 - j)) := by
  rw [displayBit_eq, byteAt_effectOf_drw_touched hapart hr (mem_rowTargets_of_bit _ _ r hj), BitVec.getLsbD_xor,
    getLsbD_spriteMask, ← displayBit_eq, decide_eq_true (by omega), Bool.true_and, Nat.add_sub_add_left]

theorem displayBit_effectOf_drw_off (hapart : SpriteApart x y n s) {p : Nat}
    (hp : ∀ r j, r < n → j < 8 → p ≠ 64 * ((s.getV y).toNat + r) + (s.getV x).toNat + j) :
    displayBit (effectOf (.drw x y n) s) p = displayBit s p := by
  rw [displayBit_eq]
  by_cases htouched : ∃ r, r < n ∧ 0xF00 + p / 8 ∈ rowTargets (s.getV x) (s.getV y) r
  · obtain ⟨r, hr, ha⟩ := htouched
    have hoff : ¬ (64 * ((s.getV y).toNat + r) + (s.getV x).toNat ≤ p ∧
        p < 64 * ((s.getV y).toNat + r) + (s.getV x).toNat + 8) := fun hin =>
      hp r (p - (64 * ((s.getV y).toNat + r) + (s.getV x).toNat)) hr (by omega) (by omega)
    rw [byteAt_effectOf_drw_touched hapart hr ha, BitVec.getLsbD_xor, getLsbD_spriteMask, decide_eq_false hoff,
      Bool.false_and, Bool.xor_false, displayBit_eq]
  · rw [byteAt_effectOf_drw_untouched fun r hr ha => htouched ⟨r, hr, ha⟩, displayBit_eq]

end

/-- Settles O39: a linear display bit of some row is XORed by that row's sprite bit, any other one is left. -/
theorem spriteBitsLandOnLinearDisplayBits : Obligations.SpriteBitsLandOnLinearDisplayBits := fun _ _ _ _ hrange hapart =>
  ⟨_, exec_drw_of_inRange hrange, fun _ _ => displayBit_effectOf_drw_on hapart,
    fun _ _ => displayBit_effectOf_drw_off hapart⟩

/-! ## A second draw (R309) -/

/-- Two bytes meet where they share a set bit (R304). -/
theorem and_ne_zero_iff {a b : Byte} : a &&& b ≠ 0 ↔ ∃ i, a.getLsbD i = true ∧ b.getLsbD i = true := by
  constructor
  · intro hmet
    by_contra hno
    refine hmet (BitVec.eq_of_getLsbD_eq fun i _ => ?_)
    rw [BitVec.getLsbD_and, Bool.eq_false_of_not_eq_true fun h => hno ⟨i, Bool.and_eq_true_iff.1 h⟩]
    exact BitVec.getLsbD_zero.symm
  · rintro ⟨i, ha, hb⟩ hzero
    have hbit := congrArg (BitVec.getLsbD · i) hzero
    simp [ha, hb] at hbit

section
variable {base n : Nat} {X Y : Byte}

/-- A bit the draw turned from 0 to 1 lies in a byte some row touches. -/
theorem exists_mem_rowTargets_of_lit {m : Memory} {a i : Nat} (hdark : (m.read a).getLsbD i = false)
    (hlit : ((drawSprite base X Y n m).1.read a).getLsbD i = true) : ∃ r, r < n ∧ a ∈ rowTargets X Y r := by
  by_contra hno
  rw [read_drawSprite_untouched fun r hr ha => hno ⟨r, hr, ha⟩, hdark] at hlit
  exact Bool.false_ne_true hlit

variable (hapart : ∀ q p, q < n → p < n → base + q ∉ rowTargets X Y p)
include hapart

/-- A sprite apart from the bytes it touches is read as it was before the draw. -/
theorem read_drawSprite_sprite {r k : Nat} (hr : r < n)
    (hk : k ≤ n) (m : Memory) : (drawSprite base X Y k m).1.read (base + r) = m.read (base + r) :=
  read_drawSprite_untouched fun q hq => hapart r q hr (by omega)

/-- With the sprite apart, a row collides exactly with the bits set before the draw. -/
theorem collision_drawSprite_apart (m : Memory) :
    (drawSprite base X Y n m).2 = true ↔
      ∃ r a, r < n ∧ m.read a &&& spriteMask X Y (m.read (base + r)) r a ≠ 0 := by
  rw [collision_drawSprite]
  refine exists_congr fun r => exists_congr fun a => and_congr_right fun hr => ?_
  rw [read_drawSprite_sprite hapart hr hr.le]
  by_cases ha : a ∈ rowTargets X Y r
  · rw [read_drawSprite_untouched fun q hq hmem => hq.ne' (rowTargets_disjoint ha hmem)]
  · simp [spriteMask_eq_zero ha]

/-- Each touched byte is XORed with the same mask twice. -/
theorem read_drawSprite_twice (m : Memory) (a : Nat) :
    (drawSprite base X Y n (drawSprite base X Y n m).1).1.read a = m.read a := by
  by_cases htouched : ∃ r, r < n ∧ a ∈ rowTargets X Y r
  · obtain ⟨r, hr, ha⟩ := htouched
    rw [read_drawSprite_touched hapart hr ha, read_drawSprite_touched hapart hr ha,
      read_drawSprite_sprite hapart hr le_rfl, BitVec.xor_assoc, BitVec.xor_self, BitVec.xor_zero]
  · have huntouched : ∀ r, r < n → a ∉ rowTargets X Y r := fun r hr ha => htouched ⟨r, hr, ha⟩
    rw [read_drawSprite_untouched huntouched, read_drawSprite_untouched huntouched]

/-- A second draw collides with exactly the bits the first one turned from 0 to 1: those of a row's mask that are set after the
first draw were clear before it. -/
theorem collision_drawSprite_twice (m : Memory) :
    (drawSprite base X Y n (drawSprite base X Y n m).1).2 = true ↔
      ∃ a i, (m.read a).getLsbD i = false ∧ ((drawSprite base X Y n m).1.read a).getLsbD i = true := by
  rw [collision_drawSprite_apart hapart]
  constructor
  · rintro ⟨r, a, hr, hmet⟩
    rw [read_drawSprite_sprite hapart hr le_rfl] at hmet
    obtain ⟨i, hlit, hmask⟩ := and_ne_zero_iff.1 hmet
    have ha : a ∈ rowTargets X Y r := by
      by_contra ha
      rw [spriteMask_eq_zero ha] at hmet
      exact hmet BitVec.and_zero
    refine ⟨a, i, ?_, hlit⟩
    simpa [read_drawSprite_touched hapart hr ha, hmask] using hlit
  · rintro ⟨a, i, hdark, hlit⟩
    obtain ⟨r, hr, ha⟩ := exists_mem_rowTargets_of_lit hdark hlit
    have hmask : (spriteMask X Y (m.read (base + r)) r a).getLsbD i = true := by
      simpa [read_drawSprite_touched hapart hr ha, hdark] using hlit
    refine ⟨r, a, hr, and_ne_zero_iff.2 ⟨i, hlit, ?_⟩⟩
    rwa [read_drawSprite_sprite hapart hr le_rfl]

end

/-- The bits a draw in range turned from 0 to 1 are pixels of the display. -/
theorem exists_lit_pixel_iff {x y : Reg} {n : Nat} {s : State} (hrange : DrawInRange x y n s) :
    (∃ a i, (s.byteAt a).getLsbD i = false ∧ ((effectOf (.drw x y n) s).byteAt a).getLsbD i = true) ↔
      ∃ p, p < 2048 ∧ displayBit s p = false ∧ displayBit (effectOf (.drw x y n) s) p = true := by
  constructor
  · rintro ⟨a, i, hdark, hlit⟩
    obtain ⟨r, hr, ha⟩ := exists_mem_rowTargets_of_lit hdark hlit
    obtain ⟨hlo, hhi⟩ := mem_rowTargets_inDisplay (hrange r hr) ha
    obtain ⟨p, hp, hbit⟩ := exists_displayBit_eq hlo hhi (BitVec.lt_of_getLsbD hlit)
    exact ⟨p, hp, (hbit _).trans hdark, (hbit _).trans hlit⟩
  · rintro ⟨p, -, hdark, hlit⟩
    rw [displayBit_eq] at hdark hlit
    exact ⟨_, _, hdark, hlit⟩

/-- Settles O40: the second draw XORs the same masks and collides with the bits the first one lit. -/
theorem drawingTwiceRestores : Obligations.DrawingTwiceRestores := by
  intro x y n s t u hrange hapart hexec hmem hI hx hy
  cases (exec_drw_of_inRange hrange).symm.trans hexec
  have hdrawn : u.mem = (drawSprite s.I.toNat (s.getV x) (s.getV y) n s.mem).1 := hmem
  have hrange' : DrawInRange x y n u := fun r hr => by rw [hI, hx, hy]; exact hrange r hr
  refine ⟨_, exec_drw_of_inRange hrange', fun a => ?_, ?_,
    flagWritersLeaveZeroOrOne _ u _ rfl (faultOf_drw_of_inRange hrange') (exec_drw_of_inRange hrange')⟩
  · rw [byteAt_effectOf_drw, hI, hx, hy, hdrawn]
    exact read_drawSprite_twice hapart s.mem a
  · rw [← exists_lit_pixel_iff hrange, getV_effectOf_drw, if_pos rfl, flagByte_eq_one_iff, hI, hx, hy, hdrawn]
    exact collision_drawSprite_twice hapart s.mem

/-! ## The frame -/

theorem getElem?_frame (s : State) {k : Nat} (hk : k < 256) : s.frame[k]? = some (s.byteAt (0xF00 + k)) := by
  rw [State.frame, List.getElem?_map, List.getElem?_range hk]; rfl

theorem getElem?_displayMatrix (s : State) {r : Nat} (hr : r < 32) :
    s.displayMatrix[r]? = some ((List.range 64).map fun c => s.pixel c r) := by
  rw [State.displayMatrix, List.getElem?_map, List.getElem?_range hr]; rfl

theorem pixel_eq_displayBit (s : State) {c : Nat} (hc : c < 64) (r : Nat) : s.pixel c r = displayBit s (64 * r + c) := by
  rw [displayBit, Nat.mul_add_mod, Nat.mod_eq_of_lt hc, Nat.mul_add_div (by decide), Nat.div_eq_of_lt hc, Nat.add_zero]

/-- Settles O42: both outputs are maps over ranges, and pixel (c, r) is linear display bit 64r + c. -/
theorem frameShowsTheDisplayRegion : Obligations.FrameShowsTheDisplayRegion := by
  refine fun s => ⟨?_, fun k => getElem?_frame s, fun c r hc hr => ⟨⟨_, getElem?_displayMatrix s hr, ?_⟩, ?_⟩⟩
  · rw [State.frame, List.length_map, List.length_range]
  · rw [List.getElem?_map, List.getElem?_range hc]; rfl
  · rw [pixel_eq_displayBit s hc, displayBit_eq]; rfl

/-! ## The `present` strobe -/

/-- The effects that raise `present` are those of 00E0 and Dxyn (R310). -/
theorem outputs_effectOf (i : Instr) (s : State) :
    (effectOf i s).outputs = if presents i = true then .present :: s.outputs else s.outputs := by
  cases i with
  | cls => simp [effectOf_cls, presents]
  | drw => rfl
  | _ => exact effectOf_sameBut _ s .outputs (by simp [otherParts])

/-- A Step event that executes no instruction adds no output (R310). -/
theorem outputs_onStep_of_no_instr {s t : State} {rnd : Byte} (h : onStep rnd s = .next t)
    (hno : ¬ CanStep s ∨ 0xFFF < s.PC.toNat + 1 ∨ ∃ g, decode (wordAtPC s) = .gap g) : t.outputs = s.outputs := by
  obtain ⟨-, he⟩ | ⟨-, -, he⟩ | ⟨hc, hpc, he⟩ := onStep_cases rnd s
  · cases he.symm.trans h; rfl
  · cases he.symm.trans h; rfl
  · obtain hclosed | hfetch | ⟨g, hg⟩ := hno
    · exact absurd hc hclosed
    · omega
    · cases (he.trans (execWord_gap hg _)).symm.trans h; rfl

/-- Settles O51: a fault writes the record alone, an effect raises the strobe where the instruction is 00E0 or Dxyn. -/
theorem presentRaisedByClearAndDrawOnly : Obligations.PresentRaisedByClearAndDrawOnly := by
  refine ⟨fun i s t h => ?_, fun s rnd es t hnext h hno => ?_⟩
  · obtain ⟨code, addr, hf, he⟩ | ⟨hf, he⟩ := exec_cases i s <;> cases he.symm.trans h
    · simp [hf]
    · simp [hf, outputs_effectOf]
  · exact outputs_onStep_of_no_instr (s := s.setSchedule es) ((step_of_stepNext hnext).symm.trans h) hno

end Sys2Proof.Machine
end

section
/-! PROOFS of the statements on keys and timers (44_keys_timers.md).

The key skips are one operation at two levels. Fx0A has two outcomes: the wait, which it enters from Idle and stays in
while no edge is set, and the acknowledgement of an edge. A run of retries is an induction over the waits. -/

open Sys2Proof.Claims

namespace Sys2Proof.Machine

/-! ## The key skips -/

theorem keyOperand_of_toNat {b : Byte} {k : Key} (h : b.toNat = k.val) : keyOperand b = k := by
  rw [keyOperand, h, Fin.ofNat_val_eq_self]

/-- With an index that names a key, the skip is taken exactly on the level asked for. -/
theorem keySkip_skips {x : Reg} {s : State} {k : Key} (h : (s.getV x).toNat = k.val) (level : Bool) :
    ∃ t, keySkip x level s = .next t ∧ Skips (s.getKey k = level) s t := by
  refine ⟨_, if_neg (by omega), ?_⟩
  rw [keyOperand_of_toNat h]
  exact skips_skipIf (s.getKey k = level) s

theorem keySkip_fault {x : Reg} {s : State} (h : 15 < (s.getV x).toNat) (level : Bool) :
    keySkip x level s = .next (s.setFault (some ⟨.keyIndex, s.PC, (s.getV x).toNat⟩)) := if_pos h

/-- Settles O43: the two instructions are the key skip at levels held and not held. -/
theorem keySkipsReadLevels : Obligations.KeySkipsReadLevels := fun x _ =>
  ⟨decode_of_eq_encode (wordXKK_eq 0xE x 0x9E) rfl, decode_of_eq_encode (wordXKK_eq 0xE x 0xA1) rfl,
    fun _ h => ⟨keySkip_skips h true, keySkip_skips h false⟩, fun h => ⟨keySkip_fault h true, keySkip_fault h false⟩⟩

/-! ## One execution of Fx0A -/

theorem toNat_keyByte (k : Key) : (keyByte k).toNat = k.val := by
  rw [keyByte, BitVec.toNat_ofNat]; omega

/-- Without an edge to acknowledge, from Idle or in Awaiting, Fx0A ends in Awaiting with the edge clear (R343, R423). -/
theorem exec_ldVxK_wait {s : State} (h : s.kstate = .awaiting → s.edge = false) (x : Reg) :
    exec (.ldVxK x) s = .next ((s.setKstate .awaiting).setEdge false) := by
  cases hk : s.kstate with
  | idle => exact execLdVxK_idle hk x
  | awaiting =>
    have hself : (s.setKstate .awaiting).setEdge false = s := by rw [← hk, ← h hk]; rfl
    rw [hself]
    exact execLdVxK_retry hk (h hk) x

theorem exec_ldVxK_ack {s : State} (hk : s.kstate = .awaiting) (he : s.edge = true) (x : Reg) :
    exec (.ldVxK x) s = .next (finish x (keyByte s.lastKey) ((s.setEdge false).setKstate .idle)) :=
  execLdVxK_ack hk he x

/-- Settles O44: the wait from Idle, the wait again, the acknowledgement. -/
theorem blockingKeyReadStates : Obligations.BlockingKeyReadStates := by
  refine fun x s => ⟨decode_of_eq_encode (wordXKK_eq 0xF x 0x0A) rfl, fun hk => ?_,
    fun hk he => execLdVxK_retry hk he x, fun hk he => ?_⟩
  · exact ⟨_, execLdVxK_idle hk x, rfl, rfl, ((SameBut.refl _ s).setKstate _ (by simp)).setEdge _ (by simp)⟩
  · refine ⟨_, exec_ldVxK_ack hk he x, rfl, rfl, fun r => ?_, rfl, ?_⟩
    · simp [apply_ite BitVec.toNat, toNat_keyByte]
    · exact (((SameBut.refl _ s).setEdge _ (by simp)).setKstate _ (by simp)).trans
        ((finish_sameBut _ _ _).mono (by simp))

/-! ## Steps of the wait (R344) -/

/-- The next Step event of the run executes an Fx0A. -/
structure AtKeyRead (x : Reg) (s : State) : Prop where
  running : s.ended = false
  canStep : CanStep s
  fetch : s.PC.toNat + 1 ≤ 0xFFF
  instr : decode (wordAtPC s) = .instr (.ldVxK x)

/-- The state after a Step of the wait, which leaves `es` on the schedule and the rnd of the event in its latch. -/
def afterWait (rnd : Byte) (es : List Event) (s : State) : State :=
  (((s.setSchedule es).setRnd rnd).setKstate .awaiting).setEdge false

theorem afterWait_afterWait (rnd rnd' : Byte) (es es' : List Event) (s : State) :
    afterWait rnd' es' (afterWait rnd es s) = afterWait rnd' es' s := by
  cases s; rfl

theorem afterWait_sameBut (rnd : Byte) (es : List Event) (s : State) :
    SameBut [.kstate, .edge, .host] s (afterWait rnd es s) :=
  ((((SameBut.refl _ s).setSchedule _ (by simp)).setRnd _ (by simp)).setKstate _ (by simp)).setEdge _ (by simp)

/-- The state after a key-down in the wait and the Step that acknowledges it. -/
def afterKeyDown (x : Reg) (k : Key) (rnd : Byte) (es : List Event) (s : State) : State :=
  finish x (keyByte k) (((((onKey k true s).setSchedule es).setRnd rnd).setEdge false).setKstate .idle)

theorem getV_afterKeyDown (x : Reg) (k : Key) (rnd : Byte) (es : List Event) (s : State) (r : Reg) :
    (afterKeyDown x k rnd es s).getV r = if r = x then keyByte k else s.getV r := by
  simp [afterKeyDown, onKey_down]

theorem PC_afterKeyDown (x : Reg) (k : Key) (rnd : Byte) (es : List Event) (s : State) :
    (afterKeyDown x k rnd es s).PC = s.PC + 2 := by
  simp [afterKeyDown, onKey_down]

theorem afterKeyDown_sameBut (x : Reg) (k : Key) (rnd : Byte) (es : List Event) (s : State) :
    SameBut [.V, .PC, .keys, .lastKey, .kstate, .edge, .host] s (afterKeyDown x k rnd es s) := by
  have hkey := (onKey_sameBut k true s).mono (qs := [.V, .PC, .keys, .lastKey, .kstate, .edge, .host]) (by simp)
  have hack := ((hkey.setSchedule es (by simp)).setRnd rnd (by simp)).setEdge false (by simp)
  exact (hack.setKstate .idle (by simp)).trans ((finish_sameBut _ _ _).mono (by simp))

section
variable {x : Reg} {s : State} {rnd : Byte} {es : List Event}

theorem AtKeyRead.step_eq (h : AtKeyRead x s) (hs : s.schedule = .step rnd :: es) :
    step s = exec (.ldVxK x) ((s.setSchedule es).setRnd rnd) :=
  step_eq_exec ⟨h.running, hs⟩ h.canStep h.fetch h.instr

theorem AtKeyRead.wait (h : AtKeyRead x s) (rnd : Byte) (es : List Event) : AtKeyRead x (afterWait rnd es s) :=
  ⟨h.running, h.canStep, h.fetch, h.instr⟩

theorem AtKeyRead.keyDown (h : AtKeyRead x s) (k : Key) (es : List Event) :
    AtKeyRead x (onKey k true (s.setSchedule es)) :=
  ⟨h.running, h.canStep, h.fetch, h.instr⟩

theorem AtKeyRead.step_wait (h : AtKeyRead x s) (hedge : s.kstate = .awaiting → s.edge = false)
    (hs : s.schedule = .step rnd :: es) : step s = .next (afterWait rnd es s) :=
  (h.step_eq hs).trans (exec_ldVxK_wait (s := (s.setSchedule es).setRnd rnd) hedge x)

/-- Any positive number of Steps with no Key event is one wait, with the last of their random bytes latched. -/
theorem AtKeyRead.run_waits (rnds : List Byte) (h : AtKeyRead x s) (hedge : s.kstate = .awaiting → s.edge = false)
    (hs : s.schedule = (rnd :: rnds).map .step ++ es) :
    ∃ last, Sys2Proof.core.run (rnds.length + 1) s = .next (afterWait last es s) := by
  induction rnds generalizing rnd s with
  | nil => exact ⟨rnd, run_succ 0 (h.step_wait hedge hs)⟩
  | cons q rnds ih =>
    have hstep := h.step_wait hedge hs
    obtain ⟨last, hrun⟩ := ih (h.wait rnd _) (fun _ => rfl) rfl
    rw [afterWait_afterWait] at hrun
    exact ⟨last, (run_succ _ hstep).trans hrun⟩

/-- In the wait, a key-down and one Step acknowledge the key. -/
theorem AtKeyRead.run_keyDown (h : AtKeyRead x s) (hk : s.kstate = .awaiting) {k : Key}
    (hs : s.schedule = .key k true :: .step rnd :: es) :
    Sys2Proof.core.run 2 s = .next (afterKeyDown x k rnd es s) := by
  have hkey : step s = .next (onKey k true (s.setSchedule (.step rnd :: es))) := step_of_schedule h.running hs
  have hstep := (h.keyDown k (.step rnd :: es)).step_eq (rnd := rnd) (es := es) rfl
  rw [exec_ldVxK_ack (by simp [onKey_down, hk]) (by simp [onKey_down])] at hstep
  rw [run_succ 1 hkey, run_succ 0 hstep]
  rfl

end

/-- Settles O45: the Steps before the key-down are one wait, and the Step after it acknowledges the key. -/
theorem keyWaitRetriesUntilKeyDown : Obligations.KeyWaitRetriesUntilKeyDown := by
  intro x s rnds k r es hend hcan hpc hi hidle hne hs
  obtain ⟨rnd, rnds, rfl⟩ := List.exists_cons_of_ne_nil hne
  have hread : AtKeyRead x s := ⟨hend, hcan, hpc, hi⟩
  obtain ⟨last, hwait⟩ := hread.run_waits rnds (fun hk => nomatch hidle.symm.trans hk) hs
  have hack := (run_add _ 2 hwait).trans ((hread.wait last _).run_keyDown rfl rfl)
  have hframe := afterWait_sameBut last (.key k true :: .step r :: es) s
  refine ⟨⟨_, hwait, rfl, rfl, hframe⟩, _, hack, ?_, ?_, rfl, rfl, rfl, fun q hq => ?_, ?_⟩
  · rw [PC_afterKeyDown, show (afterWait last _ s).PC = s.PC from hframe .PC (by simp)]
  · rw [getV_afterKeyDown, if_pos rfl, toNat_keyByte]
  · rw [getV_afterKeyDown, if_neg hq]
    exact hframe .V (by simp) q
  · exact (hframe.mono (by simp)).trans (afterKeyDown_sameBut _ _ _ _ _)

/-! ## The timer moves -/

/-- Settles O46: each move is one write and PC + 2. -/
theorem timerMoves : Obligations.TimerMoves := fun x s =>
  ⟨decode_of_eq_encode (wordXKK_eq 0xF x 0x07) rfl, decode_of_eq_encode (wordXKK_eq 0xF x 0x15) rfl,
    decode_of_eq_encode (wordXKK_eq 0xF x 0x18) rfl, ⟨_, rfl, writes_finish rfl s⟩,
    ⟨_, rfl, rfl, rfl, ((SameBut.refl _ s).setDT _ (by simp)).setPC _ (by simp)⟩,
    ⟨_, rfl, rfl, rfl, rfl, ((SameBut.refl _ s).setST _ (by simp)).setPC _ (by simp)⟩⟩

end Sys2Proof.Machine
end

section
/-! PROOFS of the statements on exceptions, timers and the keyboard (60_exceptions.md).

A fault is recorded in two places, an instruction (`exec_cases`) and the fetch (`onStep_cases`), and both write the
record alone. The invariant is kept by each event: a Step runs only where the phase is Running and no fault is recorded, so
there it is left to show that an effect keeps memory canonical and that a recorded fault is one R401 allows. -/

open Sys2Proof.Claims

namespace Sys2Proof.Machine

/-! ## The invariant

`State.Inv` reads memory, V, I, PC, SP, kstate, phase and the fault record only, so an update of another field keeps it
by definition. -/

/-! ### Effects keep memory canonical (R80) -/

theorem mem_skipIf (c : Bool) (s : State) : (skipIf c s).mem = s.mem := by
  rw [skipIf_eq, State.setPC_mem]

/-- An instruction not listed as a writer of memory leaves the image as it is. -/
theorem mem_effectOf {i : Instr} (h : Part.mem ∉ otherParts i) (s : State) : (effectOf i s).mem = s.mem := by
  cases i with
  | cls | call | drw | ldB | stRegs => exact absurd (by simp [otherParts]) h
  | seI | sneI | seR | sneR | skp | sknp => exact mem_skipIf _ s
  | ldVxK => rw [effectOf]; split <;> rfl
  | ldRegs => exact (loadRegs_fields _ _ s).1
  | _ => rfl

/-- A transfer from I whose checks pass keeps the canonical form. -/
theorem wf_writeBytes_of_indexAddrs {m : Memory} {base : Word} {vs : List Byte} {k : Nat} (hlen : vs.length = k + 1)
    (hcheck : firstAbove (indexAddrs base (k + 1)) = none) (h : m.wf = true) :
    (m.writeBytes base.toNat vs).wf = true := by
  rw [firstAbove_indexAddrs] at hcheck
  have hrange : ¬ 0xFFF < base.toNat + k := by simpa using hcheck
  exact Memory.wf_writeBytes (by simp only [Config.memSize]; omega) h

/-- A push whose checks pass keeps the canonical form. -/
theorem wf_writeWord_of_stackAddrs {m : Memory} {sp : Byte} (hcheck : firstAbove (stackAddrs sp) = none) (w : Word)
    (h : m.wf = true) : (m.writeWord (stackAddr sp) w).wf = true := by
  have hlast := firstAbove_eq_none.1 hcheck (stackAddr sp + 1) (by simp [stackAddrs])
  exact Memory.wf_writeBytes (by simp only [wordBytes, List.length_cons, List.length_nil]; omega) h

/-- An instruction that raises no fault writes inside memory. -/
theorem wf_effectOf {i : Instr} {s : State} (hf : faultOf i s = none) (h : s.mem.wf = true) :
    (effectOf i s).mem.wf = true := by
  cases i with
  | cls =>
    rw [effectOf_cls, State.setPC_mem, State.addOutput_mem, State.setMem_mem]
    exact wf_clearDisplay h
  | call nnn =>
    rw [faultOf_call, Option.map_eq_none_iff] at hf
    exact wf_writeWord_of_stackAddrs hf s.PC h
  | drw x y n =>
    rw [faultOf_drw, Option.map_eq_none_iff, firstAbove_drawAddrs_eq_none] at hf
    exact wf_drawSprite (fun r hr => (hf r hr).2) h
  | ldB x =>
    rw [faultOf_ldB, Option.map_eq_none_iff] at hf
    exact wf_writeBytes_of_indexAddrs rfl hf h
  | stRegs x =>
    rw [faultOf_stRegs, Option.map_eq_none_iff] at hf
    exact wf_writeBytes_of_indexAddrs (length_regBytes s x) hf h
  | _ => rwa [mem_effectOf (by simp [otherParts])]

theorem fault_effectOf (i : Instr) (s : State) : (effectOf i s).fault = s.fault :=
  effectOf_sameBut i s .fault (by cases i <;> simp [otherParts])

theorem phase_effectOf (i : Instr) (s : State) : (effectOf i s).phase = s.phase :=
  effectOf_sameBut i s .phase (by cases i <;> simp [otherParts])

/-! ### Recorded faults are those R401 allows -/

/-- A range fault that comes from a check of addresses names one above 0xFFF. -/
theorem sound_of_check {c code : FaultCode} {as : List Nat} {addr : Nat} (hc : c ≠ .keyIndex)
    (h : ((firstAbove as).map fun a => (c, a)) = some (code, addr)) (s : State) :
    (⟨code, s.PC, addr⟩ : FaultRecord).Sound s := by
  obtain ⟨a, ha, heq⟩ := Option.map_eq_some_iff.1 h
  cases heq
  have habove : 0xFFF < addr := (firstAbove_eq_some ha).2
  refine ⟨rfl, ?_⟩
  cases c with
  | keyIndex => exact absurd rfl hc
  | fetchRange | readRange | writeRange => exact habove

/-- A key fault names a byte above 15. -/
theorem sound_of_keyIndex {b : Byte} {code : FaultCode} {addr : Nat}
    (h : (if 15 < b.toNat then some (FaultCode.keyIndex, b.toNat) else none) = some (code, addr)) (s : State) :
    (⟨code, s.PC, addr⟩ : FaultRecord).Sound s := by
  rw [Option.ite_none_right_eq_some] at h
  obtain ⟨hb, heq⟩ := h
  cases heq
  exact ⟨rfl, hb, Nat.le_of_lt_succ b.isLt⟩

/-- The fault an instruction raises is one R401 allows. -/
theorem sound_of_faultOf {i : Instr} {s : State} {code : FaultCode} {addr : Nat}
    (h : faultOf i s = some (code, addr)) : (⟨code, s.PC, addr⟩ : FaultRecord).Sound s := by
  cases i with
  | ret => exact sound_of_check (by decide) ((faultOf_ret s).symm.trans h) s
  | call nnn => exact sound_of_check (by decide) ((faultOf_call nnn s).symm.trans h) s
  | drw x y n => exact sound_of_check (by decide) ((faultOf_drw x y n s).symm.trans h) s
  | ldB x => exact sound_of_check (by decide) ((faultOf_ldB x s).symm.trans h) s
  | stRegs x => exact sound_of_check (by decide) ((faultOf_stRegs x s).symm.trans h) s
  | ldRegs x => exact sound_of_check (by decide) ((faultOf_ldRegs x s).symm.trans h) s
  | skp x => exact sound_of_keyIndex h s
  | sknp x => exact sound_of_keyIndex h s
  | _ => cases h

/-- So is the fault of the fetch. -/
theorem sound_fetchFault (s : State) :
    (⟨.fetchRange, s.PC, if 0xFFF < s.PC.toNat then s.PC.toNat else 0x1000⟩ : FaultRecord).Sound s := by
  refine ⟨rfl, ?_⟩
  show 0xFFF < if 0xFFF < s.PC.toNat then s.PC.toNat else 0x1000
  split <;> omega

/-! ### Every event keeps it -/

/-- While the run has no fault, the invariant says only that memory is canonical. -/
theorem inv_of_canStep {s : State} (hmem : s.mem.wf = true) (hc : CanStep s) : s.Inv :=
  ⟨hmem, fun _ hf => (nomatch hc.2.symm.trans hf), fun hne => absurd hc.1 hne⟩

theorem inv_setFault {s : State} {f : FaultRecord} (h : s.Inv) (hrun : s.phase = .running) (hf : f.Sound s) :
    (s.setFault (some f)).Inv := by
  refine ⟨h.1, fun g hg => ?_, fun hne => absurd hrun hne⟩
  cases hg
  exact hf

theorem exec_keeps_inv {i : Instr} {s t : State} (h : s.Inv) (hc : CanStep s) (he : exec i s = .next t) : t.Inv := by
  obtain ⟨code, addr, hf, hnext⟩ | ⟨hf, hnext⟩ := exec_cases i s <;> cases hnext.symm.trans he
  · exact inv_setFault h hc.1 (sound_of_faultOf hf)
  · exact inv_of_canStep (wf_effectOf hf h.1) ⟨(phase_effectOf i s).trans hc.1, (fault_effectOf i s).trans hc.2⟩

theorem execWord_keeps_inv {w : Word} {s t : State} (h : s.Inv) (hc : CanStep s) (he : execWord w s = .next t) :
    t.Inv := by
  obtain ⟨i, -, hw⟩ | ⟨g, -, hw⟩ := execWord_cases w s
  · exact exec_keeps_inv h hc (hw.symm.trans he)
  · cases hw.symm.trans he
    exact inv_of_canStep (s := s.setPC (s.PC + 2)) h.1 hc

theorem onStep_keeps_inv {rnd : Byte} {s t : State} (h : s.Inv) (he : onStep rnd s = .next t) : t.Inv := by
  obtain ⟨-, hs⟩ | ⟨hc, -, hs⟩ | ⟨hc, -, hs⟩ := onStep_cases rnd s
  · cases hs.symm.trans he
    exact h
  · cases hs.symm.trans he
    exact inv_setFault h hc.1 (sound_fetchFault s)
  · exact execWord_keeps_inv (s := s.setRnd rnd) h hc (hs.symm.trans he)

/-- An accepted program lies inside memory, and before it no fault was recorded (R462). -/
theorem onLoad_keeps_inv {s : State} (h : s.Inv) (bytes : List Byte) (complete : Bool) :
    (onLoad bytes complete s).Inv := by
  obtain ⟨-, hl⟩ | ⟨hp, -, hl⟩ | ⟨hp, hlen, -, hl⟩ := onLoad_cases bytes complete s <;> rw [hl]
  · exact h
  all_goals
    obtain ⟨hmem, hsound, hstart⟩ := h
    have hfresh : s.Unstarted := hstart (by simp [hp])
  · exact ⟨hmem, hsound, fun _ => hfresh⟩
  · obtain ⟨-, -, -, -, -, -, hfault⟩ := hfresh
    have hfit : Config.programBase + bytes.length ≤ Config.memSize := by
      simp only [Config.programBase, Config.memSize, Config.romMax] at hlen ⊢; omega
    exact inv_of_canStep (Memory.wf_writeBytes hfit hmem) ⟨rfl, hfault⟩

theorem react_keeps_inv {e : Event} {s t : State} (h : s.Inv) (he : react e s = .next t) : t.Inv := by
  cases e with
  | load bytes complete => cases he; exact onLoad_keeps_inv h bytes complete
  | step rnd => exact onStep_keeps_inv h he
  | tick => cases he; exact h
  | key k down => cases he; cases down <;> exact h
  | terminate => cases he; exact h

/-- Settles O53: every event keeps the invariant, as does the Step of an empty schedule. -/
theorem everyStepKeepsTheInvariant : Obligations.EveryStepKeepsTheInvariant := by
  intro s t h hstep
  cases hend : s.ended with
  | true => cases (step_ended hend).symm.trans hstep
  | false =>
    cases hs : s.schedule with
    | nil =>
      exact onStep_keeps_inv (s := s.setRndCount (s.rndCount + 1)) h ((step_unscheduled hend hs).symm.trans hstep)
    | cons e es =>
      exact react_keeps_inv (s := s.setSchedule es) h ((step_of_schedule hend hs).symm.trans hstep)

/-! ## Faults (R401 to R403) -/

/-- Taking an event off the schedule adds the host's side to a frame. -/
theorem sameBut_of_setSchedule {ps qs : List Part} {es : List Event} {s t : State}
    (h : SameBut ps (s.setSchedule es) t) (hsub : ∀ p, p ∈ Part.host :: ps → p ∈ qs) : SameBut qs s t :=
  ((SameBut.refl _ s).setSchedule es (hsub _ List.mem_cons_self)).trans
    (h.mono fun p hp => hsub p (List.mem_cons_of_mem _ hp))

/-- An instruction that leaves a fault record where there was none has raised its own fault. -/
theorem exec_faulted {i : Instr} {s t : State} (hf : s.fault = none) (h : exec i s = .next t) (ht : t.fault ≠ none) :
    ∃ code addr, t = s.setFault (some ⟨code, s.PC, addr⟩) := by
  obtain ⟨code, addr, -, he⟩ | ⟨-, he⟩ := exec_cases i s <;> cases he.symm.trans h
  · exact ⟨code, addr, rfl⟩
  · exact absurd ((fault_effectOf i s).trans hf) ht

/-- A Step event that leaves a fault record where there was none has written it alone, but for the latch. -/
theorem onStep_faulted {rnd : Byte} {s t : State} (hf : s.fault = none) (h : onStep rnd s = .next t)
    (ht : t.fault ≠ none) :
    (∃ code addr, t.fault = some ⟨code, s.PC, addr⟩) ∧ SameBut [.fault, .host] s t := by
  have same := SameBut.refl [.fault, .host] s
  obtain ⟨-, he⟩ | ⟨-, -, he⟩ | ⟨-, -, he⟩ := onStep_cases rnd s
  · cases he.symm.trans h
    exact absurd hf ht
  · cases he.symm.trans h
    exact ⟨⟨_, _, rfl⟩, same.setFault _ (by simp)⟩
  · obtain ⟨i, -, hw⟩ | ⟨g, -, hw⟩ := execWord_cases (wordAtPC s) (s.setRnd rnd)
    · obtain ⟨code, addr, rfl⟩ := exec_faulted (s := s.setRnd rnd) hf ((he.trans hw).symm.trans h) ht
      exact ⟨⟨code, addr, rfl⟩, (same.setRnd rnd (by simp)).setFault _ (by simp)⟩
    · cases (he.trans hw).symm.trans h
      exact absurd hf ht

/-- Settles O18: an effect records no fault, so a fault recorded is the instruction's or the fetch's own. -/
theorem faultEntryIsPrecise : Obligations.FaultEntryIsPrecise := by
  refine ⟨fun i s t => exec_faulted, fun s rnd es t hnext hf h ht => ?_⟩
  obtain ⟨hrecord, hframe⟩ := onStep_faulted (s := s.setSchedule es) hf ((step_of_stepNext hnext).symm.trans h) ht
  exact ⟨hrecord, sameBut_of_setSchedule hframe (by simp)⟩

/-- Settles O19: the fault is the one `faultOf` names, and an effect, a gap and a fetch inside memory record none. -/
theorem faultCausesAndRecords : Obligations.FaultCausesAndRecords := by
  refine ⟨rfl, fun i s => ⟨fun code addr => exec_of_faultOf_some, fun hf => ?_⟩, fun w g s hw => ?_,
    fun s rnd es hnext hc hpc => ?_⟩
  · exact ⟨_, exec_of_faultOf_none hf, fault_effectOf i s⟩
  · exact ⟨_, execWord_gap hw s, rfl⟩
  · exact ⟨_, (stepFetchesDecodesExecutes s rnd es hnext).2.1 hc hpc, rfl⟩

/-- With a fault recorded, no event clears the record (R403). -/
theorem react_keeps_fault (e : Event) {s : State} {f : FaultRecord} (h : s.fault = some f) :
    ∃ t, react e s = .next t ∧ t.fault = some f := by
  have hclosed : ¬ CanStep s := fun hc => nomatch hc.2.symm.trans h
  cases e with
  | load bytes complete => exact ⟨_, rfl, (onLoad_sameBut bytes complete s .fault (by simp)).trans h⟩
  | step rnd => exact ⟨s, onStep_closed hclosed rnd, h⟩
  | tick => exact ⟨_, rfl, h⟩
  | key k down => exact ⟨_, rfl, (onKey_sameBut k down s .fault (by simp)).trans h⟩
  | terminate => exact ⟨_, rfl, h⟩

/-! ## Ticks and keys (R420, R422) -/

theorem toNat_onTick_DT (s : State) : (onTick s).DT.toNat = s.DT.toNat - 1 := toNat_countDown s.DT

theorem toNat_onTick_ST (s : State) : (onTick s).ST.toNat = s.ST.toNat - 1 := toNat_countDown s.ST

/-- A scheduled Tick counts both timers down once and changes nothing else. -/
theorem tick_sameBut (es : List Event) (s : State) : SameBut [.DT, .ST, .host] s (onTick (s.setSchedule es)) :=
  sameBut_of_setSchedule (onTick_sameBut _) (by simp)

/-- Settles O15: by induction on the number of ticks. -/
theorem ticksCountDownToZero : Obligations.TicksCountDownToZero := by
  intro (s : State) n es hend hs
  induction n generalizing s with
  | zero => exact ⟨s, run_zero s, hs, rfl, rfl, SameBut.refl _ s⟩
  | succ n ih =>
    have hstep : step s = .next (onTick (s.setSchedule (.replicate n .tick ++ es))) := step_of_schedule hend hs
    obtain ⟨t, hrun, hsched, hDT, hST, hframe⟩ := ih (onTick (s.setSchedule (.replicate n .tick ++ es))) hend rfl
    refine ⟨t, (run_succ n hstep).trans hrun, hsched, ?_, ?_, (tick_sameBut _ s).trans hframe⟩
    · rw [hDT, toNat_onTick_DT, State.setSchedule_DT, Nat.sub_sub, Nat.add_comm]
    · rw [hST, toNat_onTick_ST, State.setSchedule_ST, Nat.sub_sub, Nat.add_comm]

/-- A Key event writes its own slot (R422). -/
theorem getKey_onKey (k j : Key) (down : Bool) (s : State) :
    (onKey k down s).getKey j = if j = k then down else s.getKey j := by
  cases down
  · exact State.getKey_setKey s k false j
  · exact State.getKey_setKey s k true j

/-- Settles O16: a key-up is one write, a key-down three. -/
theorem keyEventUpdatesKeyboard : Obligations.KeyEventUpdatesKeyboard := by
  intro s k down es hend hs
  refine ⟨_, step_of_schedule hend hs, fun j => getKey_onKey k j down _, ?_, ?_⟩ <;> rintro rfl
  · exact ⟨rfl, rfl, sameBut_of_setSchedule (onKey_sameBut k true _) (by simp)⟩
  · exact ((SameBut.refl _ s).setSchedule es (by simp)).setKey k false (by simp)

/-- Settles O17: the gate of a Step is closed, and no other event reads the record. -/
theorem faultIsTerminal : Obligations.FaultIsTerminal := by
  intro s f e es hend hf hs
  obtain ⟨t, ht, hfault⟩ := react_keeps_fault e (s := s.setSchedule es) hf
  refine ⟨t, (step_of_schedule hend hs).trans ht, hfault, ?_, ?_, ?_, ?_⟩
  · rintro rnd rfl
    cases (onStep_closed (s := s.setSchedule es) (fun hc => nomatch hc.2.symm.trans hf) rnd).symm.trans ht
    rfl
  · rintro rfl
    cases ht
    exact ⟨toNat_onTick_DT _, toNat_onTick_ST _, tick_sameBut es s⟩
  · rintro k down rfl
    cases ht
    exact ⟨(getKey_onKey k k down _).trans (if_pos rfl), sameBut_of_setSchedule (onKey_sameBut k down _) (by simp)⟩
  · rintro rfl
    cases ht
    exact ⟨rfl, ((SameBut.refl _ s).setSchedule es (by simp)).setEnded true (by simp)⟩

/-! ## The Step of an empty schedule (R429) -/

/-- Settles O8: both steps are the same Step event on the same state. -/
theorem unscheduledStepTakesFreeRandomByte : Obligations.UnscheduledStepTakesFreeRandomByte := by
  intro s hend hs
  have hempty : s.setSchedule [] = s := by rw [← hs]; rfl
  have hstep := step_of_schedule (s := (s.setRndCount (s.rndCount + 1)).setSchedule [.step (Config.freeRnd s.rndCount)])
    hend rfl
  rw [hstep, step_unscheduled hend hs]
  exact congrArg (fun u => onStep (Config.freeRnd s.rndCount) (u.setRndCount (s.rndCount + 1))) hempty.symm

end Sys2Proof.Machine
end

section
/-! PROOFS of the statements on the load and the first step (70_reset_and_hazards.md).

`onLoad_cases` says what a Load can do. Ticks and Keys touch only the timers and the keyboard and so commute with an
accepted Load: the state when the first step starts is the one the devices leave of reset, with the program put in
last. -/

open Sys2Proof.Claims

namespace Sys2Proof.Machine

/-! ## The three ways a Load goes (R462) -/

/-- The state an accepted Load leaves: the program at 0x200, phase Running, the answer ok (R462). -/
def acceptLoad (bytes : List Byte) (s : State) : State :=
  ((s.setMem (s.mem.writeBytes Config.programBase bytes)).setPhase .running).addOutput (.loadAnswer true)

theorem onLoad_refused {s : State} (h : s.phase ≠ .constructed) (bytes : List Byte) (complete : Bool) :
    onLoad bytes complete s = s.addOutput (.loadAnswer false) := by
  obtain ⟨-, hl⟩ | ⟨hp, -⟩ | ⟨hp, -⟩ := onLoad_cases bytes complete s
  · exact hl
  · exact absurd hp h
  · exact absurd hp h

theorem onLoad_rejected {s : State} {bytes : List Byte} {complete : Bool} (h : s.phase = .constructed)
    (hbad : Config.romMax < bytes.length ∨ complete = false) :
    onLoad bytes complete s = (s.setPhase .loadFailed).addOutput (.loadAnswer false) := by
  obtain ⟨hne, -⟩ | ⟨-, -, hl⟩ | ⟨-, hlen, hcomplete, -⟩ := onLoad_cases bytes complete s
  · exact absurd h hne
  · exact hl
  · rcases hbad with hlong | hshort
    · exact absurd hlong (Nat.not_lt.2 hlen)
    · cases hcomplete.symm.trans hshort

theorem onLoad_accepted {s : State} {bytes : List Byte} (h : s.phase = .constructed)
    (hlen : bytes.length ≤ Config.romMax) : onLoad bytes true s = acceptLoad bytes s := by
  obtain ⟨hne, -⟩ | ⟨-, hlong | hshort, -⟩ | ⟨-, -, -, hl⟩ := onLoad_cases bytes true s
  · exact absurd h hne
  · exact absurd hlong (Nat.not_lt.2 hlen)
  · cases hshort
  · exact hl

theorem acceptLoad_sameBut (bytes : List Byte) (s : State) :
    SameBut [.mem, .phase, .outputs] s (acceptLoad bytes s) :=
  (((SameBut.refl _ s).setMem _ (by simp)).setPhase _ (by simp)).addOutput _ (by simp)

/-- The program's bytes read back from 0x200 on. -/
theorem byteAt_acceptLoad_inside {bytes : List Byte} {j : Nat} (h : j < bytes.length) (s : State) :
    (acceptLoad bytes s).byteAt (0x200 + j) = bytes.getD j 0 :=
  Memory.read_writeBytes_inside h

/-- Outside the program an accepted Load changes no byte. -/
theorem byteAt_acceptLoad_outside {bytes : List Byte} {a : Nat} (h : a < 0x200 ∨ 0x200 + bytes.length ≤ a)
    (s : State) : (acceptLoad bytes s).byteAt a = s.byteAt a :=
  Memory.read_writeBytes_outside h

/-- Settles O13: the three cases of a Load, on the state with the event taken off the schedule. -/
theorem loadAcceptsOrRejects : Obligations.LoadAcceptsOrRejects := by
  intro s bytes complete es hend hs
  refine ⟨_, step_of_schedule hend hs, fun hp => ?_, fun hp hbad => ?_, fun hp hlen hcomplete => ?_⟩
  · rw [onLoad_refused (s := s.setSchedule es) hp]
    exact ⟨rfl, ((SameBut.refl _ s).setSchedule es (by simp)).addOutput _ (by simp)⟩
  · rw [onLoad_rejected (s := s.setSchedule es) hp hbad]
    exact ⟨rfl, rfl, (((SameBut.refl _ s).setSchedule es (by simp)).setPhase _ (by simp)).addOutput _ (by simp)⟩
  · subst hcomplete
    rw [onLoad_accepted (s := s.setSchedule es) hp hlen]
    exact ⟨rfl, rfl, fun j hj => byteAt_acceptLoad_inside hj _, fun a ha => byteAt_acceptLoad_outside ha _,
      sameBut_of_setSchedule (acceptLoad_sameBut bytes _) (by simp)⟩

/-! ## The load phase (R463) -/

theorem exec_keeps_phase {i : Instr} {s t : State} (h : exec i s = .next t) : t.phase = s.phase := by
  obtain ⟨code, addr, -, he⟩ | ⟨-, he⟩ := exec_cases i s <;> cases he.symm.trans h
  · rfl
  · exact phase_effectOf i s

theorem onStep_keeps_phase {rnd : Byte} {s t : State} (h : onStep rnd s = .next t) : t.phase = s.phase := by
  obtain ⟨-, he⟩ | ⟨-, -, he⟩ | ⟨-, -, he⟩ := onStep_cases rnd s
  · cases he.symm.trans h; rfl
  · cases he.symm.trans h; rfl
  · obtain ⟨i, -, hw⟩ | ⟨g, -, hw⟩ := execWord_cases (wordAtPC s) (s.setRnd rnd)
    · exact exec_keeps_phase (s := s.setRnd rnd) ((he.trans hw).symm.trans h)
    · cases (he.trans hw).symm.trans h; rfl

/-- A Load moves the phase out of Constructed or leaves it as it is. -/
theorem onLoad_phase (bytes : List Byte) (complete : Bool) (s : State) :
    (onLoad bytes complete s).phase = s.phase ∨
      (s.phase = .constructed ∧
        ((onLoad bytes complete s).phase = .running ∨ (onLoad bytes complete s).phase = .loadFailed)) := by
  obtain ⟨-, hl⟩ | ⟨hp, -, hl⟩ | ⟨hp, -, -, hl⟩ := onLoad_cases bytes complete s <;> rw [hl]
  · exact .inl rfl
  · exact .inr ⟨hp, .inr rfl⟩
  · exact .inr ⟨hp, .inl rfl⟩

/-- Of the five events only a Load changes the phase. -/
theorem react_changes_phase {e : Event} {s t : State} (h : react e s = .next t) (hne : t.phase ≠ s.phase) :
    s.phase = .constructed ∧ (t.phase = .running ∨ t.phase = .loadFailed) ∧
      ∃ bytes complete, e = .load bytes complete := by
  cases e with
  | load bytes complete =>
    cases h
    obtain hsame | ⟨hp, hnew⟩ := onLoad_phase bytes complete s
    · exact absurd hsame hne
    · exact ⟨hp, hnew, bytes, complete, rfl⟩
  | step rnd => exact absurd (onStep_keeps_phase h) hne
  | tick => cases h; exact absurd rfl hne
  | key k down => cases h; exact absurd (onKey_sameBut k down s .phase (by simp)) hne
  | terminate => cases h; exact absurd rfl hne

/-- Settles O14: event by event, on the state with the event taken off the schedule. -/
theorem loadHappensOnce : Obligations.LoadHappensOnce := by
  intro s e es hend hs
  have hstep := step_of_schedule hend hs
  refine ⟨fun t ht => react_changes_phase (s := s.setSchedule es) (hstep.symm.trans ht), ?_, ?_, ?_, ?_⟩
  · rintro hp bytes complete rfl
    exact hstep.trans (congrArg _ (onLoad_refused (s := s.setSchedule es) hp bytes complete))
  · rintro hp rnd rfl
    exact hstep.trans (onStep_closed (s := s.setSchedule es) (fun hc => hp hc.1) rnd)
  · rintro rfl
    exact ⟨_, hstep, toNat_onTick_DT _, toNat_onTick_ST _⟩
  · rintro k down rfl
    exact ⟨_, hstep, (getKey_onKey k k down _).trans (if_pos rfl)⟩

/-! ## What Ticks and Keys leave (R420, R422) -/

theorem onKey_onTick (k : Key) (down : Bool) (s : State) : onKey k down (onTick s) = onTick (onKey k down s) := by
  cases down <;> rfl

theorem onKey_acceptLoad (bytes : List Byte) (k : Key) (down : Bool) (s : State) :
    onKey k down (acceptLoad bytes s) = acceptLoad bytes (onKey k down s) := by
  cases down <;> rfl

theorem onKey_setSchedule (es : List Event) (k : Key) (down : Bool) (s : State) :
    onKey k down (s.setSchedule es) = (onKey k down s).setSchedule es := by
  cases down <;> rfl

theorem iterate_onTick_sameBut (n : Nat) (s : State) : SameBut [.DT, .ST] s (onTick^[n] s) := by
  induction n generalizing s with
  | zero => exact SameBut.refl _ s
  | succ n ih => exact (onTick_sameBut s).trans (ih (onTick s))

/-- Either timer counts down with the Ticks, not below 0 (R420). -/
theorem toNat_iterate_onTick {timer : State → Byte} (htimer : ∀ u, timer (onTick u) = countDown (timer u)) (n : Nat)
    (s : State) : (timer (onTick^[n] s)).toNat = (timer s).toNat - n := by
  induction n generalizing s with
  | zero => rfl
  | succ n ih => rw [Function.iterate_succ_apply, ih, htimer, toNat_countDown, Nat.sub_sub, Nat.add_comm]

theorem afterKeys_append (es fs : List Event) (s : State) : afterKeys (es ++ fs) s = afterKeys fs (afterKeys es s) :=
  List.foldl_append

theorem afterKeys_sameBut (es : List Event) (s : State) : SameBut [.keys, .edge, .lastKey] s (afterKeys es s) := by
  induction es generalizing s with
  | nil => exact SameBut.refl _ s
  | cons e es ih =>
    cases e with
    | key k down => exact (onKey_sameBut k down s).trans (ih (onKey k down s))
    | load | step | tick | terminate => exact ih s

/-- What commutes with a Key event commutes with a list of them. -/
theorem afterKeys_comm {f : State → State} (hkey : ∀ k down u, onKey k down (f u) = f (onKey k down u))
    (es : List Event) (s : State) : afterKeys es (f s) = f (afterKeys es s) := by
  induction es generalizing s with
  | nil => rfl
  | cons e es ih =>
    cases e with
    | key k down => exact (congrArg (afterKeys es) (hkey k down s)).trans (ih (onKey k down s))
    | load | step | tick | terminate => exact ih s

/-- The state the Ticks and Keys of a list leave; its other events count for nothing. -/
def afterDevices (es : List Event) (s : State) : State := onTick^[tickCount es] (afterKeys es s)

theorem afterDevices_comm {f : State → State} (hkey : ∀ k down u, onKey k down (f u) = f (onKey k down u))
    (htick : ∀ u, onTick (f u) = f (onTick u)) (es : List Event) (s : State) :
    afterDevices es (f s) = f (afterDevices es s) := by
  have hcomm : Function.Commute f onTick := fun u => (htick u).symm
  rw [afterDevices, afterKeys_comm hkey, afterDevices]
  exact (hcomm.iterate_right _ _).symm

theorem afterDevices_append (es fs : List Event) (s : State) :
    afterDevices (es ++ fs) s = afterDevices fs (afterDevices es s) := by
  have hcount : tickCount (es ++ fs) = tickCount fs + tickCount es := by
    rw [tickCount, List.countP_append, Nat.add_comm]; rfl
  calc afterDevices (es ++ fs) s
      = onTick^[tickCount fs] (onTick^[tickCount es] (afterKeys fs (afterKeys es s))) := by
        rw [afterDevices, hcount, Function.iterate_add_apply, afterKeys_append]
    _ = afterDevices fs (afterDevices es s) := by
        have hkey : ∀ k down u, onKey k down (onTick^[tickCount es] u) = onTick^[tickCount es] (onKey k down u) :=
          fun k down => Function.Commute.iterate_right (onKey_onTick k down) _
        rw [afterDevices, afterDevices, afterKeys_comm hkey]

theorem afterDevices_sameBut (es : List Event) (s : State) :
    SameBut [.DT, .ST, .keys, .edge, .lastKey] s (afterDevices es s) :=
  ((afterKeys_sameBut es s).mono (by simp)).trans ((iterate_onTick_sameBut _ _).mono (by simp))

/-- Each Tick counts once, wherever the Keys stand (R420). -/
theorem toNat_afterDevices {timer : State → Byte} (htimer : ∀ u, timer (onTick u) = countDown (timer u))
    {es : List Event} {s : State} (hkeys : timer (afterKeys es s) = timer s) :
    (timer (afterDevices es s)).toNat = (timer s).toNat - tickCount es := by
  rw [afterDevices, toNat_iterate_onTick htimer, hkeys]

/-! ## The run to the first step (R464) -/

/-- An event that in phase `p` can only reach the devices: a Tick or a Key, or a Step whose gate is closed (R34). -/
def ReachesOnlyDevices (p : Phase) (e : Event) : Prop :=
  isDeviceEvent e = true ∨ (isBeforeLoad e = true ∧ p ≠ .running)

theorem react_device {e : Event} {s : State} (h : ReachesOnlyDevices s.phase e) :
    react e s = .next (afterDevices [e] s) := by
  cases e with
  | tick => rfl
  | key k down => rfl
  | step rnd =>
    obtain h | ⟨-, hp⟩ := h
    · cases h
    · exact onStep_closed (fun hc => hp hc.1) rnd
  | load | terminate => obtain h | ⟨h, -⟩ := h <;> cases h

theorem step_setSchedule {s : State} (h : s.ended = false) (e : Event) (es : List Event) :
    step (s.setSchedule (e :: es)) = react e (s.setSchedule es) :=
  step_of_schedule (s := s.setSchedule (e :: es)) h rfl

/-- A run through such events. -/
theorem run_afterDevices {es : List Event} {s : State} (hend : s.ended = false)
    (h : ∀ e ∈ es, ReachesOnlyDevices s.phase e) (rest : List Event) :
    Sys2Proof.core.run es.length (s.setSchedule (es ++ rest)) =
      Host.Outcome.next ((afterDevices es s).setSchedule rest) := by
  induction es generalizing s with
  | nil => exact run_zero _
  | cons e es ih =>
    have hframe := afterDevices_sameBut [e] s
    have hphase : (afterDevices [e] s).phase = s.phase := hframe .phase (by simp)
    have hstep : step (s.setSchedule (e :: es ++ rest)) = .next ((afterDevices [e] s).setSchedule (es ++ rest)) :=
      calc step (s.setSchedule (e :: es ++ rest))
          = react e (s.setSchedule (es ++ rest)) := step_setSchedule hend e _
        _ = .next (afterDevices [e] (s.setSchedule (es ++ rest))) := react_device (h e List.mem_cons_self)
        _ = .next ((afterDevices [e] s).setSchedule (es ++ rest)) :=
            congrArg _ (afterDevices_comm (onKey_setSchedule _) (fun _ => rfl) [e] s)
    have htail : ∀ e' ∈ es, ReachesOnlyDevices (afterDevices [e] s).phase e' :=
      fun e' he => hphase ▸ h e' (List.mem_cons_of_mem _ he)
    rw [List.length_cons, run_succ _ hstep, ih ((hframe .ended (by simp)).trans hend) htail, ← afterDevices_append,
      List.singleton_append]

/-- The whole run: what the devices leave of reset, with the program put in last. -/
theorem run_to_first_step {pre post : List Event} {bytes : List Byte} (hpre : ∀ e ∈ pre, isBeforeLoad e = true)
    (hpost : ∀ e ∈ post, isDeviceEvent e = true) (hlen : bytes.length ≤ Config.romMax) (es : List Event) :
    Sys2Proof.core.run (pre.length + 1 + post.length)
        (State.reset.setSchedule (pre ++ .load bytes true :: (post ++ es))) =
      Host.Outcome.next ((acceptLoad bytes (afterDevices (pre ++ post) State.reset)).setSchedule es) := by
  have hframe := afterDevices_sameBut pre State.reset
  have hend : (afterDevices pre State.reset).ended = false := hframe .ended (by simp)
  have hphase : (afterDevices pre State.reset).phase = .constructed := hframe .phase (by simp)
  have hload : step ((afterDevices pre State.reset).setSchedule (.load bytes true :: (post ++ es))) =
      .next ((acceptLoad bytes (afterDevices pre State.reset)).setSchedule (post ++ es)) :=
    (step_setSchedule hend _ _).trans
      (congrArg _ (onLoad_accepted (s := (afterDevices pre State.reset).setSchedule (post ++ es)) hphase hlen))
  rw [Nat.add_assoc, Nat.add_comm 1,
    run_add _ _ (run_afterDevices (s := State.reset) rfl (fun e he => .inr ⟨hpre e he, by decide⟩) _),
    run_succ _ hload, run_afterDevices (s := acceptLoad bytes _) hend (fun e he => .inl (hpost e he)) es,
    afterDevices_comm (onKey_acceptLoad bytes) (fun _ => rfl), ← afterDevices_append]

/-- Settles O57: each part of the state that the run leaves, read off the Load, the devices and reset. -/
theorem stateWhenFirstStepStarts : Obligations.StateWhenFirstStepStarts := by
  intro pre post bytes es hpre hpost hlen
  obtain ⟨hfont, hzero, hPC, hSP, -, -, -, hkstate, -, hfault⟩ := resetValues
  have hdev := afterDevices_sameBut (pre ++ post) State.reset
  have hkeys := afterKeys_sameBut (pre ++ post) State.reset
  have hticks := iterate_onTick_sameBut (tickCount (pre ++ post)) (afterKeys (pre ++ post) State.reset)
  have hbyte : ∀ a, a < 0x200 ∨ 0x200 + bytes.length ≤ a →
      (acceptLoad bytes (afterDevices (pre ++ post) State.reset)).byteAt a = State.reset.byteAt a :=
    fun a ha => (byteAt_acceptLoad_outside ha _).trans (hdev .mem (by simp) a)
  refine ⟨_, run_to_first_step hpre hpost hlen es, ?font, ?low, ?program, ?high, (hdev .PC (by simp)).trans hPC,
    (hdev .SP (by simp)).trans hSP, State.V_ext (hdev .V (by simp)), hdev .I (by simp),
    toNat_afterDevices (timer := State.DT) (fun _ => rfl) (hkeys .DT (by simp)),
    toNat_afterDevices (timer := State.ST) (fun _ => rfl) (hkeys .ST (by simp)),
    hticks .keys (by simp), hticks .lastKey (by simp), hticks .edge (by simp),
    (hdev .kstate (by simp)).trans hkstate, rfl, (hdev .fault (by simp)).trans hfault, hdev .ended (by simp), rfl⟩
  case font => exact fun a ha => (hbyte a (.inl (by omega))).trans (hfont a ha)
  case low => exact fun a h1 h2 => (hbyte a (.inl (by omega))).trans (hzero a h1 (by omega))
  case program => exact fun j hj => byteAt_acceptLoad_inside hj _
  case high => exact fun a h1 h2 => (hbyte a (.inr h1)).trans (hzero a (by omega) h2)

end Sys2Proof.Machine
end

section
/-! PROOFS of the statement on the opcode table (30_encoding.md section 2, opcode_table.json). -/

open Sys2Proof.Claims

namespace Sys2Proof

/-! ## The word of a decoded instruction is in its row -/

theorem encode_matches_row (i : Instr) : encode i &&& i.row.mask = i.row.pattern := by
  cases i with
  | cls | ret => rfl
  | jp | call | ldIdx | jpV0 => exact (Laws.formatNNN_mask ..).trans rfl
  | seI | sneI | ldI | addI | rnd => exact (Laws.formatXKK_mask ..).trans rfl
  | drw => exact (Laws.formatXYN_mask ..).trans rfl
  | seR | sneR | ldR | or | and | xor | addR | sub | shr | subn | shl =>
    exact (Laws.formatXYN_mask_selector ..).trans rfl
  | skp | sknp | ldVxDt | ldVxK | ldDtVx | ldStVx | addIdx | ldF | ldB | stRegs | ldRegs =>
    exact (Laws.formatXKK_mask_selector ..).trans rfl

/-! ## A word in a row decodes to an instruction of the row -/

section
variable {w mask pattern : Word}

/-- A field of the word is fixed by the pattern where the mask covers the field. -/
theorem extractLsb'_eq_of_mask {start len : Nat} (h : w &&& mask = pattern)
    (hmask : mask.extractLsb' start len = BitVec.allOnes len) :
    w.extractLsb' start len = pattern.extractLsb' start len := by
  rw [← h, BitVec.extractLsb'_and, hmask, BitVec.and_allOnes]

theorem fieldOp_eq_of_mask (h : w &&& 0xF000 = pattern) : fieldOp w = fieldOp pattern :=
  extractLsb'_eq_of_mask h (by decide)

theorem fieldOp_fieldN_eq_of_mask (h : w &&& 0xF00F = pattern) :
    fieldOp w = fieldOp pattern ∧ fieldN w = fieldN pattern :=
  ⟨extractLsb'_eq_of_mask h (by decide), extractLsb'_eq_of_mask h (by decide)⟩

theorem fieldOp_fieldKk_eq_of_mask (h : w &&& 0xF0FF = pattern) :
    fieldOp w = fieldOp pattern ∧ fieldKk w = fieldKk pattern :=
  ⟨extractLsb'_eq_of_mask h (by decide), extractLsb'_eq_of_mask h (by decide)⟩

end

/-- What the mask covers, the top nibble and the row's selector (none, n, kk or the whole word), is all the decoder branches
on in that family. -/
theorem exists_decode_of_row {w : Word} {i : Instr} (h : w &&& i.row.mask = i.row.pattern) :
    ∃ j, decode w = .instr j ∧ j.row = i.row := by
  cases i with
  | cls | ret =>
    obtain rfl : w = _ := (BitVec.and_allOnes (x := w)).symm.trans h
    exact ⟨_, rfl, rfl⟩
  | jp | call | seI | sneI | ldI | addI | ldIdx | jpV0 | rnd | drw =>
    dsimp only [Instr.row] at h
    rw [decode, fieldOp_eq_of_mask h]
    exact ⟨_, rfl, rfl⟩
  | seR | sneR | ldR | or | and | xor | addR | sub | shr | subn | shl =>
    dsimp only [Instr.row] at h
    obtain ⟨hop, hn⟩ := fieldOp_fieldN_eq_of_mask h
    rw [decode, hop, hn]
    exact ⟨_, rfl, rfl⟩
  | skp | sknp | ldVxDt | ldVxK | ldDtVx | ldStVx | addIdx | ldF | ldB | stRegs | ldRegs =>
    dsimp only [Instr.row] at h
    obtain ⟨hop, hkk⟩ := fieldOp_fieldKk_eq_of_mask h
    rw [decode, hop, hkk]
    exact ⟨_, rfl, rfl⟩

/-- Settles O3: a decoded instruction's word is the one it encodes to, which is in the instruction's row; and a word in a row
has the top nibble and the selector that the decoder reads for that row. -/
theorem opcodeTableGovernsDecode : Obligations.OpcodeTableGovernsDecode := by
  refine ⟨fun w i h => ?_, fun w i => exists_decode_of_row⟩
  obtain ⟨rfl, -⟩ := encodeAfterDecode w i h
  exact encode_matches_row i

end Sys2Proof
end
